-- ==== Sys2Proof/Word.lean ====
section
/-! DEFINITION. The word types: every register, address and ALU value is a 32-bit vector (R6, R7), memory is
made of bytes (R30), a register index has five bits (R10). Arithmetic is `BitVec`'s own, modulo 2^32 (R7, R96). -/

namespace Sys2Proof

/-- A register, ALU, address or instruction word: 32 bits, bit 31 the most significant (R6). -/
abbrev Word := BitVec 32

/-- The smallest addressable unit of both stores (R30). -/
abbrev Byte := BitVec 8

/-- A register index, 0 to 31 (R10). -/
abbrev Reg := BitVec 5

end Sys2Proof
end

