-- ==== Sys2Proof/Config.lean ====
section
/-! DEFINITION. The fixed parameters of the hardware (R5, R52, D36) and the values the model chooses where the spec
has launch parameters. -/

namespace Sys2Proof

/-- `ILEN` in bytes: every instruction is one word of four bytes (R5, R50). -/
def Config.instrBytes : Nat := 4

/-- `NREGS` (R5, R10). -/
def Config.numRegs : Nat := 32

/-- `HALT_OPCODE`, the Halt sentinel (R5, R52). -/
def Config.haltOpcode : BitVec 7 := 0b1111111#7

/-- `RESET_PC` (R5; the spec's decision D25). -/
def Config.resetPc : Word := 0#32

/-- The least and the greatest size a store may have (R5; the spec's decision D22). -/
def Config.minStoreSize : Nat := 4

/-- The greatest size a store may have, 2^31 bytes (R5; the spec's decision D22). -/
def Config.maxStoreSize : Nat := 0x80000000

/-- What an address that a memory list does not name reads as. DESIGN CHOICE, unsafe (log 5): the spec gives no
contents at launch (R5, R46). -/
def Config.unlistedByte : Byte := 0#8

/-- The values of the parameter `BRANCH_OPERANDS`: the spec gives exactly one (D36, U17). -/
inductive BranchOperands where
  /-- Branch operands come straight from the register file, never through the forwarding network (R139, R143). -/
  | regfile
  deriving DecidableEq, Repr

/-- `BRANCH_OPERANDS` (D36). -/
def Config.branchOperands : BranchOperands := .regfile

end Sys2Proof
end

