-- ==== Sys2Proof/Syntax.lean ====
section
/-! DEFINITION. The instructions CORE gives a meaning (R58): one constructor for each of the eighteen rows of
`spec/opcode_table.json`, with the fields its class has (R51, R70). An immediate is held as the 32-bit value it stands
for, sign-extended already (R70). Bits a row does not examine are fields where the decoded record keeps them (`funct7`
of XOR, OR, AND; `funct3` of SW: R60, R70) and are absent where the record has no further field (HALT: R59). -/

namespace Sys2Proof

/-- The seven instruction classes (R52, R70). -/
inductive Cls where
  | r | i | loadI | s | b | j | halt
  deriving DecidableEq, Repr

/-- The five ALU operation codes (R70, R85). -/
inductive AluOp where
  | add | subtract | and | or | xor
  deriving DecidableEq, Repr

/-- The instructions, in the order of R58. -/
inductive Instr where
  /-- ADD (R87) -/
  | add (rd rs1 rs2 : Reg)
  /-- SUB (R88) -/
  | sub (rd rs1 rs2 : Reg)
  /-- XOR (R89); `funct7` is carried and not examined (R60) -/
  | xor (funct7 : BitVec 7) (rd rs1 rs2 : Reg)
  /-- OR (R90); `funct7` is carried and not examined (R60) -/
  | or (funct7 : BitVec 7) (rd rs1 rs2 : Reg)
  /-- AND (R91); `funct7` is carried and not examined (R60) -/
  | and (funct7 : BitVec 7) (rd rs1 rs2 : Reg)
  /-- ADDI (R92) -/
  | addi (rd rs1 : Reg) (imm : Word)
  /-- XORI (R93) -/
  | xori (rd rs1 : Reg) (imm : Word)
  /-- ORI (R94) -/
  | ori (rd rs1 : Reg) (imm : Word)
  /-- ANDI (R95) -/
  | andi (rd rs1 : Reg) (imm : Word)
  /-- LW (R101) -/
  | lw (rd rs1 : Reg) (imm : Word)
  /-- LW.XOR (R102) -/
  | lwXor (rd rs1 : Reg) (imm : Word)
  /-- LW.OR (R103) -/
  | lwOr (rd rs1 : Reg) (imm : Word)
  /-- LW.AND (R104) -/
  | lwAnd (rd rs1 : Reg) (imm : Word)
  /-- SW (R105); `funct3` is carried and not examined (R60) -/
  | sw (funct3 : BitVec 3) (rs1 rs2 : Reg) (imm : Word)
  /-- BEQ (R141) -/
  | beq (rs1 rs2 : Reg) (imm : Word)
  /-- BNE (R142) -/
  | bne (rs1 rs2 : Reg) (imm : Word)
  /-- JAL (R144) -/
  | jal (rd : Reg) (imm : Word)
  /-- HALT (R150); it has no field (R59) -/
  | halt
  deriving DecidableEq, Repr

/-- The class of an instruction (R58). -/
def Instr.cls : Instr → Cls
  | .add _ _ _ => .r
  | .sub _ _ _ => .r
  | .xor _ _ _ _ => .r
  | .or _ _ _ _ => .r
  | .and _ _ _ _ => .r
  | .addi _ _ _ => .i
  | .xori _ _ _ => .i
  | .ori _ _ _ => .i
  | .andi _ _ _ => .i
  | .lw _ _ _ => .loadI
  | .lwXor _ _ _ => .loadI
  | .lwOr _ _ _ => .loadI
  | .lwAnd _ _ _ => .loadI
  | .sw _ _ _ _ => .s
  | .beq _ _ _ => .b
  | .bne _ _ _ => .b
  | .jal _ _ => .j
  | .halt => .halt

/-- The source registers present for the instruction's class (R51): the fields the load-use detector compares (R130). -/
def Instr.sources : Instr → List Reg
  | .add _ rs1 rs2 => [rs1, rs2]
  | .sub _ rs1 rs2 => [rs1, rs2]
  | .xor _ _ rs1 rs2 => [rs1, rs2]
  | .or _ _ rs1 rs2 => [rs1, rs2]
  | .and _ _ rs1 rs2 => [rs1, rs2]
  | .addi _ rs1 _ => [rs1]
  | .xori _ rs1 _ => [rs1]
  | .ori _ rs1 _ => [rs1]
  | .andi _ rs1 _ => [rs1]
  | .lw _ rs1 _ => [rs1]
  | .lwXor _ rs1 _ => [rs1]
  | .lwOr _ rs1 _ => [rs1]
  | .lwAnd _ rs1 _ => [rs1]
  | .sw _ rs1 rs2 _ => [rs1, rs2]
  | .beq rs1 rs2 _ => [rs1, rs2]
  | .bne rs1 rs2 _ => [rs1, rs2]
  | .jal _ _ => []
  | .halt => []

/-- The register an R-, I- or LoadI-class instruction writes in WB (R12, R114): `rd`, register 0 included. -/
def Instr.wbDest : Instr → Option Reg
  | .add rd _ _ => some rd
  | .sub rd _ _ => some rd
  | .xor _ rd _ _ => some rd
  | .or _ rd _ _ => some rd
  | .and _ rd _ _ => some rd
  | .addi rd _ _ => some rd
  | .xori rd _ _ => some rd
  | .ori rd _ _ => some rd
  | .andi rd _ _ => some rd
  | .lw rd _ _ => some rd
  | .lwXor rd _ _ => some rd
  | .lwOr rd _ _ => some rd
  | .lwAnd rd _ _ => some rd
  | .sw _ _ _ _ => none
  | .beq _ _ _ => none
  | .bne _ _ _ => none
  | .jal _ _ => none
  | .halt => none

end Sys2Proof
end

