-- ==== Sys2Proof/Machine/State.lean ====
section
/-! DEFINITION. The state of CORE as plain data (R10 to R28): registers, `pc`, the five pipeline slots, both stores,
the fault marker, and the launch parameters of the run; `State.reset`. Also the reasons a step can stop. -/

namespace Sys2Proof.Machine

/-! ### Why the machine stops -/

/-- The five fatal errors (`60_exceptions.md` section 2). A step that meets one answers `Outcome.fault` (R160): the
machine stops for good. Safe: the spec names the error and leaves the rest of the state open (R164). -/
inductive Fault where
  /-- `DecodeError(UnknownOpcode)`, raised in ID by a word whose opcode is not in the class table (R161). Safe. -/
  | unknownOpcode
  /-- `DecodeError(UnsupportedBranchCondition)`, raised in ID by a B-class word with another `funct3` (R168, D8). Safe. -/
  | unsupportedBranchCondition
  /-- `ALUControlError(UnresolvedOperation)`, raised in ID by an R-, I- or LoadI-class word that ALU control has no
  row for (R162). Safe. -/
  | unresolvedOperation
  /-- `AddressError(OutOfBounds)`, raised in MEM by a load or store or in IF by a fetch beyond the store (R163). Safe. -/
  | outOfBounds
  /-- `AddressError(Misaligned)`, raised in MEM or IF by an address that is no multiple of 4 (R167, D21). Safe. -/
  | misaligned
  deriving DecidableEq, Repr

/-- Refusals. No step of the machine raises one. -/
inductive Refusal where
  /-- An instruction without a meaning yet, named by its mnemonic; raised by no arm of `exec` as it stands. Safe. -/
  | notModelled (mnemonic : String)
  /-- Launch parameters outside their constraint (R5, U11); raised by `launch` alone. Safe. -/
  | parametersOutOfDomain
  deriving DecidableEq, Repr

/-! ### Stores and registers -/

/-- A store: (address, byte) pairs. Canonical form, `Memory.wf`: addresses strictly rising, no entry equal to
`Config.unlistedByte`. -/
abbrev Memory := List Host.Cell

/-- `x1` .. `x31`; entry `k` is `x(k+1)`. `x0` has no storage (R11). -/
abbrev RegFile := Vector Word 31

/-! ### The decoded record (R70) -/

/-- The record of an R-class instruction. -/
structure RIns where
  funct7 : BitVec 7
  funct3 : BitVec 3
  rd : Reg
  rs1 : Reg
  rs2 : Reg
  aluOp : AluOp
  deriving DecidableEq, Repr

/-- The record of an I- or LoadI-class instruction. -/
structure IIns where
  funct3 : BitVec 3
  rd : Reg
  rs1 : Reg
  imm : Word
  aluOp : AluOp
  deriving DecidableEq, Repr

/-- The record of an S-class instruction. -/
structure SIns where
  funct3 : BitVec 3
  rs1 : Reg
  rs2 : Reg
  imm : Word
  aluOp : AluOp
  deriving DecidableEq, Repr

/-- The record of a B-class instruction; its ALU operation is resolved and never used (R74). -/
structure BIns where
  funct3 : BitVec 3
  rs1 : Reg
  rs2 : Reg
  imm : Word
  aluOp : AluOp
  deriving DecidableEq, Repr

/-- The record of a J-class instruction. -/
structure JIns where
  rd : Reg
  imm : Word
  deriving DecidableEq, Repr

/-- The source's Instruction: a tagged variant, each carrying exactly the fields of its class (R70). -/
inductive Decoded where
  | r (ins : RIns)
  | i (ins : IIns)
  | loadI (ins : IIns)
  | s (ins : SIns)
  | b (ins : BIns)
  | j (ins : JIns)
  | halt
  deriving DecidableEq, Repr

/-! ### Pipeline slots -/

/-- A pipeline slot (R8): `BUBBLE`, `HALTED`, or holding an occupant. Fields that are "don't-care" in an empty slot do
not exist (U12, log 6), and a halted slot holds no instruction (R25(c)). -/
inductive Slot (α : Type) where
  /-- `bubble = 1, halted = 0` -/
  | bubble
  /-- `bubble = 1, halted = 1` -/
  | halted
  /-- `bubble = 0, halted = 0` -/
  | occupied (a : α)
  deriving DecidableEq, Repr

/-- What the ID slot holds (R21): the fetched word, undecoded, and the address it came from. -/
structure FetchLatch where
  word : Word
  pc : Word
  deriving DecidableEq, Repr

/-- What the EX slot holds (R22): the record, the instruction's address, and the register values its class has. -/
inductive ExLatch where
  | r (ins : RIns) (pc rv1 rv2 : Word)
  | i (ins : IIns) (pc rv1 : Word)
  | loadI (ins : IIns) (pc rv1 : Word)
  | s (ins : SIns) (pc rv1 rv2 : Word)
  /-- an inert occupant (R119) -/
  | b (ins : BIns) (pc : Word)
  /-- an inert occupant (R119) -/
  | j (ins : JIns) (pc : Word)
  deriving DecidableEq, Repr

/-- What the MEM slot holds (R23, R116). -/
inductive MemLatch where
  | r (ins : RIns) (pc aluResult storeData : Word)
  | i (ins : IIns) (pc aluResult : Word)
  | loadI (ins : IIns) (pc aluResult : Word)
  | s (ins : SIns) (pc aluResult storeData : Word)
  | b (ins : BIns) (pc : Word)
  | j (ins : JIns) (pc : Word)
  deriving DecidableEq, Repr

/-- What the WB slot holds (R24). -/
inductive WbLatch where
  | r (ins : RIns) (pc wrtData : Word)
  | i (ins : IIns) (pc wrtData : Word)
  | loadI (ins : IIns) (pc wrtData : Word)
  | s (ins : SIns) (pc : Word)
  | b (ins : BIns) (pc : Word)
  | j (ins : JIns) (pc : Word)
  deriving DecidableEq, Repr

/-! ### Launch parameters and the state -/

/-- The launch parameters of a run (R5), fixed for the whole run. IMEM is one of them: no step changes it (R44). -/
structure Params where
  /-- `IMEM_SIZE` in bytes -/
  imemSize : Nat
  /-- `DMEM_SIZE` in bytes -/
  dmemSize : Nat
  /-- `X_INIT[1..31]` -/
  xInit : RegFile
  /-- `IMEM_INIT`, which is IMEM throughout -/
  imem : Memory
  /-- `DMEM_INIT` -/
  dmemInit : Memory
  deriving DecidableEq, Repr

/-- The active state between two cycles (R3, R112). -/
structure State where
  /-- The launch parameters; IMEM stands here (R19). -/
  params : Params
  /-- `x1` .. `x31` (R10). -/
  regs : RegFile
  /-- The fetch address, the content of the IF slot (R14, R20). -/
  pc : Word
  /-- `IF.halted` (R20). -/
  ifHalted : Bool
  /-- The IF/ID latch (R21). -/
  idSlot : Slot FetchLatch
  /-- The ID/EX latch (R22). -/
  exSlot : Slot ExLatch
  /-- The EX/MEM latch (R23). -/
  memSlot : Slot MemLatch
  /-- The MEM/WB latch (R24). -/
  wbSlot : Slot WbLatch
  /-- DMEM (R19). -/
  dmem : Memory
  /-- The fault marker (R26). -/
  fault : Option Fault
  deriving DecidableEq, Repr

/-- The launch state `S_0` of a run with the given parameters (R28, R181). -/
def State.launched (p : Params) : State where
  params := p
  regs := p.xInit
  pc := Config.resetPc
  ifHalted := false
  idSlot := .bubble
  exSlot := .bubble
  memSlot := .bubble
  wbSlot := .bubble
  dmem := p.dmemInit
  fault := none

/-- The parameters of `State.reset`: the largest stores the spec allows, every register and every byte 0.
DESIGN CHOICE, unsafe (log 3, 4, 5): the spec leaves all of them to the launch. -/
def Params.default : Params where
  imemSize := Config.maxStoreSize
  dmemSize := Config.maxStoreSize
  xInit := Vector.replicate 31 0#32
  imem := []
  dmemInit := []

/-- The machine right after reset (R28), with `Params.default`. -/
def State.reset : State := State.launched Params.default

end Sys2Proof.Machine
end

