-- ==== Sys2Proof/Machine/Flags.lean ====
section
/-! DEFINITION. CORE has no condition codes, status flags or predicate registers, and the ALU gives no carry, overflow,
zero or sign output (R16). What stands here is the one comparison the hardware makes: the 32-bit equality in ID that
BEQ and BNE test (R148). -/

namespace Sys2Proof.Machine

/-- The comparator in ID: equality on all 32 bits, no signedness (R148). -/
def regsEqual (v1 v2 : Word) : Bool := decide (v1 = v2)

end Sys2Proof.Machine
end

