-- ==== Sys2Proof/WellFormed.lean ====
section
/-! DEFINITION. Well-formed instructions: an immediate within the range and parity of its format (R54 to R57, R78).
Every other field fills its bits exactly, so it needs no check. -/

namespace Sys2Proof

/-- An immediate that `n` bits hold in two's complement: in [-2^(n-1), 2^(n-1) - 1]. -/
def fitsSigned (n : Nat) (imm : Word) : Bool :=
  decide (-(2 ^ (n - 1) : Int) ≤ imm.toInt) && decide (imm.toInt < (2 ^ (n - 1) : Int))

/-- An immediate with the implicit zero low bit of the B and J formats (R56, R57). -/
def isEven (imm : Word) : Bool := imm.getLsbD 0 == false

/-- The check of one instruction (R54 to R57). -/
def Instr.wellFormed : Instr → Bool
  | .add _ _ _ => true
  | .sub _ _ _ => true
  | .xor _ _ _ _ => true
  | .or _ _ _ _ => true
  | .and _ _ _ _ => true
  | .addi _ _ imm => fitsSigned 12 imm
  | .xori _ _ imm => fitsSigned 12 imm
  | .ori _ _ imm => fitsSigned 12 imm
  | .andi _ _ imm => fitsSigned 12 imm
  | .lw _ _ imm => fitsSigned 12 imm
  | .lwXor _ _ imm => fitsSigned 12 imm
  | .lwOr _ _ imm => fitsSigned 12 imm
  | .lwAnd _ _ imm => fitsSigned 12 imm
  | .sw _ _ _ imm => fitsSigned 12 imm
  | .beq _ _ imm => fitsSigned 13 imm && isEven imm
  | .bne _ _ imm => fitsSigned 13 imm && isEven imm
  | .jal _ imm => fitsSigned 21 imm && isEven imm
  | .halt => true

end Sys2Proof
end

