-- ==== Sys2Proof/Decode.lean ====
section
/-! DEFINITION. The decoder (R51, R52, R54 to R57, R61, R71, R74 to R77), total on any word and on any bytes,
rejecting by name; after it the encoder, written from the same format tables (R53 to R59). -/

namespace Sys2Proof

/-- Why the decoder refuses a word (R61). -/
inductive DecodeError where
  /-- `DecodeError(UnknownOpcode)`: the opcode is not in the class table (R161). -/
  | unknownOpcode
  /-- `ALUControlError(UnresolvedOperation)`: ALU-control resolution has no row (R162). -/
  | unresolvedOperation
  /-- `DecodeError(UnsupportedBranchCondition)`: a B-class `funct3` other than 000 and 001 (R168). -/
  | unsupportedBranchCondition
  deriving DecidableEq, Repr

/-! ### Fields (R51) -/

def opcodeOf (w : Word) : BitVec 7 := w.extractLsb' 0 7
def rdOf (w : Word) : Reg := w.extractLsb' 7 5
def funct3Of (w : Word) : BitVec 3 := w.extractLsb' 12 3
def rs1Of (w : Word) : Reg := w.extractLsb' 15 5
def rs2Of (w : Word) : Reg := w.extractLsb' 20 5
def funct7Of (w : Word) : BitVec 7 := w.extractLsb' 25 7

/-! ### Immediates, sign-extended to 32 bits (R54 to R57) -/

/-- I and LoadI: `sext_12(word[31:20])` (R54). -/
def immI (w : Word) : Word := (w.extractLsb' 20 12).signExtend 32

/-- S: `sext_12({word[31:25], word[11:7]})` (R55). -/
def immS (w : Word) : Word := (w.extractLsb' 25 7 ++ w.extractLsb' 7 5 : BitVec 12).signExtend 32

/-- B: `sext_13({word[31], word[7], word[30:25], word[11:8], 0b0})` (R56). -/
def immB (w : Word) : Word :=
  (w.extractLsb' 31 1 ++ w.extractLsb' 7 1 ++ w.extractLsb' 25 6 ++ w.extractLsb' 8 4 ++ 0b0#1 : BitVec 13).signExtend 32

/-- J: `sext_21({word[31], word[19:12], word[20], word[30:21], 0b0})` (R57). -/
def immJ (w : Word) : Word :=
  (w.extractLsb' 31 1 ++ w.extractLsb' 12 8 ++ w.extractLsb' 20 1 ++ w.extractLsb' 21 10 ++ 0b0#1 : BitVec 21).signExtend 32

/-! ### The class table and ALU-control resolution -/

/-- `OPCODE_CLASS` at its default (R52; the six values besides Halt's are the spec's decision D1, log 7). -/
def opcodeClass : List (BitVec 7 × Cls) :=
  [ (0b0110011#7, .r), (0b0010011#7, .i), (0b0000011#7, .loadI), (0b0100011#7, .s),
    (0b1100011#7, .b), (0b1101111#7, .j), (Config.haltOpcode, .halt) ]

/-- The class of an opcode, if the table has it (R52). -/
def classOf (opcode : BitVec 7) : Option Cls := opcodeClass.lookup opcode

/-- ALU-control resolution of I- and LoadI-class words: the operation is chosen by `funct3` alone (R74). -/
def aluControlI (funct3 : BitVec 3) : Except DecodeError AluOp :=
  if funct3 = 0b000#3 then .ok .add
  else if funct3 = 0b100#3 then .ok .xor
  else if funct3 = 0b110#3 then .ok .or
  else if funct3 = 0b111#3 then .ok .and
  else .error .unresolvedOperation

/-- ALU-control resolution of R-class words, `AluOp = 10` (R74); `funct7` counts only where `funct3 = 000` (R60). -/
def aluControlR (funct3 : BitVec 3) (funct7 : BitVec 7) : Except DecodeError AluOp :=
  if funct3 = 0b000#3 then
    if funct7 = 0b0000000#7 then .ok .add
    else if funct7 = 0b0100000#7 then .ok .subtract
    else .error .unresolvedOperation
  else if funct3 = 0b111#3 then .ok .and
  else if funct3 = 0b110#3 then .ok .or
  else if funct3 = 0b100#3 then .ok .xor
  else .error .unresolvedOperation

/-- `alu_control(class, funct3, funct7)` (R74); `none` for J and Halt, which are not submitted to it (R75). -/
def aluControl (c : Cls) (funct3 : BitVec 3) (funct7 : BitVec 7) : Except DecodeError (Option AluOp) :=
  match c with
  | .r => (aluControlR funct3 funct7).map some
  | .i => (aluControlI funct3).map some
  | .loadI => (aluControlI funct3).map some
  | .s => .ok (some .add)
  | .b => .ok (some .add)
  | .j => .ok none
  | .halt => .ok none

/-! ### The decoder (R71) -/

/-- The R-class row an operation selects (R58). -/
def instrR (op : AluOp) (w : Word) : Instr :=
  match op with
  | .add => .add (rdOf w) (rs1Of w) (rs2Of w)
  | .subtract => .sub (rdOf w) (rs1Of w) (rs2Of w)
  | .xor => .xor (funct7Of w) (rdOf w) (rs1Of w) (rs2Of w)
  | .or => .or (funct7Of w) (rdOf w) (rs1Of w) (rs2Of w)
  | .and => .and (funct7Of w) (rdOf w) (rs1Of w) (rs2Of w)

/-- The I-class row an operation selects (R58); ALU control gives class I no SUBTRACT (R74). -/
def instrI (op : AluOp) (w : Word) : Except DecodeError Instr :=
  match op with
  | .add => .ok (.addi (rdOf w) (rs1Of w) (immI w))
  | .xor => .ok (.xori (rdOf w) (rs1Of w) (immI w))
  | .or => .ok (.ori (rdOf w) (rs1Of w) (immI w))
  | .and => .ok (.andi (rdOf w) (rs1Of w) (immI w))
  | .subtract => .error .unresolvedOperation

/-- The LoadI-class row an operation selects (R58); ALU control gives class LoadI no SUBTRACT (R74). -/
def instrLoadI (op : AluOp) (w : Word) : Except DecodeError Instr :=
  match op with
  | .add => .ok (.lw (rdOf w) (rs1Of w) (immI w))
  | .xor => .ok (.lwXor (rdOf w) (rs1Of w) (immI w))
  | .or => .ok (.lwOr (rdOf w) (rs1Of w) (immI w))
  | .and => .ok (.lwAnd (rdOf w) (rs1Of w) (immI w))
  | .subtract => .error .unresolvedOperation

/-- The B-class row `funct3` selects, checked after ALU control, which cannot fail for class B (R71, R76, R77). -/
def instrB (w : Word) : Except DecodeError Instr :=
  if funct3Of w = 0b000#3 then .ok (.beq (rs1Of w) (rs2Of w) (immB w))
  else if funct3Of w = 0b001#3 then .ok (.bne (rs1Of w) (rs2Of w) (immB w))
  else .error .unsupportedBranchCondition

/-- `decode(word)` in the order of R71: the opcode first; Halt returns at once; then the fields, ALU control, and the
B-class check. -/
def decode (w : Word) : Except DecodeError Instr :=
  match classOf (opcodeOf w) with
  | none => .error .unknownOpcode
  | some .halt => .ok .halt
  | some .r =>
    match aluControlR (funct3Of w) (funct7Of w) with
    | .ok op => .ok (instrR op w)
    | .error e => .error e
  | some .i =>
    match aluControlI (funct3Of w) with
    | .ok op => instrI op w
    | .error e => .error e
  | some .loadI =>
    match aluControlI (funct3Of w) with
    | .ok op => instrLoadI op w
    | .error e => .error e
  | some .s => .ok (.sw (funct3Of w) (rs1Of w) (rs2Of w) (immS w))
  | some .b => instrB w
  | some .j => .ok (.jal (rdOf w) (immJ w))

/-! ### Bytes -/

/-- Four bytes, the one at the lowest address first, as a big-endian word (R33, R50). -/
def wordOfBytes (b0 b1 b2 b3 : Byte) : Word := b0 ++ b1 ++ b2 ++ b3

/-- The byte of a word that stands at offset `k` (0 to 3) of its address: the most significant one at offset 0 (R33). -/
def byteOfWord (w : Word) (k : Nat) : Byte := w.extractLsb' (24 - 8 * k) 8

/-- A word as the hardware stores it, lowest address first (R33). -/
def wordBytes (w : Word) : List Byte := [byteOfWord w 0, byteOfWord w 1, byteOfWord w 2, byteOfWord w 3]

/-- Why bytes are not an instruction. -/
inductive BytesError where
  /-- Fewer than four bytes: no instruction is shorter than a word (R50). -/
  | truncated
  /-- The word the four bytes form is refused by the decoder. -/
  | word (e : DecodeError)
  deriving DecidableEq, Repr

/-- The instruction at the front of a byte string, and the bytes behind it (R50, R71). -/
def decodeBytes : List Byte → Except BytesError (Instr × List Byte)
  | b0 :: b1 :: b2 :: b3 :: rest =>
    match decode (wordOfBytes b0 b1 b2 b3) with
    | .ok i => .ok (i, rest)
    | .error e => .error (.word e)
  | _ => .error .truncated

/-- The 32 bits of an instruction given as a number whose bit 0 is the word's bit 0; bits from `nbits` up are 0. -/
def tableWord (nbits w : Nat) : Word := BitVec.ofNat 32 (w % 2 ^ nbits)

/-- What the decoder reads from an opcode-table word laid out as the hardware stores it. -/
def decodeTableWord (nbits w : Nat) : Option Instr :=
  match decodeBytes (wordBytes (tableWord nbits w)) with
  | .ok (i, _) => some i
  | .error _ => none

/-! ### The encoder (R53 to R59) -/

/-- R format (R53). -/
def encodeR (funct7 : BitVec 7) (rs2 rs1 : Reg) (funct3 : BitVec 3) (rd : Reg) : Word :=
  funct7 ++ rs2 ++ rs1 ++ funct3 ++ rd ++ 0b0110011#7

/-- I format (R54), for class I or LoadI. -/
def encodeI (imm : Word) (rs1 : Reg) (funct3 : BitVec 3) (rd : Reg) (opcode : BitVec 7) : Word :=
  imm.extractLsb' 0 12 ++ rs1 ++ funct3 ++ rd ++ opcode

/-- S format (R55). -/
def encodeS (imm : Word) (rs2 rs1 : Reg) (funct3 : BitVec 3) : Word :=
  imm.extractLsb' 5 7 ++ rs2 ++ rs1 ++ funct3 ++ imm.extractLsb' 0 5 ++ 0b0100011#7

/-- B format (R56). -/
def encodeB (imm : Word) (rs2 rs1 : Reg) (funct3 : BitVec 3) : Word :=
  imm.extractLsb' 12 1 ++ imm.extractLsb' 5 6 ++ rs2 ++ rs1 ++ funct3 ++ imm.extractLsb' 1 4 ++ imm.extractLsb' 11 1
    ++ 0b1100011#7

/-- J format (R57). -/
def encodeJ (imm : Word) (rd : Reg) : Word :=
  imm.extractLsb' 20 1 ++ imm.extractLsb' 1 10 ++ imm.extractLsb' 11 1 ++ imm.extractLsb' 12 8 ++ rd ++ 0b1101111#7

/-- The word of a well-formed instruction. HALT has many words (R59): the encoder gives the canonical one of R150,
all ones (log 13). -/
def encode : Instr → Word
  | .add rd rs1 rs2 => encodeR 0b0000000#7 rs2 rs1 0b000#3 rd
  | .sub rd rs1 rs2 => encodeR 0b0100000#7 rs2 rs1 0b000#3 rd
  | .xor funct7 rd rs1 rs2 => encodeR funct7 rs2 rs1 0b100#3 rd
  | .or funct7 rd rs1 rs2 => encodeR funct7 rs2 rs1 0b110#3 rd
  | .and funct7 rd rs1 rs2 => encodeR funct7 rs2 rs1 0b111#3 rd
  | .addi rd rs1 imm => encodeI imm rs1 0b000#3 rd 0b0010011#7
  | .xori rd rs1 imm => encodeI imm rs1 0b100#3 rd 0b0010011#7
  | .ori rd rs1 imm => encodeI imm rs1 0b110#3 rd 0b0010011#7
  | .andi rd rs1 imm => encodeI imm rs1 0b111#3 rd 0b0010011#7
  | .lw rd rs1 imm => encodeI imm rs1 0b000#3 rd 0b0000011#7
  | .lwXor rd rs1 imm => encodeI imm rs1 0b100#3 rd 0b0000011#7
  | .lwOr rd rs1 imm => encodeI imm rs1 0b110#3 rd 0b0000011#7
  | .lwAnd rd rs1 imm => encodeI imm rs1 0b111#3 rd 0b0000011#7
  | .sw funct3 rs1 rs2 imm => encodeS imm rs2 rs1 funct3
  | .beq rs1 rs2 imm => encodeB imm rs2 rs1 0b000#3
  | .bne rs1 rs2 imm => encodeB imm rs2 rs1 0b001#3
  | .jal rd imm => encodeJ imm rd
  | .halt => 0xFFFFFFFF#32

/-- An instruction's bytes as IMEM holds them (R33, R50). -/
def encodeBytes (i : Instr) : List Byte := wordBytes (encode i)

end Sys2Proof
end

