-- ==== Sys2Proof/Machine/Memory.lean ====
section
/-! DEFINITION. The two stores: bytes, aligned big-endian words, the alignment and bounds check, and the three access
primitives of R35, R36 and R37. -/

namespace Sys2Proof.Machine

/-! ### Bytes -/

/-- The byte at an address. -/
def Memory.read : Memory → Nat → Byte
  | [], _ => Config.unlistedByte
  | (k, b) :: rest, a => if k = a then b else Memory.read rest a

/-- Write one byte, keeping the canonical form: writing what an unlisted address reads as removes the entry. -/
def Memory.write : Memory → Nat → Byte → Memory
  | [], a, v => if v = Config.unlistedByte then [] else [(a, v)]
  | (k, b) :: rest, a, v =>
    if a < k then (if v = Config.unlistedByte then (k, b) :: rest else (a, v) :: (k, b) :: rest)
    else if a = k then (if v = Config.unlistedByte then rest else (a, v) :: rest)
    else (k, b) :: Memory.write rest a v

/-- Every listed address is at least `lo`, the addresses rise strictly, and no entry is the unlisted byte. -/
def Memory.wfFrom : Nat → Memory → Bool
  | _, [] => true
  | lo, (k, b) :: rest => decide (lo ≤ k) && decide (b ≠ Config.unlistedByte) && Memory.wfFrom (k + 1) rest

/-- The canonical form. -/
def Memory.wf (m : Memory) : Bool := Memory.wfFrom 0 m

/-- Every listed address lies inside a store of `size` bytes. -/
def Memory.within (size : Nat) (m : Memory) : Bool := m.all fun c => decide (c.1 < size)

/-- Lay bytes out from an address upwards. -/
def Memory.writeBytes : Memory → Nat → List Byte → Memory
  | m, _, [] => m
  | m, a, b :: rest => Memory.writeBytes (m.write a b) (a + 1) rest

/-- The store an image describes: line `k` is the byte at address `k` (R46). -/
def Memory.ofImage (bytes : List Byte) : Memory := Memory.writeBytes [] 0 bytes

/-! ### Words, big-endian (R33) -/

/-- The word at an address: the byte at the lowest address is the most significant (R33). -/
def Memory.readWord (m : Memory) (a : Nat) : Word :=
  wordOfBytes (m.read a) (m.read (a + 1)) (m.read (a + 2)) (m.read (a + 3))

/-- Store a word, most significant byte at the lowest address (R33, R37). -/
def Memory.writeWord (m : Memory) (a : Nat) (v : Word) : Memory := m.writeBytes a (wordBytes v)

/-! ### Access (R32, R34 to R37) -/

/-- The check of every access: alignment first, then bounds (R32, R34). It answers the byte index. -/
def checkAccess (size : Nat) (a : Word) : Except Fault Nat :=
  if a.extractLsb' 0 2 ≠ 0#2 then .error .misaligned
  else if size ≤ a.toNat + 3 then .error .outOfBounds
  else .ok a.toNat

/-- `IMemRead(a)` (R35). -/
def imemRead (p : Params) (a : Word) : Except Fault Word :=
  match checkAccess p.imemSize a with
  | .ok k => .ok (p.imem.readWord k)
  | .error e => .error e

/-- `MemRead(a, 4)` (R36). -/
def memRead (size : Nat) (dmem : Memory) (a : Word) : Except Fault Word :=
  match checkAccess size a with
  | .ok k => .ok (dmem.readWord k)
  | .error e => .error e

/-- `MemWrite(a, 4, v)` (R37); a faulting write changes no byte. -/
def memWrite (size : Nat) (dmem : Memory) (a : Word) (v : Word) : Except Fault Memory :=
  match checkAccess size a with
  | .ok k => .ok (dmem.writeWord k v)
  | .error e => .error e

/-! ### Launch parameters (R5, R183) -/

/-- A size the spec allows (R5; D22). -/
def sizeAllowed (n : Nat) : Bool :=
  decide (n % 4 = 0) && decide (Config.minStoreSize ≤ n) && decide (n ≤ Config.maxStoreSize)

/-- Parameters inside their constraint (R5, R183(a)): sizes allowed, and images inside their stores, in canonical form. -/
def Params.wf (p : Params) : Bool :=
  sizeAllowed p.imemSize && sizeAllowed p.dmemSize && p.imem.wf && p.dmemInit.wf && p.imem.within p.imemSize
    && p.dmemInit.within p.dmemSize

/-- Start a run (R180, R183): the launch state, or a refusal of parameters outside their constraint (U11). -/
def launch (p : Params) : Host.Outcome State Fault Refusal :=
  if p.wf then .next (State.launched p) else .refused .parametersOutOfDomain

end Sys2Proof.Machine
end

