-- ==== Sys2Proof/Machine/Operands.lean ====
section
/-! DEFINITION. Operands: the register file (R11, R13), the fields of decoded records (R70), the control table (R73),
the forwarding mux array (R132) and the load-use detector (R130). -/

namespace Sys2Proof.Machine

/-! ### Register file (R11) -/

/-- Register `i` other than 0 stands at entry `i - 1`. -/
theorem regIndex_lt (i : Reg) : i.toNat - 1 < 31 := by
  have := i.isLt
  omega

/-- `x[i]`: 0 for register 0. -/
def RegFile.read (x : RegFile) (i : Reg) : Word :=
  if i = 0#5 then 0#32 else x[i.toNat - 1]'(regIndex_lt i)

/-- `x[i] <- v`: nothing for register 0. -/
def RegFile.write (x : RegFile) (i : Reg) (v : Word) : RegFile :=
  if i = 0#5 then x else x.set (i.toNat - 1) v (regIndex_lt i)

/-! ### Decoded records (R70): a field that is not present for the class is `none` -/

def Decoded.cls : Decoded → Cls
  | .r _ => .r
  | .i _ => .i
  | .loadI _ => .loadI
  | .s _ => .s
  | .b _ => .b
  | .j _ => .j
  | .halt => .halt

def Decoded.rd : Decoded → Option Reg
  | .r ins => some ins.rd
  | .i ins => some ins.rd
  | .loadI ins => some ins.rd
  | .s _ => none
  | .b _ => none
  | .j ins => some ins.rd
  | .halt => none

def Decoded.rs1 : Decoded → Option Reg
  | .r ins => some ins.rs1
  | .i ins => some ins.rs1
  | .loadI ins => some ins.rs1
  | .s ins => some ins.rs1
  | .b ins => some ins.rs1
  | .j _ => none
  | .halt => none

def Decoded.rs2 : Decoded → Option Reg
  | .r ins => some ins.rs2
  | .i _ => none
  | .loadI _ => none
  | .s ins => some ins.rs2
  | .b ins => some ins.rs2
  | .j _ => none
  | .halt => none

def ExLatch.ins : ExLatch → Decoded
  | .r ins _ _ _ => .r ins
  | .i ins _ _ => .i ins
  | .loadI ins _ _ => .loadI ins
  | .s ins _ _ _ => .s ins
  | .b ins _ => .b ins
  | .j ins _ => .j ins

def MemLatch.ins : MemLatch → Decoded
  | .r ins _ _ _ => .r ins
  | .i ins _ _ => .i ins
  | .loadI ins _ _ => .loadI ins
  | .s ins _ _ _ => .s ins
  | .b ins _ => .b ins
  | .j ins _ => .j ins

def WbLatch.ins : WbLatch → Decoded
  | .r ins _ _ => .r ins
  | .i ins _ _ => .i ins
  | .loadI ins _ _ => .loadI ins
  | .s ins _ => .s ins
  | .b ins _ => .b ins
  | .j ins _ => .j ins

/-- `alu_result` where the class has one (R23). -/
def MemLatch.aluResult : MemLatch → Option Word
  | .r _ _ v _ => some v
  | .i _ _ v => some v
  | .loadI _ _ v => some v
  | .s _ _ v _ => some v
  | .b _ _ => none
  | .j _ _ => none

/-- `store_data` where the class has one: the forwarded `rs2` of an R- or S-class occupant (R23, R116). -/
def MemLatch.storeData : MemLatch → Option Word
  | .r _ _ _ v => some v
  | .i _ _ _ => none
  | .loadI _ _ _ => none
  | .s _ _ _ v => some v
  | .b _ _ => none
  | .j _ _ => none

/-- `wrt_data` where the class has one (R24). -/
def WbLatch.wrtData : WbLatch → Option Word
  | .r _ _ v => some v
  | .i _ _ v => some v
  | .loadI _ _ v => some v
  | .s _ _ => none
  | .b _ _ => none
  | .j _ _ => none

/-! ### The control table (R73) -/

/-- The Control record of a class. -/
structure Control where
  aluSrc : Bool
  memtoReg : Bool
  regWrite : Bool
  memRead : Bool
  memWrite : Bool
  branch : Bool
  jump : Bool
  aluOp : BitVec 2
  deriving DecidableEq, Repr

/-- `ctrl(class)` (R73). The bits R73 marks `*`, which no rule reads, stand as the table prints them (D3). -/
def ctrl : Cls → Control
  | .r => ⟨false, false, true, false, false, false, false, 0b10#2⟩
  | .i => ⟨true, false, true, false, false, false, false, 0b00#2⟩
  | .loadI => ⟨true, true, true, true, false, false, false, 0b00#2⟩
  | .s => ⟨true, false, false, false, true, false, false, 0b00#2⟩
  | .b => ⟨false, false, false, false, false, true, false, 0b00#2⟩
  | .j => ⟨false, false, false, false, false, false, true, 0b00#2⟩
  | .halt => ⟨false, false, false, false, false, false, false, 0b00#2⟩

/-! ### Forwarding (R132 to R135) -/

/-- `src_match` on an occupant (R132): it writes a register in WB, and that register is `r` and not register 0. -/
def srcMatch (ins : Decoded) (r : Reg) : Bool :=
  (ctrl ins.cls).regWrite && decide (ins.rd = some r) && decide (r ≠ 0#5)

/-- What the MEM slot forwards for register `r`: its ALU result (R133, taken literally for a load: D20, log 11). -/
def forwardMem (s : State) (r : Reg) : Option Word :=
  match s.memSlot with
  | .occupied l => if srcMatch l.ins r then l.aluResult else none
  | .bubble => none
  | .halted => none

/-- What the WB slot forwards for register `r`: its write-data (R134). -/
def forwardWb (s : State) (r : Reg) : Option Word :=
  match s.wbSlot with
  | .occupied l => if srcMatch l.ins r then l.wrtData else none
  | .bubble => none
  | .halted => none

/-- `fwd(S, r, latched)` (R132): MEM first, then WB, else the value latched in ID. -/
def fwd (s : State) (r : Reg) (latched : Word) : Word :=
  match forwardMem s r with
  | some v => v
  | none =>
    match forwardWb s r with
    | some v => v
    | none => latched

/-! ### Load-use detector (R130) -/

/-- `load_use(S, ins)` (R130): the EX occupant reads memory and its `rd`, register 0 included, is a source register
that is present for the class of `ins`. -/
def loadUse (s : State) (ins : Decoded) : Bool :=
  match s.exSlot with
  | .occupied l =>
    (ctrl l.ins.cls).memRead && l.ins.rd.isSome && (decide (ins.rs1 = l.ins.rd) || decide (ins.rs2 = l.ins.rd))
  | .bubble => false
  | .halted => false

/-! ### The instruction in ID (R140) -/

/-- `S.ID.pc`, the address of the instruction in ID (R21, R140). For a state whose ID slot is empty, where no step
runs an instruction, it is the fetch address (log 10). -/
def State.idPc (s : State) : Word :=
  match s.idSlot with
  | .occupied f => f.pc
  | .bubble => s.pc
  | .halted => s.pc

end Sys2Proof.Machine
end

