-- ==== Sys2Proof/Machine/Ops.lean ====
section
/-! DEFINITION. The shared operations: the ALU (R85), raising a fatal error (R160), the five stages (R114 to R120), the
arbitration of the fetch side (R121), and one whole cycle around an ID-stage action (R113, R122). Each instruction's
meaning is one ID-stage action handed to a shared operation of this file, with the record that carries everything the
later stages do with it. -/

namespace Sys2Proof.Machine

/-- What a step or a meaning answers. -/
abbrev Result := Host.Outcome State Fault Refusal

/-! ### The ALU -/

/-- `ALU(op, a, b)` (R85): 32-bit, wrap-around, no flags, no error. -/
def alu (op : AluOp) (a b : Word) : Word :=
  match op with
  | .add => a + b
  | .subtract => a - b
  | .and => a &&& b
  | .or => a ||| b
  | .xor => a ^^^ b

/-! ### Taking an exception

The one abnormal event is a fatal error (R160): no handler, no saved `pc`, no vector, no mode (R171), and no return
(R172). The step answers the fault by name; the clocked machine marks it in `State.fault` (`edge`, log 2). -/

/-- `raise E` (R8, R160): evaluation of the cycle stops and nothing is committed. -/
def raise (e : Fault) : Result := .fault e

/-- The fault a decode error is (R61, R161, R162, R168). -/
def faultOfDecode : DecodeError → Fault
  | .unknownOpcode => .unknownOpcode
  | .unresolvedOperation => .unresolvedOperation
  | .unsupportedBranchCondition => .unsupportedBranchCondition

/-! ### WB (R114) -/

/-- The register file after this cycle's WB stage. -/
def wbStage (s : State) : RegFile :=
  match s.wbSlot with
  | .bubble => s.regs
  | .halted => s.regs
  | .occupied l =>
    match l.ins.rd, l.wrtData with
    | some rd, some v => if (ctrl l.ins.cls).regWrite then s.regs.write rd v else s.regs
    | _, _ => s.regs

/-! ### MEM (R115) -/

/-- What an occupant of MEM does: its data access, and the WB latch it becomes. `MemtoReg` selects here (D17). -/
def memAccess (size : Nat) (dmem : Memory) (l : MemLatch) : Except Fault (WbLatch × Memory) :=
  match l with
  | .loadI ins pc ea =>
    match memRead size dmem ea with
    | .ok w => .ok (.loadI ins pc w, dmem)
    | .error e => .error e
  | .s ins pc ea v =>
    match memWrite size dmem ea v with
    | .ok d => .ok (.s ins pc, d)
    | .error e => .error e
  | .r ins pc v _ => .ok (.r ins pc v, dmem)
  | .i ins pc v => .ok (.i ins pc v, dmem)
  | .b ins pc => .ok (.b ins pc, dmem)
  | .j ins pc => .ok (.j ins pc, dmem)

/-- The next WB slot and DMEM (R115). -/
def memStage (s : State) : Except Fault (Slot WbLatch × Memory) :=
  match s.memSlot with
  | .bubble => .ok (.bubble, s.dmem)
  | .halted => .ok (.halted, s.dmem)
  | .occupied l =>
    match memAccess s.params.dmemSize s.dmem l with
    | .ok (wb, d) => .ok (.occupied wb, d)
    | .error e => .error e

/-! ### EX (R116) -/

/-- What an occupant of EX becomes: forwarding from the active MEM and WB slots, then the ALU. A B or J occupant is
inert (D15); store data goes through the `rs2` forwarding mux (D18). -/
def exAction (s : State) (l : ExLatch) : MemLatch :=
  match l with
  | .r ins pc rv1 rv2 =>
    .r ins pc (alu ins.aluOp (fwd s ins.rs1 rv1) (fwd s ins.rs2 rv2)) (fwd s ins.rs2 rv2)
  | .i ins pc rv1 => .i ins pc (alu ins.aluOp (fwd s ins.rs1 rv1) ins.imm)
  | .loadI ins pc rv1 => .loadI ins pc (alu ins.aluOp (fwd s ins.rs1 rv1) ins.imm)
  | .s ins pc rv1 rv2 => .s ins pc (alu ins.aluOp (fwd s ins.rs1 rv1) ins.imm) (fwd s ins.rs2 rv2)
  | .b ins pc => .b ins pc
  | .j ins pc => .j ins pc

/-- The next MEM slot (R116). -/
def exStage (s : State) : Slot MemLatch :=
  match s.exSlot with
  | .bubble => .bubble
  | .halted => .halted
  | .occupied l => .occupied (exAction s l)

/-! ### ID (R117 to R119, R131) -/

/-- The signals ID sends to IF (R113(c)); at most one of `halt_seen`, `stall`, `redirect` is 1 (R121). -/
inductive FetchCtl where
  | advance
  | stall
  | redirect (target : Word)
  | haltSeen
  deriving DecidableEq, Repr

/-- What the ID stage leaves: the register file (a JAL writes it), the next EX slot, the signals. -/
structure IdOut where
  regs : RegFile
  ex : Slot ExLatch
  ctl : FetchCtl
  deriving DecidableEq, Repr

/-- Cases E and H of R117: the ID slot is empty. -/
def idIdle (ex : Slot ExLatch) (x : RegFile) : IdOut := ⟨x, ex, .advance⟩

/-- Case S of R117 (R131): a bubble goes into EX and no other ID effect happens. -/
def idStall (x : RegFile) : IdOut := ⟨x, .bubble, .stall⟩

/-- An instruction that leaves ID for EX without redirecting (R118, and a branch not taken: R148). -/
def idPass (l : ExLatch) (x : RegFile) : IdOut := ⟨x, .occupied l, .advance⟩

/-- An instruction that leaves ID for EX and redirects fetch (R119, R144, R148). -/
def idRedirect (l : ExLatch) (target : Word) (x : RegFile) : IdOut := ⟨x, .occupied l, .redirect target⟩

/-! ### IF and arbitration (R120, R121) -/

/-- The next fetch side. -/
structure FetchOut where
  pc : Word
  halted : Bool
  idSlot : Slot FetchLatch
  deriving DecidableEq, Repr

/-- R121 for a fetch side that is not halted, with the word fetched in this cycle. -/
def arbitrate (s : State) (ctl : FetchCtl) (w : Word) : FetchOut :=
  match ctl with
  | .haltSeen => ⟨s.pc, true, .halted⟩
  | .stall => ⟨s.pc, false, s.idSlot⟩
  | .redirect target => ⟨target, false, .bubble⟩
  | .advance => ⟨s.pc + 4#32, false, .occupied ⟨w, s.pc⟩⟩

/-- The IF stage and the arbitration: no fetch when halted; else a fetch in every cycle, whose error stands even if its
word is dropped (R35, R120, R121; D23). -/
def ifStage (s : State) (ctl : FetchCtl) : Except Fault FetchOut :=
  if s.ifHalted then .ok ⟨s.pc, true, s.idSlot⟩
  else
    match imemRead s.params s.pc with
    | .ok w => .ok (arbitrate s ctl w)
    | .error e => .error e

/-! ### One cycle (R113, R122) -/

/-- The commit (R112): the buffer set becomes the active set. -/
def commit (s : State) (d : IdOut) (wb : Slot WbLatch) (dmem : Memory) (f : FetchOut) : State :=
  { s with
    regs := d.regs, pc := f.pc, ifHalted := f.halted, idSlot := f.idSlot, exSlot := d.ex, memSlot := exStage s,
    wbSlot := wb, dmem := dmem }

/-- One cycle with the given ID-stage action, which sees the register file after WB's write (R13, R113): WB, MEM, EX,
ID, IF, the first error in that order ending the cycle (R165). -/
def cycle (s : State) (idAction : RegFile → Except Fault IdOut) : Result :=
  match memStage s with
  | .error e => raise e
  | .ok (wb, dmem) =>
    match idAction (wbStage s) with
    | .error e => raise e
    | .ok d =>
      match ifStage s d.ctl with
      | .error e => raise e
      | .ok f => .next (commit s d wb dmem f)

/-- A cycle whose ID slot is empty: cases E and H of R117. -/
def cycleIdle (s : State) (ex : Slot ExLatch) : Result := cycle s fun x => .ok (idIdle ex x)

/-- A cycle whose ID word does not decode (R71, R113(b)). -/
def cycleDecodeError (s : State) (e : DecodeError) : Result := cycle s fun _ => .error (faultOfDecode e)

/-- A cycle whose ID instruction stalls if it depends on the load in EX, and else acts (R117, R130, R131). -/
def cycleUnlessStall (s : State) (ins : Decoded) (act : RegFile → IdOut) : Result :=
  cycle s fun x => .ok (if loadUse s ins then idStall x else act x)

/-! ### The ID-stage actions of the classes -/

/-- Class R in ID: case N of R117 (R118, R86). -/
def issueR (ins : RIns) (s : State) : Result :=
  cycleUnlessStall s (.r ins) fun x => idPass (.r ins s.idPc (x.read ins.rs1) (x.read ins.rs2)) x

/-- Class I in ID: case N of R117 (R118, R86). -/
def issueI (ins : IIns) (s : State) : Result :=
  cycleUnlessStall s (.i ins) fun x => idPass (.i ins s.idPc (x.read ins.rs1)) x

/-- Class LoadI in ID: case N of R117 (R118, R100). -/
def issueLoadI (ins : IIns) (s : State) : Result :=
  cycleUnlessStall s (.loadI ins) fun x => idPass (.loadI ins s.idPc (x.read ins.rs1)) x

/-- Class S in ID: case N of R117 (R118, R106). -/
def issueS (ins : SIns) (s : State) : Result :=
  cycleUnlessStall s (.s ins) fun x => idPass (.s ins s.idPc (x.read ins.rs1) (x.read ins.rs2)) x

/-- The value a branch compares (R139, R148): `BRANCH_OPERANDS` has the one value `regfile` (D36). -/
def branchOperand (x : RegFile) (r : Reg) : Word :=
  match Config.branchOperands with
  | .regfile => x.read r

/-- Class B in ID: case B of R117 (R148), with the condition on the comparator's answer; the target is relative to the
branch's own address, modulo 2^32 (R140). -/
def branch (ins : BIns) (taken : Bool → Bool) (s : State) : Result :=
  cycleUnlessStall s (.b ins) fun x =>
    if taken (regsEqual (branchOperand x ins.rs1) (branchOperand x ins.rs2)) then
      idRedirect (.b ins s.idPc) (s.idPc + ins.imm) x
    else idPass (.b ins s.idPc) x

/-- Class J in ID: case J of R117 (R144): the link is written after this cycle's WB write (R13), fetch is redirected. -/
def jump (ins : JIns) (s : State) : Result :=
  cycle s fun x => .ok (idRedirect (.j ins s.idPc) (s.idPc + ins.imm) (x.write ins.rd (s.idPc + 4#32)))

/-- Class Halt in ID: case T of R117 (R150): consumed in ID, EX gets a bubble. The occupant of EX in that cycle `t`
therefore writes in WB in cycle `t + 2`, and a bubble is in WB in cycle `t + 3`: log 19, where R153 says otherwise. -/
def haltAction (s : State) : Result := cycle s fun x => .ok ⟨x, .bubble, .haltSeen⟩

end Sys2Proof.Machine
end

