-- ==== Sys2Proof/Machine/Arith.lean ====
section
/-! DEFINITION. Class R and class I (`41_alu_arith.md`): each meaning hands its decoded record to the shared ID-stage
action; the record's `aluOp` is what EX computes with the forwarded operands (R86), and WB writes `x[rd]`. -/

namespace Sys2Proof.Machine

/-- ADD (R87). -/
def execAdd (rd rs1 rs2 : Reg) (s : State) : Result :=
  issueR { funct7 := 0b0000000#7, funct3 := 0b000#3, rd := rd, rs1 := rs1, rs2 := rs2, aluOp := .add } s

/-- SUB (R88). -/
def execSub (rd rs1 rs2 : Reg) (s : State) : Result :=
  issueR { funct7 := 0b0100000#7, funct3 := 0b000#3, rd := rd, rs1 := rs1, rs2 := rs2, aluOp := .subtract } s

/-- XOR (R89). -/
def execXor (funct7 : BitVec 7) (rd rs1 rs2 : Reg) (s : State) : Result :=
  issueR { funct7 := funct7, funct3 := 0b100#3, rd := rd, rs1 := rs1, rs2 := rs2, aluOp := .xor } s

/-- OR (R90). -/
def execOr (funct7 : BitVec 7) (rd rs1 rs2 : Reg) (s : State) : Result :=
  issueR { funct7 := funct7, funct3 := 0b110#3, rd := rd, rs1 := rs1, rs2 := rs2, aluOp := .or } s

/-- AND (R91). -/
def execAnd (funct7 : BitVec 7) (rd rs1 rs2 : Reg) (s : State) : Result :=
  issueR { funct7 := funct7, funct3 := 0b111#3, rd := rd, rs1 := rs1, rs2 := rs2, aluOp := .and } s

/-- ADDI (R92). -/
def execAddi (rd rs1 : Reg) (imm : Word) (s : State) : Result :=
  issueI { funct3 := 0b000#3, rd := rd, rs1 := rs1, imm := imm, aluOp := .add } s

/-- XORI (R93). -/
def execXori (rd rs1 : Reg) (imm : Word) (s : State) : Result :=
  issueI { funct3 := 0b100#3, rd := rd, rs1 := rs1, imm := imm, aluOp := .xor } s

/-- ORI (R94). -/
def execOri (rd rs1 : Reg) (imm : Word) (s : State) : Result :=
  issueI { funct3 := 0b110#3, rd := rd, rs1 := rs1, imm := imm, aluOp := .or } s

/-- ANDI (R95). -/
def execAndi (rd rs1 : Reg) (imm : Word) (s : State) : Result :=
  issueI { funct3 := 0b111#3, rd := rd, rs1 := rs1, imm := imm, aluOp := .and } s

end Sys2Proof.Machine
end

