-- ==== Sys2Proof/Machine/Control.lean ====
section
/-! DEFINITION. Branches, the jump and HALT (`45_control_transfer.md`, `46_halt.md`): all their work is in ID. -/

namespace Sys2Proof.Machine

/-- BEQ (R141, R148): taken if the two register values are equal. -/
def execBeq (rs1 rs2 : Reg) (imm : Word) (s : State) : Result :=
  branch { funct3 := 0b000#3, rs1 := rs1, rs2 := rs2, imm := imm, aluOp := .add } (fun eq => eq) s

/-- BNE (R142, R148): taken if they differ. -/
def execBne (rs1 rs2 : Reg) (imm : Word) (s : State) : Result :=
  branch { funct3 := 0b001#3, rs1 := rs1, rs2 := rs2, imm := imm, aluOp := .add } (fun eq => !eq) s

/-- JAL (R144). -/
def execJal (rd : Reg) (imm : Word) (s : State) : Result := jump { rd := rd, imm := imm } s

/-- HALT (R150). -/
def execHalt (s : State) : Result := haltAction s

end Sys2Proof.Machine
end

