-- ==== Sys2Proof/Machine/LoadStore.lean ====
section
/-! DEFINITION. Class LoadI and class S (`42_load_store.md`): one addressing mode, base register and immediate, computed
by the ALU in EX with the record's `aluOp` (R108); the access is in MEM (R115), a load's write in WB. -/

namespace Sys2Proof.Machine

/-- LW (R101): the effective address is the sum. -/
def execLw (rd rs1 : Reg) (imm : Word) (s : State) : Result :=
  issueLoadI { funct3 := 0b000#3, rd := rd, rs1 := rs1, imm := imm, aluOp := .add } s

/-- LW.XOR (R102). -/
def execLwXor (rd rs1 : Reg) (imm : Word) (s : State) : Result :=
  issueLoadI { funct3 := 0b100#3, rd := rd, rs1 := rs1, imm := imm, aluOp := .xor } s

/-- LW.OR (R103). -/
def execLwOr (rd rs1 : Reg) (imm : Word) (s : State) : Result :=
  issueLoadI { funct3 := 0b110#3, rd := rd, rs1 := rs1, imm := imm, aluOp := .or } s

/-- LW.AND (R104). -/
def execLwAnd (rd rs1 : Reg) (imm : Word) (s : State) : Result :=
  issueLoadI { funct3 := 0b111#3, rd := rd, rs1 := rs1, imm := imm, aluOp := .and } s

/-- SW (R105); every `funct3` stores a full word (R60). -/
def execSw (funct3 : BitVec 3) (rs1 rs2 : Reg) (imm : Word) (s : State) : Result :=
  issueS { funct3 := funct3, rs1 := rs1, rs2 := rs2, imm := imm, aluOp := .add } s

end Sys2Proof.Machine
end

