-- ==== Sys2Proof/Machine/Dispatch.lean ====
section
/-! DEFINITION. `exec i s`: the cycle in which `i` is the instruction in ID, one arm per constructor (R117, log 1). -/

namespace Sys2Proof.Machine

def exec (i : Instr) (s : State) : Host.Outcome State Fault Refusal :=
  match i with
  | .add rd rs1 rs2 => Sys2Proof.Machine.execAdd rd rs1 rs2 s
  | .sub rd rs1 rs2 => Sys2Proof.Machine.execSub rd rs1 rs2 s
  | .xor funct7 rd rs1 rs2 => Sys2Proof.Machine.execXor funct7 rd rs1 rs2 s
  | .or funct7 rd rs1 rs2 => Sys2Proof.Machine.execOr funct7 rd rs1 rs2 s
  | .and funct7 rd rs1 rs2 => Sys2Proof.Machine.execAnd funct7 rd rs1 rs2 s
  | .addi rd rs1 imm => Sys2Proof.Machine.execAddi rd rs1 imm s
  | .xori rd rs1 imm => Sys2Proof.Machine.execXori rd rs1 imm s
  | .ori rd rs1 imm => Sys2Proof.Machine.execOri rd rs1 imm s
  | .andi rd rs1 imm => Sys2Proof.Machine.execAndi rd rs1 imm s
  | .lw rd rs1 imm => Sys2Proof.Machine.execLw rd rs1 imm s
  | .lwXor rd rs1 imm => Sys2Proof.Machine.execLwXor rd rs1 imm s
  | .lwOr rd rs1 imm => Sys2Proof.Machine.execLwOr rd rs1 imm s
  | .lwAnd rd rs1 imm => Sys2Proof.Machine.execLwAnd rd rs1 imm s
  | .sw funct3 rs1 rs2 imm => Sys2Proof.Machine.execSw funct3 rs1 rs2 imm s
  | .beq rs1 rs2 imm => Sys2Proof.Machine.execBeq rs1 rs2 imm s
  | .bne rs1 rs2 imm => Sys2Proof.Machine.execBne rs1 rs2 imm s
  | .jal rd imm => Sys2Proof.Machine.execJal rd imm s
  | .halt => Sys2Proof.Machine.execHalt s

end Sys2Proof.Machine
end

