-- ==== Sys2Proof/Machine/Run.lean ====
section
/-! DEFINITION. One cycle of a machine that has not faulted (R117, R122): what the ID slot holds decides the ID-stage
action, and a word is decoded exactly when it is the ID occupant (R72). -/

namespace Sys2Proof.Machine

/-- `step` past its fault test (R117, R122). -/
def stepRunning (s : State) : Result :=
  match s.idSlot with
  | .halted => cycleIdle s .halted
  | .bubble => cycleIdle s .bubble
  | .occupied f =>
    match decode f.word with
    | .ok i => exec i s
    | .error e => cycleDecodeError s e

/-- The state one undisturbed fetch cycle after the word `w` has been put at the fetch address: the word stands in IMEM
at `pc` (R33) and, with its address, in the ID slot; `pc` has advanced (R121, last row). Nothing stops the machine. -/
def presentWord (s : State) (w : Word) : State :=
  { s with
    params := { s.params with imem := s.params.imem.writeWord s.pc.toNat w }
    pc := s.pc + 4#32
    ifHalted := false
    idSlot := .occupied ⟨w, s.pc⟩
    fault := none }

end Sys2Proof.Machine
end

