-- ==== Sys2Proof/Machine/Step.lean ====
section
/-! DEFINITION. `step`: one clock cycle (R9, R122); and how an instruction word is put before it. -/

namespace Sys2Proof.Machine

/-- `step(S)` (R122): a faulted machine stays as it is (R160); else one cycle. -/
def step (s : State) : Host.Outcome State Fault Refusal :=
  match s.fault with
  | some _ => .next s
  | none => stepRunning s

/-- `s` with an opcode-table word where the very next step takes its instruction from: the ID slot, which a fetch cycle
fills from IMEM at `pc` (log 9). -/
def State.withFetchWord (s : State) (nbits w : Nat) : State := presentWord s (tableWord nbits w)

end Sys2Proof.Machine
end

