-- ==== Sys2Proof/Machine/Clock.lean ====
section
/-! DEFINITION. The clocked machine: one rising edge as a total function on states (R27, R160, R164, R180). `step`
answers a fault by name and says nothing of the state behind it; here the fault marker is set, and everything the spec
leaves unspecified after a fault comes from an argument nothing constrains (R164, U9, log 2). -/

namespace Sys2Proof.Machine

/-- What R164 leaves unspecified after a fault: registers 1 to 31, DMEM, `pc`, the slots. -/
structure Residue where
  regs : RegFile
  pc : Word
  ifHalted : Bool
  idSlot : Slot FetchLatch
  exSlot : Slot ExLatch
  memSlot : Slot MemLatch
  wbSlot : Slot WbLatch
  dmem : Memory
  deriving DecidableEq, Repr

/-- The state after a fatal error (R160, R164): the marker is set, IMEM and the other launch parameters stay, the rest
is arbitrary. -/
def State.faulted (s : State) (e : Fault) (rest : Residue) : State where
  params := s.params
  regs := rest.regs
  pc := rest.pc
  ifHalted := rest.ifHalted
  idSlot := rest.idSlot
  exSlot := rest.exSlot
  memSlot := rest.memSlot
  wbSlot := rest.wbSlot
  dmem := rest.dmem
  fault := some e

/-- The registers a literal reading of R122 leaves when the cycle from `s` faults (R164, "for reference"): WB has
written, since it precedes every raising stage; a JAL in ID has written its link if the cycle got as far as IF. -/
def State.literalRegs (s : State) : RegFile :=
  match memStage s, s.idSlot with
  | .ok _, .occupied f =>
    match decode f.word with
    | .ok (.jal rd _) => (wbStage s).write rd (f.pc + 4#32)
    | _ => wbStage s
  | _, _ => wbStage s

/-- The DMEM a literal reading of R122 leaves when the cycle from `s` faults (R164): after a fault in ID or IF the
MEM-stage store is done, after a fault in MEM nothing is. -/
def State.literalDmem (s : State) : Memory :=
  match memStage s with
  | .ok (_, d) => d
  | .error _ => s.dmem

/-- What a literal reading of R122 leaves (R164): nothing is committed to the slots or `pc`. -/
def State.literalResidue (s : State) : Residue where
  regs := s.literalRegs
  pc := s.pc
  ifHalted := s.ifHalted
  idSlot := s.idSlot
  exSlot := s.exSlot
  memSlot := s.memSlot
  wbSlot := s.wbSlot
  dmem := s.literalDmem

/-- One rising edge of `clk` (R27, R180): with `rst = 1` the launch state of the run, whatever the state was, the halted
and faulted ones included; with `rst = 0` a step. -/
def edge (rst : Bool) (rest : Residue) (s : State) : State :=
  if rst then State.launched s.params
  else
    match step s with
    | .next t => t
    | .fault e => s.faulted e rest
    | .refused _ => s

/-- `n` edges with `rst = 0`, the k-th taking its unspecified values from `rests k`. -/
def edges (rests : Nat → Residue) : Nat → State → State
  | 0, s => s
  | n + 1, s => edge false (rests n) (edges rests n s)

end Sys2Proof.Machine
end

