-- ==== Sys2Proof/Machine/Outputs.lean ====
section
/-! DEFINITION. What CORE shows outside: `halted_out` and `fault_out` (R26), the abstract ports (R27), the snapshot
(R29). All are functions of the active state and change nothing. A port that is not valid, and a slot field that is
don't-care or unspecified, is absent. -/

namespace Sys2Proof.Machine

/-- `halted = 1` of a slot. -/
def Slot.isHalted {α : Type} : Slot α → Bool
  | .halted => true
  | .bubble => false
  | .occupied _ => false

/-- `bubble = 1` of a slot; a halted slot is a bubble too (R25(c)). -/
def Slot.isBubble {α : Type} : Slot α → Bool
  | .halted => true
  | .bubble => true
  | .occupied _ => false

/-- The IF slot's `bubble` flag: hard-wired to its `halted` flag (R20). -/
def State.ifBubble (s : State) : Bool := s.ifHalted

/-- `halted_out` (R26, R154). -/
def State.haltedOut (s : State) : Bool :=
  s.ifHalted && s.idSlot.isHalted && s.exSlot.isHalted && s.memSlot.isHalted && s.wbSlot.isHalted

/-- `fault_out` (R26). -/
def State.faultOut (s : State) : Option Fault := s.fault

/-- The abstract port values of R27. -/
structure Ports where
  /-- `imem_addr`, valid when `S.IF.halted = 0` -/
  imemAddr : Option Word
  /-- `imem_rdata`, `IMemRead(imem_addr)` or an address error -/
  imemRdata : Option (Except Fault Word)
  /-- `dmem_addr`, valid when `dmem_re` or `dmem_we` -/
  dmemAddr : Option Word
  dmemRe : Bool
  dmemWe : Bool
  /-- `dmem_wdata`, the MEM occupant's `store_data`, in every cycle in which it is defined -/
  dmemWdata : Option Word
  /-- `dmem_rdata`, `MemRead(dmem_addr, 4)` or an address error, whenever `dmem_addr` is valid -/
  dmemRdata : Option (Except Fault Word)

/-- The MEM slot at the data port: `dmem_re`, `dmem_we`, `dmem_addr`, valid when one of the two is 1, and `dmem_wdata`,
which has no such condition (R27): it is there whenever `store_data` is defined (R116). -/
def memPort : Slot MemLatch → Bool × Bool × Option Word × Option Word
  | .occupied l =>
    let c := ctrl l.ins.cls
    (c.memRead, c.memWrite, if c.memRead || c.memWrite then l.aluResult else none, l.storeData)
  | .bubble => (false, false, none, none)
  | .halted => (false, false, none, none)

/-- The ports in one cycle (R27). `dmem_rdata` is combinational: it is the active DMEM's word, in a store cycle the one
the store is about to overwrite. -/
def State.ports (s : State) : Ports :=
  let (re, we, addr, wdata) := memPort s.memSlot
  { imemAddr := if s.ifHalted then none else some s.pc
    imemRdata := if s.ifHalted then none else some (imemRead s.params s.pc)
    dmemAddr := addr
    dmemRe := re
    dmemWe := we
    dmemWdata := wdata
    dmemRdata := addr.map (memRead s.params.dmemSize s.dmem) }

/-- The snapshot after a completed cycle (R29): the five active slots and `x[0..31]`. -/
structure Snapshot where
  pc : Word
  ifHalted : Bool
  ifBubble : Bool
  idSlot : Slot FetchLatch
  exSlot : Slot ExLatch
  memSlot : Slot MemLatch
  wbSlot : Slot WbLatch
  regs : Vector Word 32
  deriving DecidableEq, Repr

/-- The snapshot of a state (R29). -/
def State.snapshot (s : State) : Snapshot where
  pc := s.pc
  ifHalted := s.ifHalted
  ifBubble := s.ifBubble
  idSlot := s.idSlot
  exSlot := s.exSlot
  memSlot := s.memSlot
  wbSlot := s.wbSlot
  regs := Vector.ofFn fun i => s.regs.read (BitVec.ofNat 5 i.val)

end Sys2Proof.Machine
end

