-- ==== Sys2Proof/Machine/Seq.lean ====
section
/-! DEFINITION. The sequential reference semantics `seq` (R194): one instruction at a time over `x`, `pc` and DMEM, each
instruction's sequential effect a definition of its own. The pipeline is `step`; `seq` is what R188 compares it with. -/

namespace Sys2Proof.Machine

/-- The state of `seq` (R194), with the launch parameters of its run. -/
structure SeqState where
  params : Params
  regs : RegFile
  pc : Word
  dmem : Memory
  deriving DecidableEq, Repr

/-- What one step of `seq` comes to: a next state, the end of the run at a HALT, or an error at the instruction that
causes it (R194). -/
inductive SeqOutcome where
  | next (q : SeqState)
  | ended (q : SeqState)
  | error (e : Fault)
  deriving DecidableEq, Repr

/-- The launch state of a run of `seq` (R188: "from the launch state"). -/
def SeqState.launched (p : Params) : SeqState where
  params := p
  regs := p.xInit
  pc := Config.resetPc
  dmem := p.dmemInit

/-- `x[rd] <- v`, `pc` advances by 4. -/
def seqWrite (rd : Reg) (v : Word) (q : SeqState) : SeqOutcome :=
  .next { q with regs := q.regs.write rd v, pc := q.pc + 4#32 }

/-- `x[rd] <- MemRead(ea, 4)`, `pc` advances by 4. -/
def seqLoad (rd : Reg) (ea : Word) (q : SeqState) : SeqOutcome :=
  match memRead q.params.dmemSize q.dmem ea with
  | .ok w => seqWrite rd w q
  | .error e => .error e

/-- `MemWrite(ea, 4, v)`, `pc` advances by 4. -/
def seqStore (ea v : Word) (q : SeqState) : SeqOutcome :=
  match memWrite q.params.dmemSize q.dmem ea v with
  | .ok d => .next { q with dmem := d, pc := q.pc + 4#32 }
  | .error e => .error e

/-- `pc <- pc + imm` if taken, else `pc <- pc + 4`. -/
def seqBranch (taken : Bool) (imm : Word) (q : SeqState) : SeqOutcome :=
  .next { q with pc := if taken then q.pc + imm else q.pc + 4#32 }

/-- R87 -/
def seqAdd (rd rs1 rs2 : Reg) (q : SeqState) : SeqOutcome := seqWrite rd (alu .add (q.regs.read rs1) (q.regs.read rs2)) q
/-- R88 -/
def seqSub (rd rs1 rs2 : Reg) (q : SeqState) : SeqOutcome :=
  seqWrite rd (alu .subtract (q.regs.read rs1) (q.regs.read rs2)) q
/-- R89 -/
def seqXor (rd rs1 rs2 : Reg) (q : SeqState) : SeqOutcome := seqWrite rd (alu .xor (q.regs.read rs1) (q.regs.read rs2)) q
/-- R90 -/
def seqOr (rd rs1 rs2 : Reg) (q : SeqState) : SeqOutcome := seqWrite rd (alu .or (q.regs.read rs1) (q.regs.read rs2)) q
/-- R91 -/
def seqAnd (rd rs1 rs2 : Reg) (q : SeqState) : SeqOutcome := seqWrite rd (alu .and (q.regs.read rs1) (q.regs.read rs2)) q
/-- R92 -/
def seqAddi (rd rs1 : Reg) (imm : Word) (q : SeqState) : SeqOutcome := seqWrite rd (alu .add (q.regs.read rs1) imm) q
/-- R93 -/
def seqXori (rd rs1 : Reg) (imm : Word) (q : SeqState) : SeqOutcome := seqWrite rd (alu .xor (q.regs.read rs1) imm) q
/-- R94 -/
def seqOri (rd rs1 : Reg) (imm : Word) (q : SeqState) : SeqOutcome := seqWrite rd (alu .or (q.regs.read rs1) imm) q
/-- R95 -/
def seqAndi (rd rs1 : Reg) (imm : Word) (q : SeqState) : SeqOutcome := seqWrite rd (alu .and (q.regs.read rs1) imm) q
/-- R101 -/
def seqLw (rd rs1 : Reg) (imm : Word) (q : SeqState) : SeqOutcome := seqLoad rd (alu .add (q.regs.read rs1) imm) q
/-- R102 -/
def seqLwXor (rd rs1 : Reg) (imm : Word) (q : SeqState) : SeqOutcome := seqLoad rd (alu .xor (q.regs.read rs1) imm) q
/-- R103 -/
def seqLwOr (rd rs1 : Reg) (imm : Word) (q : SeqState) : SeqOutcome := seqLoad rd (alu .or (q.regs.read rs1) imm) q
/-- R104 -/
def seqLwAnd (rd rs1 : Reg) (imm : Word) (q : SeqState) : SeqOutcome := seqLoad rd (alu .and (q.regs.read rs1) imm) q
/-- R105 -/
def seqSw (rs1 rs2 : Reg) (imm : Word) (q : SeqState) : SeqOutcome :=
  seqStore (alu .add (q.regs.read rs1) imm) (q.regs.read rs2) q
/-- R141 -/
def seqBeq (rs1 rs2 : Reg) (imm : Word) (q : SeqState) : SeqOutcome :=
  seqBranch (regsEqual (q.regs.read rs1) (q.regs.read rs2)) imm q
/-- R142 -/
def seqBne (rs1 rs2 : Reg) (imm : Word) (q : SeqState) : SeqOutcome :=
  seqBranch (!regsEqual (q.regs.read rs1) (q.regs.read rs2)) imm q
/-- R144 -/
def seqJal (rd : Reg) (imm : Word) (q : SeqState) : SeqOutcome :=
  .next { q with regs := q.regs.write rd (q.pc + 4#32), pc := q.pc + imm }
/-- R150: execution stops, nothing changes. -/
def seqHalt (q : SeqState) : SeqOutcome := .ended q

/-- The sequential effect of an instruction (R194). -/
def seqExec (i : Instr) (q : SeqState) : SeqOutcome :=
  match i with
  | .add rd rs1 rs2 => seqAdd rd rs1 rs2 q
  | .sub rd rs1 rs2 => seqSub rd rs1 rs2 q
  | .xor _ rd rs1 rs2 => seqXor rd rs1 rs2 q
  | .or _ rd rs1 rs2 => seqOr rd rs1 rs2 q
  | .and _ rd rs1 rs2 => seqAnd rd rs1 rs2 q
  | .addi rd rs1 imm => seqAddi rd rs1 imm q
  | .xori rd rs1 imm => seqXori rd rs1 imm q
  | .ori rd rs1 imm => seqOri rd rs1 imm q
  | .andi rd rs1 imm => seqAndi rd rs1 imm q
  | .lw rd rs1 imm => seqLw rd rs1 imm q
  | .lwXor rd rs1 imm => seqLwXor rd rs1 imm q
  | .lwOr rd rs1 imm => seqLwOr rd rs1 imm q
  | .lwAnd rd rs1 imm => seqLwAnd rd rs1 imm q
  | .sw _ rs1 rs2 imm => seqSw rs1 rs2 imm q
  | .beq rs1 rs2 imm => seqBeq rs1 rs2 imm q
  | .bne rs1 rs2 imm => seqBne rs1 rs2 imm q
  | .jal rd imm => seqJal rd imm q
  | .halt => seqHalt q

/-- What `seq` fetches and decodes at its `pc` (R194). -/
def seqFetch (q : SeqState) : Except Fault Instr :=
  match imemRead q.params q.pc with
  | .error e => .error e
  | .ok w =>
    match decode w with
    | .ok i => .ok i
    | .error e => .error (faultOfDecode e)

/-- One step of `seq` (R194). -/
def seqStep (q : SeqState) : SeqOutcome :=
  match seqFetch q with
  | .ok i => seqExec i q
  | .error e => .error e

end Sys2Proof.Machine
end

