-- ==== Sys2Proof/Safety.lean ====
section
/-! DEFINITION. What claims are written in: the invariants of a run (R25, R136 and the model's own data forms), the
conditions under which a cycle does not fault, what the instruction in ID does in a cycle, and the hazard conditions of
R188. -/

namespace Sys2Proof.Machine

/-! ### Invariants -/

/-- R25(d): the halted flags form a chain behind the last instruction. -/
def State.haltChain (s : State) : Bool :=
  (s.idSlot.isHalted == s.ifHalted) && (!s.exSlot.isHalted || s.idSlot.isHalted)
    && (!s.memSlot.isHalted || s.exSlot.isHalted) && (!s.wbSlot.isHalted || s.memSlot.isHalted)

/-- A decoded record that a word can decode to: its ALU operation is the one ALU control gives (R74), a branch has one of
the two conditions (R76), an immediate is in the range of its format (R54 to R57). -/
def Decoded.legal : Decoded → Bool
  | .r ins => match aluControlR ins.funct3 ins.funct7 with
    | .ok op => decide (op = ins.aluOp)
    | .error _ => false
  | .i ins => (match aluControlI ins.funct3 with
    | .ok op => decide (op = ins.aluOp)
    | .error _ => false) && fitsSigned 12 ins.imm
  | .loadI ins => (match aluControlI ins.funct3 with
    | .ok op => decide (op = ins.aluOp)
    | .error _ => false) && fitsSigned 12 ins.imm
  | .s ins => decide (ins.aluOp = .add) && fitsSigned 12 ins.imm
  | .b ins =>
    decide (ins.aluOp = .add) && (decide (ins.funct3 = 0b000#3) || decide (ins.funct3 = 0b001#3)) && fitsSigned 13 ins.imm
      && isEven ins.imm
  | .j ins => fitsSigned 21 ins.imm && isEven ins.imm
  | .halt => true

def ExLatch.pc : ExLatch → Word
  | .r _ pc _ _ => pc
  | .i _ pc _ => pc
  | .loadI _ pc _ => pc
  | .s _ pc _ _ => pc
  | .b _ pc => pc
  | .j _ pc => pc

def MemLatch.pc : MemLatch → Word
  | .r _ pc _ _ => pc
  | .i _ pc _ => pc
  | .loadI _ pc _ => pc
  | .s _ pc _ _ => pc
  | .b _ pc => pc
  | .j _ pc => pc

def WbLatch.pc : WbLatch → Word
  | .r _ pc _ => pc
  | .i _ pc _ => pc
  | .loadI _ pc _ => pc
  | .s _ pc => pc
  | .b _ pc => pc
  | .j _ pc => pc

/-- A property of a slot's occupant, true of an empty slot. -/
def Slot.all {α : Type} (slot : Slot α) (p : α → Bool) : Bool :=
  match slot with
  | .occupied a => p a
  | .bubble => true
  | .halted => true

/-- An instruction address: a multiple of 4 whose word lies in IMEM. -/
def isFetchable (p : Params) (a : Word) : Bool := decide (a.toNat % 4 = 0) && decide (a.toNat + 3 < p.imemSize)

/-- R136: no occupant of EX has as a source the destination of a load in MEM. -/
def State.loadsSeparated (s : State) : Bool :=
  match s.memSlot, s.exSlot with
  | .occupied (.loadI ins _ _), .occupied l => decide (l.ins.rs1 ≠ some ins.rd) && decide (l.ins.rs2 ≠ some ins.rd)
  | _, _ => true

/-- The invariant of a run that has not faulted. -/
structure State.Inv (s : State) : Prop where
  /-- The machine has not faulted (R26). -/
  running : s.fault = none
  /-- Sizes and images are in their domain (R5, R183). -/
  parameters : s.params.wf = true
  /-- DMEM is in canonical form. -/
  dmemCanonical : s.dmem.wf = true
  /-- DMEM lists no byte outside the store. -/
  dmemInside : s.dmem.within s.params.dmemSize = true
  /-- R25(d). -/
  halts : s.haltChain = true
  /-- The fetch address is even: offsets have an implicit zero low bit (R145). -/
  pcEven : isEven s.pc = true
  /-- The ID slot holds the IMEM word at its address, which was fetched without error (R21). -/
  idFetched : s.idSlot.all (fun f => isFetchable s.params f.pc && decide (f.word = s.params.imem.readWord f.pc.toNat)) = true
  /-- The later slots carry the address their instruction was fetched from (R22 to R24). -/
  addresses : (s.exSlot.all (fun l => isFetchable s.params l.pc) && s.memSlot.all (fun l => isFetchable s.params l.pc)
    && s.wbSlot.all (fun l => isFetchable s.params l.pc)) = true
  /-- The later slots hold records a word decodes to (R70, R74). -/
  records : (s.exSlot.all (fun l => l.ins.legal) && s.memSlot.all (fun l => l.ins.legal)
    && s.wbSlot.all (fun l => l.ins.legal)) = true
  /-- R136. -/
  loads : s.loadsSeparated = true

/-! ### When a cycle does not fault -/

/-- A word access at `a` in a store of `size` bytes succeeds (R32, R34). -/
def accessible (size : Nat) (a : Word) : Bool := decide (a.toNat % 4 = 0) && decide (a.toNat + 3 < size)

/-- The data access of an occupant of MEM, if its class makes one, succeeds (R115). -/
def MemLatch.accessOk (size : Nat) : MemLatch → Bool
  | .loadI _ _ ea => accessible size ea
  | .s _ _ ea _ => accessible size ea
  | .r _ _ _ _ => true
  | .i _ _ _ => true
  | .b _ _ => true
  | .j _ _ => true

/-- No data access faults in this cycle. -/
def State.dataOk (s : State) : Bool := s.memSlot.all (MemLatch.accessOk s.params.dmemSize)

/-- The access that the occupant of EX will make in the next cycle succeeds. -/
def State.exDataOk (s : State) : Bool := (exStage s).all (MemLatch.accessOk s.params.dmemSize)

/-- The fetch side is not halted and its fetch succeeds (R35). -/
def State.fetchOk (s : State) : Bool := !s.ifHalted && accessible s.params.imemSize s.pc

/-! ### What the instruction in ID does in a cycle -/

/-- The instruction stalls: the EX slot holds a load whose destination is one of its sources (R130). -/
def State.stalls (s : State) (i : Instr) : Bool :=
  match s.exSlot with
  | .occupied (.loadI ins _ _) => decide (ins.rd ∈ i.sources)
  | _ => false

/-- The instruction transfers control, given the register file it compares (R141, R142, R144). -/
def transfersControl (i : Instr) (x : RegFile) : Bool :=
  match i with
  | .beq rs1 rs2 _ => decide (x.read rs1 = x.read rs2)
  | .bne rs1 rs2 _ => decide (x.read rs1 ≠ x.read rs2)
  | .jal _ _ => true
  | _ => false

/-- The offset a B- or J-class instruction adds to its own address (R140). -/
def transferOffset : Instr → Word
  | .beq _ _ imm => imm
  | .bne _ _ imm => imm
  | .jal _ imm => imm
  | _ => 0#32

/-- What a cycle does with the ID slot (R117): nothing (E, H), a decode error, or one of the instruction's cases. -/
inductive IdEvent where
  | idle
  | illegal
  | stalled
  | passed
  | redirected (target : Word)
  | haltSeen
  deriving DecidableEq, Repr

/-- The event of an instruction in ID (R117): Halt, then the stall, then the class action. -/
def State.eventOf (s : State) (i : Instr) : IdEvent :=
  if i.cls = .halt then .haltSeen
  else if s.stalls i then .stalled
  else if transfersControl i (wbStage s) then .redirected (s.idPc + transferOffset i)
  else .passed

/-- The event of a cycle. -/
def State.idEvent (s : State) : IdEvent :=
  match s.idSlot with
  | .bubble => .idle
  | .halted => .idle
  | .occupied f =>
    match decode f.word with
    | .error _ => .illegal
    | .ok i => s.eventOf i

/-- The counts of R155: instructions that leave ID un-squashed (`D`), stall cycles (`L`), taken transfers (`Q`). -/
structure RunCounts where
  d : Nat
  l : Nat
  q : Nat
  deriving DecidableEq, Repr

/-- One cycle's contribution to the counts (R155). -/
def IdEvent.count : IdEvent → RunCounts → RunCounts
  | .idle, c => c
  | .illegal, c => c
  | .stalled, c => { c with l := c.l + 1 }
  | .passed, c => { c with d := c.d + 1 }
  | .redirected _, c => { c with d := c.d + 1, q := c.q + 1 }
  | .haltSeen, c => { c with d := c.d + 1 }

/-- The counts of the first `n` cycles of a run. -/
def State.runCounts : Nat → State → RunCounts
  | 0, _ => ⟨0, 0, 0⟩
  | n + 1, s =>
    match step s with
    | .next t => s.idEvent.count (State.runCounts n t)
    | .fault _ => ⟨0, 0, 0⟩
    | .refused _ => ⟨0, 0, 0⟩

/-! ### Runs -/

/-- `n` steps from `s` end in `t`, without a fault. -/
def Runs (n : Nat) (s t : State) : Prop := Sys2Proof.core.run n s = .next t

/-- A safe run of `n` steps: no fault and no refusal. -/
def SafeFor (n : Nat) (s : State) : Prop := ∃ t, Runs n s t

/-! ### The sequential reference and the hazard conditions (R188) -/

/-- `k` instructions of `seq`, none of them a HALT, none in error. -/
def seqAfter : Nat → SeqState → Option SeqState
  | 0, q => some q
  | k + 1, q =>
    match seqStep q with
    | .next q' => seqAfter k q'
    | .ended _ => none
    | .error _ => none

/-- The first `k + 1` instructions of a run of `seq`, in execution order. -/
def seqTrace : Nat → SeqState → List Instr
  | k, q =>
    match seqFetch q with
    | .error _ => []
    | .ok i =>
      i :: match k, seqExec i q with
        | k' + 1, .next q' => seqTrace k' q'
        | _, _ => []

/-- R188(a), (b) for one instruction against one of the two before it: no branch on a register it writes in WB, no link
in one. -/
def clearOf (i : Instr) : Option Instr → Bool
  | none => true
  | some older =>
    match older.wbDest with
    | none => true
    | some r =>
      match i with
      | .beq rs1 rs2 _ => decide (r = 0#5) || (decide (r ≠ rs1) && decide (r ≠ rs2))
      | .bne rs1 rs2 _ => decide (r = 0#5) || (decide (r ≠ rs1) && decide (r ≠ rs2))
      | .jal rd _ => decide (r = 0#5) || decide (r ≠ rd)
      | _ => true

/-- R188(a), (b) along an execution order, `last` and `beforeLast` being the two instructions before the list. -/
def hazardFree (beforeLast last : Option Instr) : List Instr → Bool
  | [] => true
  | i :: rest => clearOf i last && clearOf i beforeLast && hazardFree last (some i) rest

/-- The load-use stalls an execution order causes: a load followed at once by an instruction that has its `rd` as a
source (R130, R137). -/
def stallCount (last : Option Instr) : List Instr → Nat
  | [] => 0
  | i :: rest =>
    (match last with
      | some older => match older.cls, older.wbDest with
        | .loadI, some r => if r ∈ i.sources then 1 else 0
        | _, _ => 0
      | none => 0) + stallCount (some i) rest

/-- The taken transfers among the first `k` instructions of `seq` (R155's `Q`). -/
def transferCount : Nat → SeqState → Nat
  | 0, _ => 0
  | k + 1, q =>
    match seqFetch q with
    | .error _ => 0
    | .ok i =>
      (if transfersControl i q.regs then 1 else 0) +
        match seqExec i q with
        | .next q' => transferCount k q'
        | .ended _ => 0
        | .error _ => 0

end Sys2Proof.Machine
end

