-- ==== Sys2Proof/Certificates/Slice0/Obligations.lean ====
section
/-! DEFINITION. The statements for the provers. Each says which rule of spec/ it rests on; where it rests on a decision
the spec marks as its own (D<n>) or on a choice of the model (log <n>), its docstring says so. -/

open Sys2Proof Sys2Proof.Machine

namespace Sys2Proof.Machine

/-! ### Words the statements are written in -/

/-- The rows of R58, in its order: (mask, match). -/
def opcodeRows : List (Word × Word) :=
  [ (0xFE00707F#32, 0x00000033#32), (0xFE00707F#32, 0x40000033#32), (0x0000707F#32, 0x00004033#32),
    (0x0000707F#32, 0x00006033#32), (0x0000707F#32, 0x00007033#32), (0x0000707F#32, 0x00000013#32),
    (0x0000707F#32, 0x00004013#32), (0x0000707F#32, 0x00006013#32), (0x0000707F#32, 0x00007013#32),
    (0x0000707F#32, 0x00000003#32), (0x0000707F#32, 0x00004003#32), (0x0000707F#32, 0x00006003#32),
    (0x0000707F#32, 0x00007003#32), (0x0000007F#32, 0x00000023#32), (0x0000707F#32, 0x00000063#32),
    (0x0000707F#32, 0x00001063#32), (0x0000007F#32, 0x0000006F#32), (0x0000007F#32, 0x0000007F#32) ]

/-- The row of R58 an instruction belongs to. -/
def rowNumber : Instr → Nat
  | .add _ _ _ => 0
  | .sub _ _ _ => 1
  | .xor _ _ _ _ => 2
  | .or _ _ _ _ => 3
  | .and _ _ _ _ => 4
  | .addi _ _ _ => 5
  | .xori _ _ _ => 6
  | .ori _ _ _ => 7
  | .andi _ _ _ => 8
  | .lw _ _ _ => 9
  | .lwXor _ _ _ => 10
  | .lwOr _ _ _ => 11
  | .lwAnd _ _ _ => 12
  | .sw _ _ _ _ => 13
  | .beq _ _ _ => 14
  | .bne _ _ _ => 15
  | .jal _ _ => 16
  | .halt => 17

/-- The link write of this cycle: a JAL in ID writes its own address + 4 (R144). -/
def State.linkWrite (s : State) : Option (Reg × Word) :=
  match s.idSlot with
  | .occupied f =>
    match decode f.word with
    | .ok (.jal rd _) => some (rd, f.pc + 4#32)
    | _ => none
  | _ => none

/-- Register `r` after this cycle's link write, `v` being its value before it. -/
def afterLink (s : State) (r : Reg) (v : Word) : Word :=
  match s.linkWrite with
  | some (rd, link) => if rd = r ∧ r ≠ 0#5 then link else v
  | none => v

/-- Register `r` after this cycle's WB write: the write-data of an R-, I- or LoadI-class occupant of WB whose `rd` it
is, else as it was (R114). -/
def afterWb (s : State) (r : Reg) : Word :=
  match s.wbSlot with
  | .occupied (.r ins _ v) => if ins.rd = r ∧ r ≠ 0#5 then v else s.regs.read r
  | .occupied (.i ins _ v) => if ins.rd = r ∧ r ≠ 0#5 then v else s.regs.read r
  | .occupied (.loadI ins _ v) => if ins.rd = r ∧ r ≠ 0#5 then v else s.regs.read r
  | _ => s.regs.read r

/-- The byte at `a` after this cycle's MEM stage: a byte of the store data if an S-class occupant of MEM stores over it
(its address is the latched ALU result), else as it was (R37, R115). -/
def afterMem (s : State) (a : Nat) : Byte :=
  match s.memSlot with
  | .occupied (.s _ _ ea v) =>
    if ea.toNat ≤ a ∧ a < ea.toNat + 4 then v.extractLsb' (24 - 8 * (a - ea.toNat)) 8 else s.dmem.read a
  | _ => s.dmem.read a

/-- The error of an access, alignment first (R32, R34). -/
def accessFault (size : Nat) (a : Word) : Option Fault :=
  if a.toNat % 4 ≠ 0 then some .misaligned else if size ≤ a.toNat + 3 then some .outOfBounds else none

/-- The error the MEM stage raises (R163(b), R167). -/
def memFault (s : State) : Option Fault :=
  match s.memSlot with
  | .occupied (.loadI _ _ ea) => accessFault s.params.dmemSize ea
  | .occupied (.s _ _ ea _) => accessFault s.params.dmemSize ea
  | _ => none

/-- The error the ID stage raises (R161, R162, R168). -/
def idFault (s : State) : Option Fault :=
  match s.idSlot with
  | .occupied f =>
    match decode f.word with
    | .ok _ => none
    | .error .unknownOpcode => some .unknownOpcode
    | .error .unresolvedOperation => some .unresolvedOperation
    | .error .unsupportedBranchCondition => some .unsupportedBranchCondition
  | _ => none

/-- The error the IF stage raises (R163(a), R167). -/
def ifFault (s : State) : Option Fault :=
  if s.ifHalted then none else accessFault s.params.imemSize s.pc

/-- The conditions, on the state and the operands alone, under which instruction `i` with IF/ID latch `f` takes its
ID-stage effects in this cycle without a fault of any stage. -/
structure Ready (s : State) (i : Instr) (f : FetchLatch) : Prop where
  running : s.fault = none
  inId : s.idSlot = .occupied f
  dataOk : s.dataOk = true
  fetchOk : s.fetchOk = true
  noStall : s.stalls i = false

/-- The rest of the state after a cycle that fetches on (R121, last row) and writes no link. -/
structure FetchedOn (s t : State) : Prop where
  pc : t.pc = s.pc + 4#32
  ifHalted : t.ifHalted = false
  idSlot : t.idSlot = .occupied ⟨s.params.imem.readWord s.pc.toNat, s.pc⟩
  regs : ∀ r, t.regs.read r = afterWb s r
  params : t.params = s.params
  fault : t.fault = none

/-- What a class R instruction with record `ins` and function `g` does from its ID cycle to its WB cycle (R86). -/
def CompletesR (s : State) (f : FetchLatch) (i : Instr) (ins : RIns) (g : Word → Word → Word) : Prop :=
  Ready s i f →
    ∃ t, exec i s = .next t ∧ FetchedOn s t ∧
      t.exSlot = .occupied (.r ins f.pc (afterWb s ins.rs1) (afterWb s ins.rs2)) ∧
      ∀ t2 t3 t4, step t = .next t2 → step t2 = .next t3 → step t3 = .next t4 →
        let a := fwd t ins.rs1 (afterWb s ins.rs1)
        let b := fwd t ins.rs2 (afterWb s ins.rs2)
        t2.memSlot = .occupied (.r ins f.pc (g a b) b) ∧ t3.wbSlot = .occupied (.r ins f.pc (g a b)) ∧
          ∀ r, t4.regs.read r = afterLink t3 r (if r = ins.rd ∧ r ≠ 0#5 then g a b else t3.regs.read r)

/-- What a class I instruction does from its ID cycle to its WB cycle (R86). -/
def CompletesI (s : State) (f : FetchLatch) (i : Instr) (ins : IIns) (g : Word → Word → Word) : Prop :=
  Ready s i f →
    ∃ t, exec i s = .next t ∧ FetchedOn s t ∧ t.exSlot = .occupied (.i ins f.pc (afterWb s ins.rs1)) ∧
      ∀ t2 t3 t4, step t = .next t2 → step t2 = .next t3 → step t3 = .next t4 →
        let a := fwd t ins.rs1 (afterWb s ins.rs1)
        t2.memSlot = .occupied (.i ins f.pc (g a ins.imm)) ∧ t3.wbSlot = .occupied (.i ins f.pc (g a ins.imm)) ∧
          ∀ r, t4.regs.read r = afterLink t3 r (if r = ins.rd ∧ r ≠ 0#5 then g a ins.imm else t3.regs.read r)

/-- What a load does from its ID cycle to its WB cycle (R100): the loaded word is the big-endian word at the effective
address in DMEM as its MEM cycle finds it. -/
def CompletesLoad (s : State) (f : FetchLatch) (i : Instr) (ins : IIns) (g : Word → Word → Word) : Prop :=
  Ready s i f →
    ∃ t, exec i s = .next t ∧ FetchedOn s t ∧ t.exSlot = .occupied (.loadI ins f.pc (afterWb s ins.rs1)) ∧
      ∀ t2, step t = .next t2 →
        let ea := g (fwd t ins.rs1 (afterWb s ins.rs1)) ins.imm
        t2.memSlot = .occupied (.loadI ins f.pc ea) ∧
          (∀ e, accessFault s.params.dmemSize ea = some e → step t2 = .fault e) ∧
          ∀ t3 t4, step t2 = .next t3 → step t3 = .next t4 →
            let w := t2.dmem.read ea.toNat ++ t2.dmem.read (ea.toNat + 1) ++ t2.dmem.read (ea.toNat + 2)
              ++ t2.dmem.read (ea.toNat + 3)
            t3.wbSlot = .occupied (.loadI ins f.pc w) ∧
              ∀ r, t4.regs.read r = afterLink t3 r (if r = ins.rd ∧ r ≠ 0#5 then w else t3.regs.read r)

/-- The rest of the state after a cycle that redirects fetch (R121, R146). -/
structure Redirected (s t : State) (target : Word) : Prop where
  pc : t.pc = target
  ifHalted : t.ifHalted = false
  idSlot : t.idSlot = .bubble
  params : t.params = s.params
  fault : t.fault = none

/-- What a branch does: in ID it compares two registers as the register file holds them after WB's write; afterwards it
is inert and writes nothing (R148, R116). -/
def CompletesB (s : State) (f : FetchLatch) (i : Instr) (ins : BIns) (taken : Prop) : Prop :=
  Ready s i f →
    ∃ t, exec i s = .next t ∧ t.exSlot = .occupied (.b ins f.pc) ∧ (∀ r, t.regs.read r = afterWb s r) ∧
      (taken → Redirected s t (f.pc + ins.imm)) ∧ (¬taken → FetchedOn s t) ∧
      ∀ t2 t3 t4, step t = .next t2 → step t2 = .next t3 → step t3 = .next t4 →
        t2.memSlot = .occupied (.b ins f.pc) ∧ t3.wbSlot = .occupied (.b ins f.pc) ∧ t3.dmem = t2.dmem ∧
          ∀ r, t4.regs.read r = afterLink t3 r (t3.regs.read r)

/-- `s` with another IMEM. -/
def State.withImem (s : State) (m : Memory) : State := { s with params := { s.params with imem := m } }

end Sys2Proof.Machine

/-! ### Encoding -/

/-- R78: every field of every row comes back, from the word and from its bytes in memory. -/
def Obligations.DecodeInvertsEncode : Prop :=
  ∀ (i : Instr) (rest : List Byte), i.wellFormed = true →
    decode (encode i) = .ok i ∧ decodeBytes (encodeBytes i ++ rest) = .ok (i, rest)

/-- The other direction (R58 to R60): a decoded instruction is well-formed and encodes to the word it came from; for
HALT the word is any with the Halt opcode, since its other bits are ignored (R59; the encoder's canonical HALT word is
log 13). -/
def Obligations.EncodeInvertsDecode : Prop :=
  ∀ (w : Word) (i : Instr), decode w = .ok i →
    i.wellFormed = true ∧ (i ≠ .halt → encode i = w) ∧ (i = .halt → w.extractLsb' 0 7 = 0b1111111#7)

/-- R58: a word matches a row's mask and match exactly when it decodes to that row's instruction; so the rows are
disjoint and a word matching no row is illegal. The opcode values are the spec's decision D1 (log 7), the load rows, the
unexamined `funct7` and the unexamined `funct3` its decisions D5, D6, D7 (log 14). -/
def Obligations.DecodeFollowsTheOpcodeTable : Prop :=
  ∀ (w : Word) (k : Nat) (mask value : Word), opcodeRows[k]? = some (mask, value) →
    (w &&& mask = value ↔ ∃ i, decode w = .ok i ∧ rowNumber i = k)

/-- R61, R161, R162, R168: which words are refused, by name. The opcode values are the spec's decision D1 (log 7); the
loads' `funct3`, the unexamined `funct7` and `funct3`, and the third error are its decisions D5, D6, D7, D8 (log 14). -/
def Obligations.DecodeErrorsByName : Prop :=
  ∀ w : Word,
    let op := w.extractLsb' 0 7
    let f3 := w.extractLsb' 12 3
    let f7 := w.extractLsb' 25 7
    (decode w = .error .unknownOpcode ↔ op ∉ [0x33#7, 0x13#7, 0x03#7, 0x23#7, 0x63#7, 0x6F#7, 0x7F#7]) ∧
    (decode w = .error .unresolvedOperation ↔
      (op ∈ [0x13#7, 0x03#7, 0x33#7] ∧ f3 ∈ [1#3, 2#3, 3#3, 5#3]) ∨
        (op = 0x33#7 ∧ f3 = 0#3 ∧ f7 ∉ [0x00#7, 0x20#7])) ∧
    (decode w = .error .unsupportedBranchCondition ↔ op = 0x63#7 ∧ f3 ∉ [0#3, 1#3])

/-- R54 to R57 as integer arithmetic on the word: each immediate is the signed value of its pieces. Which piece stands
where in the S, B and J formats is the spec's decision D2 (log 8). -/
def Obligations.ImmediatesAreTheSignedPiecesOfTheWord : Prop :=
  ∀ w : Word,
    let n := w.toNat
    (immI w).toInt = Int.bmod (n / 2 ^ 20 : Nat) 4096 ∧
    (immS w).toInt = Int.bmod (n / 2 ^ 25 * 32 + n / 2 ^ 7 % 32 : Nat) 4096 ∧
    (immB w).toInt =
      Int.bmod (n / 2 ^ 31 * 4096 + n / 2 ^ 7 % 2 * 2048 + n / 2 ^ 25 % 64 * 32 + n / 2 ^ 8 % 16 * 2 : Nat) 8192 ∧
    (immJ w).toInt =
      Int.bmod (n / 2 ^ 31 * 1048576 + n / 2 ^ 12 % 256 * 4096 + n / 2 ^ 20 % 2 * 2048 + n / 2 ^ 21 % 1024 * 2 : Nat)
        2097152

/-- Words of every class, from `95_test_vectors.md` section 2, decode to what that section prints. The words rest on the
opcode values of the spec's decision D1 (log 7, PRESUMED) and on the immediate layouts of its decision D2 (log 8,
PRESUMED), which the section itself calls general knowledge and not the source's; the XOR, LW.AND and last word also on
its decisions D6 and D5 (log 14). -/
def Obligations.WordsOfEveryClassDecode : Prop :=
  decode 0x002081B3#32 = .ok (.add 3#5 1#5 2#5) ∧
  decode 0x402081B3#32 = .ok (.sub 3#5 1#5 2#5) ∧
  decode 0x0220C1B3#32 = .ok (.xor 1#7 3#5 1#5 2#5) ∧
  decode 0xFFF00093#32 = .ok (.addi 1#5 0#5 0xFFFFFFFF#32) ∧
  decode 0xFFC10203#32 = .ok (.lw 4#5 2#5 0xFFFFFFFC#32) ∧
  decode 0x00C0F103#32 = .ok (.lwAnd 2#5 1#5 0x0000000C#32) ∧
  decode 0xFE512C23#32 = .ok (.sw 2#3 2#5 5#5 0xFFFFFFF8#32) ∧
  decode 0xFE2098E3#32 = .ok (.bne 1#5 2#5 0xFFFFFFF0#32) ∧
  decode 0x001002EF#32 = .ok (.jal 5#5 0x00000800#32) ∧
  decode 0x1234567F#32 = .ok .halt ∧
  decode 0x00812203#32 = .error .unresolvedOperation

/-! ### ALU, registers, memory -/

/-- R85 (and R7): the five operations, in the unsigned and in the signed reading, and bit by bit. -/
def Obligations.AluWrapsModuloTwoToThe32 : Prop :=
  ∀ a b : Word,
    (alu .add a b).toNat = (a.toNat + b.toNat) % 2 ^ 32 ∧
    ((alu .subtract a b).toNat : Int) = ((a.toNat : Int) - b.toNat) % 2 ^ 32 ∧
    alu .add a b = BitVec.ofInt 32 (a.toInt + b.toInt) ∧
    alu .subtract a b = BitVec.ofInt 32 (a.toInt - b.toInt) ∧
    ∀ k < 32,
      (alu .and a b).getLsbD k = (a.getLsbD k && b.getLsbD k) ∧
      (alu .or a b).getLsbD k = (a.getLsbD k || b.getLsbD k) ∧
      (alu .xor a b).getLsbD k = (a.getLsbD k).xor (b.getLsbD k)

/-- R11: register 0 reads 0 and discards writes; another register returns the last value written, or its launch
value. -/
def Obligations.RegisterFileReadsTheLastWrite : Prop :=
  (∀ x : RegFile, x.read 0#5 = 0#32) ∧
  (∀ (x : RegFile) (v : Word), x.write 0#5 v = x) ∧
  (∀ (x : RegFile) (i : Reg) (v : Word), i ≠ 0#5 → (x.write i v).read i = v) ∧
  (∀ (x : RegFile) (i j : Reg) (v : Word), j ≠ i → (x.write i v).read j = x.read j) ∧
  ∀ (p : Params) (k : Nat) (h : k < 31), (State.launched p).regs.read (BitVec.ofNat 5 (k + 1)) = p.xInit[k]

/-- R33, R37: a word is stored with its most significant byte at the lowest address, reads back as itself, and leaves
every other byte alone. That the first slice goes to the lowest address is the spec's decision D30. -/
def Obligations.WordsAreBigEndian : Prop :=
  ∀ (m : Memory) (a : Nat) (v : Word), m.wf = true →
    (m.writeWord a v).read a = v.extractLsb' 24 8 ∧
    (m.writeWord a v).read (a + 1) = v.extractLsb' 16 8 ∧
    (m.writeWord a v).read (a + 2) = v.extractLsb' 8 8 ∧
    (m.writeWord a v).read (a + 3) = v.extractLsb' 0 8 ∧
    (∀ b, b < a ∨ a + 4 ≤ b → (m.writeWord a v).read b = m.read b) ∧
    m.readWord a = m.read a ++ m.read (a + 1) ++ m.read (a + 2) ++ m.read (a + 3) ∧
    (m.writeWord a v).readWord a = v ∧
    (m.writeWord a v).wf = true

/-- R32, R34 to R37: alignment is checked first, then the bounds with the address unsigned; an access that fails moves
no data. Faulting on misalignment, and the bounds test, are the spec's decisions D21, D22. -/
def Obligations.AccessesAreCheckedAlignmentFirst : Prop :=
  ∀ (p : Params) (size : Nat) (d : Memory) (a v : Word),
    (a.toNat % 4 ≠ 0 →
      imemRead p a = .error .misaligned ∧ memRead size d a = .error .misaligned ∧
        memWrite size d a v = .error .misaligned) ∧
    (a.toNat % 4 = 0 → p.imemSize ≤ a.toNat + 3 → imemRead p a = .error .outOfBounds) ∧
    (a.toNat % 4 = 0 → size ≤ a.toNat + 3 →
      memRead size d a = .error .outOfBounds ∧ memWrite size d a v = .error .outOfBounds) ∧
    (a.toNat % 4 = 0 → a.toNat + 3 < p.imemSize → imemRead p a = .ok (p.imem.readWord a.toNat)) ∧
    (a.toNat % 4 = 0 → a.toNat + 3 < size →
      memRead size d a = .ok (d.readWord a.toNat) ∧ memWrite size d a v = .ok (d.writeWord a.toNat v))

/-- R73: the control table. Its values besides `AluOp` of R, S and B and `MemRead` of LoadI are the spec's decision
D3. -/
def Obligations.ControlTableOfEachClass : Prop :=
  (∀ c, (ctrl c).regWrite = true ↔ c = .r ∨ c = .i ∨ c = .loadI) ∧
  (∀ c, (ctrl c).memRead = true ↔ c = .loadI) ∧
  (∀ c, (ctrl c).memWrite = true ↔ c = .s) ∧
  (∀ c, (ctrl c).memtoReg = true ↔ c = .loadI) ∧
  (∀ c, (ctrl c).aluSrc = true ↔ c = .i ∨ c = .loadI ∨ c = .s) ∧
  (∀ c, (ctrl c).branch = true ↔ c = .b) ∧
  (∀ c, (ctrl c).jump = true ↔ c = .j) ∧
  (∀ c, (ctrl c).aluOp = if c = .r then 0b10#2 else 0b00#2)

/-- R132 to R135: for a source register, the MEM occupant's result if it writes that register in WB, else the WB
occupant's, else the latched value; never for register 0. The condition on WB's occupant is the spec's decision D19,
the forwarding of a load's address from MEM is D20 (log 11). -/
def Obligations.ForwardingTakesTheMostRecentProducer : Prop :=
  ∀ (s : State) (r : Reg) (latched : Word),
    fwd s 0#5 latched = latched ∧
    (r ≠ 0#5 →
      (∀ ins pc v d, s.memSlot = .occupied (.r ins pc v d) → ins.rd = r → fwd s r latched = v) ∧
      (∀ ins pc v, s.memSlot = .occupied (.i ins pc v) → ins.rd = r → fwd s r latched = v) ∧
      (∀ ins pc v, s.memSlot = .occupied (.loadI ins pc v) → ins.rd = r → fwd s r latched = v) ∧
      ((∀ l, s.memSlot = .occupied l → l.ins.cls = .s ∨ l.ins.cls = .b ∨ l.ins.cls = .j ∨ l.ins.rd ≠ some r) →
        (∀ ins pc v, s.wbSlot = .occupied (.r ins pc v) → ins.rd = r → fwd s r latched = v) ∧
        (∀ ins pc v, s.wbSlot = .occupied (.i ins pc v) → ins.rd = r → fwd s r latched = v) ∧
        (∀ ins pc v, s.wbSlot = .occupied (.loadI ins pc v) → ins.rd = r → fwd s r latched = v) ∧
        ((∀ l, s.wbSlot = .occupied l → l.ins.cls = .s ∨ l.ins.cls = .b ∨ l.ins.cls = .j ∨ l.ins.rd ≠ some r) →
          fwd s r latched = latched)))

/-! ### Launch and reset -/

/-- R28, R181: the launch state. All its values but `x0` are the spec's decision D25; `State.reset` is the launch with
the parameters of log 3, 4 and 5. -/
def Obligations.LaunchStateHoldsTheResetValues : Prop :=
  (∀ p : Params,
    let s := State.launched p
    s.params = p ∧ s.pc = 0#32 ∧ s.ifHalted = false ∧ s.idSlot = .bubble ∧ s.exSlot = .bubble ∧ s.memSlot = .bubble ∧
      s.wbSlot = .bubble ∧ s.fault = none ∧ s.regs = p.xInit ∧ s.regs.read 0#5 = 0#32 ∧ s.dmem = p.dmemInit ∧
      s.haltedOut = false) ∧
  State.reset = State.launched Params.default

/-- R5, R183(a), U11: a run starts from every parameter set in its domain, and from no other. Refusing is the treatment
the spec's U11 names. -/
def Obligations.LaunchRefusesParametersOutOfDomain : Prop :=
  ∀ p : Params,
    (launch p = .next (State.launched p) ↔
      (p.imemSize % 4 = 0 ∧ 4 ≤ p.imemSize ∧ p.imemSize ≤ 2 ^ 31) ∧
      (p.dmemSize % 4 = 0 ∧ 4 ≤ p.dmemSize ∧ p.dmemSize ≤ 2 ^ 31) ∧
      p.imem.wf = true ∧ p.dmemInit.wf = true ∧
      (∀ c ∈ p.imem, c.1 < p.imemSize) ∧ (∀ c ∈ p.dmemInit, c.1 < p.dmemSize)) ∧
    (launch p ≠ .next (State.launched p) → launch p = .refused .parametersOutOfDomain)

/-- The invariant `State.Inv` holds at every launch in the domain, and at `State.reset`. -/
def Obligations.LaunchMeetsTheInvariant : Prop :=
  (∀ p : Params, p.wf = true → (State.launched p).Inv) ∧ State.reset.Inv

/-- R180: `rst = 1` at an edge gives the launch state of the run, whatever the state was; `rst = 0` performs the step
(the spec's decision D25; that `rst` is an argument of `edge` is the model's choice, log 15). An edge whose step faults is
FaultedMachineStaysUntilReset. -/
def Obligations.ResetEdgeGivesTheLaunchState : Prop :=
  (∀ (s : State) (rest : Residue), edge true rest s = State.launched s.params) ∧
  ∀ (s t : State) (rest : Residue), step s = .next t → edge false rest s = t

/-! ### The step -/

/-- R72, R117, R122: a step runs the instruction the ID word decodes to; a word that does not decode raises its error
unless MEM has raised one; an empty ID slot runs none: a bubble passes a bubble to EX (case E), a halted one passes
HALTED (case H), and the registers are as WB leaves them. -/
def Obligations.StepRunsTheDecodedInstruction : Prop :=
  ∀ (s : State), s.fault = none →
    (∀ f i, s.idSlot = .occupied f → decode f.word = .ok i → step s = exec i s) ∧
    (∀ f e, s.idSlot = .occupied f → decode f.word = .error e → s.dataOk = true → step s = .fault (faultOfDecode e)) ∧
    (s.idSlot = .bubble → step s = cycleIdle s .bubble ∧
      ∀ t, step s = .next t → t.exSlot = .bubble ∧ ∀ r, t.regs.read r = afterWb s r) ∧
    (s.idSlot = .halted → step s = cycleIdle s .halted ∧
      ∀ t, step s = .next t → t.exSlot = .halted ∧ ∀ r, t.regs.read r = afterWb s r)

/-- R21, R35, R121: the word a step fetches from IMEM, big-endian at `pc`, is the next occupant of ID, with its
address, whenever ID neither stalls, redirects nor sees a HALT. -/
def Obligations.FetchedWordIsTheNextIdOccupant : Prop :=
  ∀ (s t : State), s.fault = none → s.ifHalted = false → s.idEvent = .idle ∨ s.idEvent = .passed →
    step s = .next t →
      ∃ f, t.idSlot = .occupied f ∧ f.pc = s.pc ∧
        f.word = s.params.imem.read s.pc.toNat ++ s.params.imem.read (s.pc.toNat + 1)
          ++ s.params.imem.read (s.pc.toNat + 2) ++ s.params.imem.read (s.pc.toNat + 3)

/-- R121: the arbitration of the fetch side, row by row; in the first row the ID slot is halted, as it is in every state
whose halted flags are as R25(d) has them. -/
def Obligations.ArbitrationOfTheFetchSide : Prop :=
  ∀ (s t : State), s.fault = none → step s = .next t →
    if s.ifHalted = true then
      t.pc = s.pc ∧ t.ifHalted = true ∧ t.idSlot = s.idSlot ∧ (s.haltChain = true → t.idSlot = .halted)
    else
      ∃ w, imemRead s.params s.pc = .ok w ∧
        match s.idEvent with
        | .haltSeen => t.pc = s.pc ∧ t.ifHalted = true ∧ t.idSlot = .halted
        | .stalled => t.pc = s.pc ∧ t.ifHalted = false ∧ t.idSlot = s.idSlot
        | .redirected target => t.pc = target ∧ t.ifHalted = false ∧ t.idSlot = .bubble
        | .passed => t.pc = s.pc + 4#32 ∧ t.ifHalted = false ∧ t.idSlot = .occupied ⟨w, s.pc⟩
        | .idle => t.pc = s.pc + 4#32 ∧ t.ifHalted = false ∧ t.idSlot = .occupied ⟨w, s.pc⟩
        | .illegal => False

/-- The register frame of all eighteen instructions, in the cycle they are in ID: the only registers that change are the
`rd` of the WB occupant and, for a JAL, its own `rd`, the link written second (R12, R13, R114, R144; the order is the
spec's decision D10, D16). Register 0 never changes. -/
def Obligations.RegisterFrameOfEveryInstructionInId : Prop :=
  ∀ (i : Instr) (s t : State), exec i s = .next t →
    ∀ r, t.regs.read r =
      match i with
      | .jal rd _ => if rd = r ∧ r ≠ 0#5 then s.idPc + 4#32 else afterWb s r
      | _ => afterWb s r

/-- The memory frame of all eighteen instructions, in the cycle they are in ID: every byte of DMEM reads as before but
the four an S-class occupant of MEM stores to, and IMEM and every other launch parameter stay (R37, R44, R115). -/
def Obligations.MemoryFrameOfEveryInstructionInId : Prop :=
  ∀ (i : Instr) (s t : State), s.dmem.wf = true → exec i s = .next t →
    (∀ a, t.dmem.read a = afterMem s a) ∧ t.dmem.wf = true ∧ t.params = s.params ∧ t.fault = s.fault

/-- The register and memory frame of a whole cycle, also of one without an instruction in ID. -/
def Obligations.RegisterAndMemoryFrameOfAStep : Prop :=
  ∀ (s t : State), s.fault = none → s.dmem.wf = true → step s = .next t →
    (∀ r, t.regs.read r = afterLink s r (afterWb s r)) ∧ (∀ a, t.dmem.read a = afterMem s a) ∧ t.fault = none

/-- R44: no step changes IMEM or another launch parameter, so a store never affects a later fetch. -/
def Obligations.StepsNeverChangeInstructionMemory : Prop :=
  ∀ (n : Nat) (s t : State), Runs n s t →
    t.params = s.params ∧ ∀ a, imemRead t.params a = imemRead s.params a

/-- R115, R116, R123: the slots behind ID advance every cycle; EX forwards and runs the ALU, MEM makes its access. That
B and J occupants are inert, where MemtoReg selects, and the store-data path are the spec's decisions D15, D17, D18. -/
def Obligations.LaterStagesAdvanceEveryCycle : Prop :=
  ∀ (s t : State), s.fault = none → step s = .next t →
    (s.exSlot = .bubble → t.memSlot = .bubble) ∧
    (s.exSlot = .halted → t.memSlot = .halted) ∧
    (∀ ins pc v1 v2, s.exSlot = .occupied (.r ins pc v1 v2) →
      t.memSlot = .occupied (.r ins pc (alu ins.aluOp (fwd s ins.rs1 v1) (fwd s ins.rs2 v2)) (fwd s ins.rs2 v2))) ∧
    (∀ ins pc v1, s.exSlot = .occupied (.i ins pc v1) →
      t.memSlot = .occupied (.i ins pc (alu ins.aluOp (fwd s ins.rs1 v1) ins.imm))) ∧
    (∀ ins pc v1, s.exSlot = .occupied (.loadI ins pc v1) →
      t.memSlot = .occupied (.loadI ins pc (alu ins.aluOp (fwd s ins.rs1 v1) ins.imm))) ∧
    (∀ ins pc v1 v2, s.exSlot = .occupied (.s ins pc v1 v2) →
      t.memSlot = .occupied (.s ins pc (alu ins.aluOp (fwd s ins.rs1 v1) ins.imm) (fwd s ins.rs2 v2))) ∧
    (∀ ins pc, s.exSlot = .occupied (.b ins pc) → t.memSlot = .occupied (.b ins pc)) ∧
    (∀ ins pc, s.exSlot = .occupied (.j ins pc) → t.memSlot = .occupied (.j ins pc)) ∧
    (s.memSlot = .bubble → t.wbSlot = .bubble) ∧
    (s.memSlot = .halted → t.wbSlot = .halted) ∧
    (∀ ins pc v d, s.memSlot = .occupied (.r ins pc v d) → t.wbSlot = .occupied (.r ins pc v)) ∧
    (∀ ins pc v, s.memSlot = .occupied (.i ins pc v) → t.wbSlot = .occupied (.i ins pc v)) ∧
    (∀ ins pc ea, s.memSlot = .occupied (.loadI ins pc ea) →
      t.wbSlot = .occupied (.loadI ins pc (s.dmem.readWord ea.toNat))) ∧
    (∀ ins pc ea v, s.memSlot = .occupied (.s ins pc ea v) → t.wbSlot = .occupied (.s ins pc)) ∧
    (∀ ins pc, s.memSlot = .occupied (.b ins pc) → t.wbSlot = .occupied (.b ins pc)) ∧
    (∀ ins pc, s.memSlot = .occupied (.j ins pc) → t.wbSlot = .occupied (.j ins pc))

/-- R123: an instruction that has left ID is in EX, MEM and WB in the three cycles after, unconditionally: nothing
behind ID stalls or removes it. -/
def Obligations.InstructionsAdvanceOneStageACycle : Prop :=
  ∀ (s t u : State) (l : ExLatch), s.fault = none → s.exSlot = .occupied l → step s = .next t → step t = .next u →
    ∃ m w, t.memSlot = .occupied m ∧ m.ins = l.ins ∧ m.pc = l.pc ∧ u.wbSlot = .occupied w ∧ w.ins = l.ins ∧
      w.pc = l.pc

/-- The invariant `State.Inv` (R25, R136, and the model's data forms) is kept by every step, from every state that
meets it. -/
def Obligations.EveryStepKeepsTheInvariant : Prop :=
  ∀ (s t : State), s.Inv → step s = .next t → t.Inv

/-! ### Each instruction, from ID to WB -/

/-- ADD, SUB, XOR, OR, AND (R86 to R91): when nothing faults and no load-use stall applies, the instruction leaves ID;
three cycles later its result, of the forwarded operands, is in `x[rd]` (unless a JAL in ID writes that register in the
same cycle). For XOR, OR, AND with every `funct7` (the spec's decision D6). -/
def Obligations.RegisterRegisterInstructionsComplete : Prop :=
  ∀ (s : State) (f : FetchLatch) (f7 : BitVec 7) (rd rs1 rs2 : Reg),
    CompletesR s f (.add rd rs1 rs2) ⟨0b0000000#7, 0b000#3, rd, rs1, rs2, .add⟩ (fun a b => a + b) ∧
    CompletesR s f (.sub rd rs1 rs2) ⟨0b0100000#7, 0b000#3, rd, rs1, rs2, .subtract⟩ (fun a b => a - b) ∧
    CompletesR s f (.xor f7 rd rs1 rs2) ⟨f7, 0b100#3, rd, rs1, rs2, .xor⟩ (fun a b => a ^^^ b) ∧
    CompletesR s f (.or f7 rd rs1 rs2) ⟨f7, 0b110#3, rd, rs1, rs2, .or⟩ (fun a b => a ||| b) ∧
    CompletesR s f (.and f7 rd rs1 rs2) ⟨f7, 0b111#3, rd, rs1, rs2, .and⟩ (fun a b => a &&& b)

/-- ADDI, XORI, ORI, ANDI (R86, R92 to R95), likewise. -/
def Obligations.RegisterImmediateInstructionsComplete : Prop :=
  ∀ (s : State) (f : FetchLatch) (rd rs1 : Reg) (imm : Word),
    CompletesI s f (.addi rd rs1 imm) ⟨0b000#3, rd, rs1, imm, .add⟩ (fun a b => a + b) ∧
    CompletesI s f (.xori rd rs1 imm) ⟨0b100#3, rd, rs1, imm, .xor⟩ (fun a b => a ^^^ b) ∧
    CompletesI s f (.ori rd rs1 imm) ⟨0b110#3, rd, rs1, imm, .or⟩ (fun a b => a ||| b) ∧
    CompletesI s f (.andi rd rs1 imm) ⟨0b111#3, rd, rs1, imm, .and⟩ (fun a b => a &&& b)

/-- LW, LW.XOR, LW.OR, LW.AND (R100 to R104): the word at the effective address, or the address error in the MEM cycle.
That a load's `funct3` selects its address operation is the spec's decision D5, the address errors are D21 and D22. -/
def Obligations.LoadsComplete : Prop :=
  ∀ (s : State) (f : FetchLatch) (rd rs1 : Reg) (imm : Word),
    CompletesLoad s f (.lw rd rs1 imm) ⟨0b000#3, rd, rs1, imm, .add⟩ (fun a b => a + b) ∧
    CompletesLoad s f (.lwXor rd rs1 imm) ⟨0b100#3, rd, rs1, imm, .xor⟩ (fun a b => a ^^^ b) ∧
    CompletesLoad s f (.lwOr rd rs1 imm) ⟨0b110#3, rd, rs1, imm, .or⟩ (fun a b => a ||| b) ∧
    CompletesLoad s f (.lwAnd rd rs1 imm) ⟨0b111#3, rd, rs1, imm, .and⟩ (fun a b => a &&& b)

/-- SW with every `funct3` (R105, R106; the spec's decision D7; its data path, byte order and address errors are D18, D30,
D21, D22): the address and the data are the forwarded `rs1` plus
the immediate and the forwarded `rs2`; the four bytes, most significant first, are written in the MEM cycle and every
other byte stays; a bad address faults there; no register is written by it in WB. -/
def Obligations.StoresComplete : Prop :=
  ∀ (s : State) (f : FetchLatch) (f3 : BitVec 3) (rs1 rs2 : Reg) (imm : Word),
    Ready s (.sw f3 rs1 rs2 imm) f →
      let ins : SIns := ⟨f3, rs1, rs2, imm, .add⟩
      ∃ t, exec (.sw f3 rs1 rs2 imm) s = .next t ∧ FetchedOn s t ∧
        t.exSlot = .occupied (.s ins f.pc (afterWb s rs1) (afterWb s rs2)) ∧
        ∀ t2, step t = .next t2 →
          let ea := fwd t rs1 (afterWb s rs1) + imm
          let data := fwd t rs2 (afterWb s rs2)
          t2.memSlot = .occupied (.s ins f.pc ea data) ∧
            (∀ e, accessFault s.params.dmemSize ea = some e → step t2 = .fault e) ∧
            ∀ t3 t4, step t2 = .next t3 → step t3 = .next t4 →
              t3.dmem = t2.dmem.writeWord ea.toNat data ∧ t3.wbSlot = .occupied (.s ins f.pc) ∧
                (t2.dmem.wf = true → ∀ a, t3.dmem.read a =
                  if ea.toNat ≤ a ∧ a < ea.toNat + 4 then data.extractLsb' (24 - 8 * (a - ea.toNat)) 8
                  else t2.dmem.read a) ∧
                ∀ r, t4.regs.read r = afterLink t3 r (t3.regs.read r)

/-- BEQ and BNE (R140 to R142, R148): taken or not by the equality of the two registers as the register file holds them
after WB's write, nothing forwarded (D36); the target is relative to the branch's own address (D9). -/
def Obligations.BranchesComplete : Prop :=
  ∀ (s : State) (f : FetchLatch) (rs1 rs2 : Reg) (imm : Word),
    CompletesB s f (.beq rs1 rs2 imm) ⟨0b000#3, rs1, rs2, imm, .add⟩ (afterWb s rs1 = afterWb s rs2) ∧
    CompletesB s f (.bne rs1 rs2 imm) ⟨0b001#3, rs1, rs2, imm, .add⟩ (afterWb s rs1 ≠ afterWb s rs2)

/-- JAL (R140, R144): never stalled; it writes its own address + 4 to `rd` in ID, after WB's write (D16), nothing if
`rd` is register 0, redirects, and writes nothing later. -/
def Obligations.JalCompletes : Prop :=
  ∀ (s : State) (f : FetchLatch) (rd : Reg) (imm : Word),
    s.fault = none → s.idSlot = .occupied f → s.dataOk = true → s.fetchOk = true →
      ∃ t, exec (.jal rd imm) s = .next t ∧ Redirected s t (f.pc + imm) ∧
        t.exSlot = .occupied (.j ⟨rd, imm⟩ f.pc) ∧
        (∀ r, t.regs.read r = if r = rd ∧ r ≠ 0#5 then f.pc + 4#32 else afterWb s r) ∧
        ∀ t2 t3 t4, step t = .next t2 → step t2 = .next t3 → step t3 = .next t4 →
          t2.memSlot = .occupied (.j ⟨rd, imm⟩ f.pc) ∧ t3.wbSlot = .occupied (.j ⟨rd, imm⟩ f.pc) ∧ t3.dmem = t2.dmem ∧
            ∀ r, t4.regs.read r = afterLink t3 r (t3.regs.read r)

/-- HALT (R150): never stalled; consumed in ID, EX gets a bubble, the fetch side is halted and `pc` frozen. The timing
is the spec's decision D15, D27. -/
def Obligations.HaltCompletes : Prop :=
  ∀ (s : State) (f : FetchLatch),
    s.fault = none → s.idSlot = .occupied f → s.dataOk = true → s.fetchOk = true →
      ∃ t, exec .halt s = .next t ∧ t.exSlot = .bubble ∧ t.idSlot = .halted ∧ t.ifHalted = true ∧ t.pc = s.pc ∧
        (∀ r, t.regs.read r = afterWb s r) ∧ t.params = s.params ∧ t.fault = none

/-- The sequential effects (R87 to R95, R101 to R105, R141, R142, R144, R150), spelled out. That HALT answers `ended` and an
error is an outcome of its own is the model's choice (log 17); the load forms, the unexamined `funct7` and `funct3`, the
transfer targets, the address errors and the store's byte order are the spec's decisions D5, D6, D7, D9, D21, D22, D30
(log 14). -/
def Obligations.SequentialEffects : Prop :=
  ∀ (q : SeqState) (f7 : BitVec 7) (f3 : BitVec 3) (rd rs1 rs2 : Reg) (imm : Word),
    let a := q.regs.read rs1
    let b := q.regs.read rs2
    let write (v : Word) : SeqOutcome := .next { q with regs := q.regs.write rd v, pc := q.pc + 4#32 }
    let load (ea : Word) : SeqOutcome :=
      match accessFault q.params.dmemSize ea with
      | some e => .error e
      | none => write (q.dmem.readWord ea.toNat)
    let goto (c : Prop) [Decidable c] : SeqOutcome := .next { q with pc := if c then q.pc + imm else q.pc + 4#32 }
    seqExec (.add rd rs1 rs2) q = write (a + b) ∧ seqExec (.sub rd rs1 rs2) q = write (a - b) ∧
    seqExec (.xor f7 rd rs1 rs2) q = write (a ^^^ b) ∧ seqExec (.or f7 rd rs1 rs2) q = write (a ||| b) ∧
    seqExec (.and f7 rd rs1 rs2) q = write (a &&& b) ∧
    seqExec (.addi rd rs1 imm) q = write (a + imm) ∧ seqExec (.xori rd rs1 imm) q = write (a ^^^ imm) ∧
    seqExec (.ori rd rs1 imm) q = write (a ||| imm) ∧ seqExec (.andi rd rs1 imm) q = write (a &&& imm) ∧
    seqExec (.lw rd rs1 imm) q = load (a + imm) ∧ seqExec (.lwXor rd rs1 imm) q = load (a ^^^ imm) ∧
    seqExec (.lwOr rd rs1 imm) q = load (a ||| imm) ∧ seqExec (.lwAnd rd rs1 imm) q = load (a &&& imm) ∧
    seqExec (.sw f3 rs1 rs2 imm) q =
      (match accessFault q.params.dmemSize (a + imm) with
        | some e => .error e
        | none => .next { q with dmem := q.dmem.writeWord (a + imm).toNat b, pc := q.pc + 4#32 }) ∧
    seqExec (.beq rs1 rs2 imm) q = goto (a = b) ∧ seqExec (.bne rs1 rs2 imm) q = goto (a ≠ b) ∧
    seqExec (.jal rd imm) q = .next { q with regs := q.regs.write rd (q.pc + 4#32), pc := q.pc + imm } ∧
    seqExec .halt q = .ended q

/-! ### Stalls, squashes, hazards -/

/-- R130, R131, R137: an instruction whose source is the destination of the load in EX, register 0 included (D13), is
held one cycle: a bubble goes into EX, ID and `pc` stay, the load moves on; and the next cycle does not stall. -/
def Obligations.LoadUseStallsExactlyOneCycle : Prop :=
  ∀ (s : State) (f : FetchLatch) (i : Instr),
    s.fault = none → s.idSlot = .occupied f → decode f.word = .ok i → s.stalls i = true → s.dataOk = true →
    s.fetchOk = true →
      ∃ t, step s = .next t ∧ t.exSlot = .bubble ∧ t.idSlot = s.idSlot ∧ t.pc = s.pc ∧ t.ifHalted = false ∧
        (∀ r, t.regs.read r = afterWb s r) ∧ t.memSlot = exStage s ∧ t.stalls i = false ∧ t.idEvent ≠ .stalled

/-- R130: the detector compares exactly the source fields present for the instruction's class with the `rd` of a load in
EX; JAL and HALT never stall (D13). -/
def Obligations.LoadUseComparesPresentSourcesOnly : Prop :=
  ∀ (i : Instr) (s t : State), s.ifHalted = false → exec i s = .next t →
    (s.stalls i = true → t.exSlot = .bubble ∧ t.pc = s.pc ∧ t.idSlot = s.idSlot) ∧
    (s.stalls i = false → i ≠ .halt → ∃ l, t.exSlot = .occupied l) ∧
    (i.sources = [] → s.stalls i = false)

/-- R139, R186 (the spec's decision D36): what a branch or jump decides in ID does not depend on what EX and MEM hold,
as long as no stall applies: results not yet in the register file are invisible to it. -/
def Obligations.BranchesDoNotSeeUnwrittenResults : Prop :=
  ∀ (i : Instr) (s t t' : State) (ex : Slot ExLatch) (mem : Slot MemLatch), i.cls = .b ∨ i.cls = .j →
    let s' := { s with exSlot := ex, memSlot := mem }
    s.stalls i = false → s'.stalls i = false → exec i s = .next t → exec i s' = .next t' →
      t'.pc = t.pc ∧ t'.idSlot = t.idSlot ∧ t'.exSlot = t.exSlot ∧ t'.regs = t.regs

/-- R121, R146, U13: in a cycle that redirects, stalls or sees a HALT, the word fetched in that cycle is dropped: with
any other contents of IMEM the cycle gives the same next state (the spec's decisions D11, D14, D27). -/
def Obligations.DroppedFetchWordsHaveNoEffect : Prop :=
  ∀ (i : Instr) (s t : State) (m : Memory), i = .halt ∨ s.stalls i = true ∨ transfersControl i (wbStage s) = true →
    exec i s = .next t → exec i (s.withImem m) = .next (t.withImem m)

/-- R146, R147 (D14): after a taken transfer the next cycle fetches at the target and runs no instruction in ID: exactly
one bubble. -/
def Obligations.TakenTransferCostsOneBubble : Prop :=
  ∀ (s t u : State) (target : Word), s.fault = none → s.ifHalted = false → s.idEvent = .redirected target →
    step s = .next t → step t = .next u →
      t.pc = target ∧ t.idSlot = .bubble ∧ t.idEvent = .idle ∧ u.exSlot = .bubble ∧
        ∃ w, imemRead s.params target = .ok w ∧ u.idSlot = .occupied ⟨w, target⟩

/-- R187: a JAL whose `rd` (not register 0) is also the destination of the R- or I-class instruction one place ahead of
it loses its link: two cycles later that older result is written over it (unless a JAL in ID writes it again). -/
def Obligations.OlderWriteOvertakesTheLink : Prop :=
  ∀ (s t u v : State) (rd : Reg) (imm : Word) (l : ExLatch), s.fault = none → rd ≠ 0#5 →
    s.exSlot = .occupied l → l.ins.rd = some rd → l.ins.cls = .r ∨ l.ins.cls = .i →
    exec (.jal rd imm) s = .next t → step t = .next u → step u = .next v →
      t.regs.read rd = s.idPc + 4#32 ∧ v.regs.read rd = afterLink u rd ((exAction s l).aluResult.getD 0#32)

/-- R41(b), R47: a load one cycle behind a store in MEM, at the same address, gets the stored word. -/
def Obligations.LoadSeesTheStoreAheadOfIt : Prop :=
  ∀ (s t u : State) (si : SIns) (li : IIns) (pc pc' ea v : Word), s.fault = none → s.dmem.wf = true →
    s.memSlot = .occupied (.s si pc ea v) → exStage s = .occupied (.loadI li pc' ea) →
    step s = .next t → step t = .next u → u.wbSlot = .occupied (.loadI li pc' v)

/-! ### Faults -/

/-- R113(b), R160 to R168, R165: a step faults exactly with the first error of MEM, ID, IF in that order, and answers a
next state exactly when there is none; it never refuses. The order, the misalignment error, the branch error and the
fault of a dropped fetch are the spec's decisions D26, D21, D8, D23; that a step answers the fault is log 2. -/
def Obligations.StepFaultsWithTheFirstErrorInStageOrder : Prop :=
  ∀ s : State, s.fault = none →
    (∀ e, step s = .fault e ↔ ((memFault s).or ((idFault s).or (ifFault s))) = some e) ∧
    ((∃ t, step s = .next t) ↔ memFault s = none ∧ idFault s = none ∧ ifFault s = none)

/-- No instruction and no step is ever refused. -/
def Obligations.NothingIsRefused : Prop :=
  (∀ (i : Instr) (s : State) (r : Refusal), exec i s ≠ .refused r) ∧ ∀ (s : State) (r : Refusal), step s ≠ .refused r

/-- R122, R160, R164, R180: an edge whose step faults marks the fault, keeps IMEM and `x0`, and whatever else the state
then holds, no later edge without `rst` changes it; an edge with `rst = 1` gives the launch state. The terminal fault is
the spec's decision D26, what reset does its decision D25; the marker written by the edge and the arbitrary rest are the
model's choice (log 2), and so is `rst` as an argument of `edge` (log 15). -/
def Obligations.FaultedMachineStaysUntilReset : Prop :=
  ∀ (s : State) (e : Fault) (rest : Residue), step s = .fault e →
    let t := edge false rest s
    t.fault = some e ∧ t.faultOut = some e ∧ t.params = s.params ∧ t.regs.read 0#5 = 0#32 ∧ step t = .next t ∧
      (∀ (n : Nat) (rests : Nat → Residue), edges rests n t = t) ∧
      ∀ rest', edge true rest' t = State.launched s.params

/-- R164, "for reference": what a literal reading of R122 leaves at a fault, which `State.literalResidue` computes: WB's
write is done; an error in MEM leaves DMEM, an error in ID or IF comes after the MEM-stage store; the slots and `pc` are
as before. No other statement uses it. -/
def Obligations.LiteralStateAtAFault : Prop :=
  ∀ (s : State) (e : Fault), s.dmem.wf = true → step s = .fault e →
    let rest := s.literalResidue
    (memFault s ≠ none → (∀ r, rest.regs.read r = afterWb s r) ∧ rest.dmem = s.dmem) ∧
    (memFault s = none → ∀ a, rest.dmem.read a = afterMem s a) ∧
    (memFault s = none → idFault s ≠ none → ∀ r, rest.regs.read r = afterWb s r) ∧
    (memFault s = none → idFault s = none → ∀ r, rest.regs.read r = afterLink s r (afterWb s r)) ∧
    rest.pc = s.pc ∧ rest.ifHalted = s.ifHalted ∧ rest.idSlot = s.idSlot ∧ rest.exSlot = s.exSlot ∧ rest.memSlot = s.memSlot ∧ rest.wbSlot = s.wbSlot

/-! ### Halting -/

/-- R25(b), R152: the halted flags move one stage a cycle and are never cleared (timing: the spec's decision D27). -/
def Obligations.HaltedFlagsPropagateAndStay : Prop :=
  ∀ (s t : State), s.Inv → step s = .next t →
    t.ifHalted = (s.ifHalted || decide (s.idEvent = .haltSeen)) ∧
    t.idSlot.isHalted = (s.idSlot.isHalted || decide (s.idEvent = .haltSeen)) ∧
    t.exSlot.isHalted = s.idSlot.isHalted ∧ t.memSlot.isHalted = s.exSlot.isHalted ∧
    t.wbSlot.isHalted = s.memSlot.isHalted ∧
    (s.exSlot.isHalted = true → t.exSlot.isHalted = true) ∧ (s.memSlot.isHalted = true → t.memSlot.isHalted = true) ∧
    (s.wbSlot.isHalted = true → t.wbSlot.isHalted = true) ∧ (s.haltedOut = true → t.haltedOut = true)

/-- R152, R153, R156: with a HALT in ID and no data access of the occupants of MEM and EX in error, the machine reports
fully halted after exactly four commits; by then the occupants of WB, MEM and EX have done all their writes, the one in EX
in its WB cycle `t + 2` (`t` being the HALT's ID cycle), so that the fourth cycle writes nothing. R153 says `t + 3` of that
write, against R123, R150 and the trace E6; the model's reading is log 19. The halt timing is the spec's decision D15,
D27. -/
def Obligations.HaltDrainsInFourCycles : Prop :=
  ∀ (s : State) (f : FetchLatch), s.Inv → s.idSlot = .occupied f → decode f.word = .ok .halt → s.fetchOk = true →
    s.dataOk = true → s.exDataOk = true →
      ∃ t1 t2 t3 t4, step s = .next t1 ∧ step t1 = .next t2 ∧ step t2 = .next t3 ∧ step t3 = .next t4 ∧
        t1.haltedOut = false ∧ t2.haltedOut = false ∧ t3.haltedOut = false ∧ t4.haltedOut = true ∧ t4.pc = s.pc ∧
        (∀ r, t1.regs.read r = afterWb s r) ∧ (∀ r, t2.regs.read r = afterWb t1 r) ∧
        (∀ r, t3.regs.read r = afterWb t2 r) ∧ t4.regs = t3.regs ∧
        (∀ a, t1.dmem.read a = afterMem s a) ∧ (∀ a, t2.dmem.read a = afterMem t1 a) ∧ t4.dmem = t2.dmem

/-- R124, R154: what fully halted is; once fully halted, a step changes nothing, for any number of cycles, and only reset
leaves the state. That `step` is then the identity is the spec's decision D28, what reset does its decision D25, and `edge`
with `rst` as an argument the model's choice (log 15). -/
def Obligations.HaltedMachineIsAFixedPoint : Prop :=
  ∀ s : State,
    (s.haltedOut = true ↔ s.ifHalted = true ∧ s.idSlot = .halted ∧ s.exSlot = .halted ∧ s.memSlot = .halted ∧
      s.wbSlot = .halted) ∧
    (s.fault = none → s.haltedOut = true →
      step s = .next s ∧ (∀ n, Runs n s s) ∧ (∀ (n : Nat) (rests : Nat → Residue), edges rests n s = s) ∧
        ∀ rest, edge true rest s = State.launched s.params)

/-- R155: a run that halts is fully halted for the first time after exactly `D + L + Q + 4` steps. -/
def Obligations.HaltingRunTakesDPlusLPlusQPlusFourCycles : Prop :=
  ∀ (p : Params) (n : Nat) (t : State), Runs n (State.launched p) t → t.haltedOut = true →
    (∀ m u, m < n → Runs m (State.launched p) u → u.haltedOut = false) →
      let c := State.runCounts n (State.launched p)
      n = c.d + c.l + c.q + 4

/-! ### Against the sequential reference -/

/-- R194, R188 for one instruction: with the rest of the pipeline empty and HALT words behind it, an instruction of any
class changes the registers and DMEM exactly as its sequential effect says, and the machine then reports fully halted:
after four more cycles, five if it transfers control. -/
def Obligations.LoneInstructionHasItsSequentialEffect : Prop :=
  ∀ (s : State) (f : FetchLatch) (i : Instr) (q : SeqState), s.Inv → s.idSlot = .occupied f → decode f.word = .ok i →
    i ≠ .halt → s.exSlot = .bubble → s.memSlot = .bubble → s.wbSlot = .bubble → s.pc = f.pc + 4#32 →
    seqExec i ⟨s.params, s.regs, f.pc, s.dmem⟩ = .next q → s.fetchOk = true → seqFetch q = .ok .halt →
    isFetchable q.params (q.pc + 4#32) = true →
      ∃ t u, exec i s = .next t ∧ Runs (if transfersControl i s.regs then 5 else 4) t u ∧ u.haltedOut = true ∧
        u.regs = q.regs ∧ u.dmem = q.dmem

/-- R188 with R155's count: a program, whatever it is, whose sequential execution reaches a HALT without error after `n`
instructions, that keeps the two hazard rules (a) and (b) and whose every executed instruction has a readable word
behind it (c), is run by the pipeline to the same registers and DMEM, fully halted after exactly
`(n + 1) + L + Q + 4` steps, without a fault. -/
def Obligations.PipelineEqualsSequentialExecution : Prop :=
  ∀ (p : Params) (n : Nat) (q : SeqState), p.wf = true →
    seqAfter n (SeqState.launched p) = some q → seqFetch q = .ok .halt →
    hazardFree none none (seqTrace n (SeqState.launched p)) = true →
    (∀ k q', k ≤ n → seqAfter k (SeqState.launched p) = some q' → isFetchable p (q'.pc + 4#32) = true) →
      ∃ u, Runs (n + 1 + stallCount none (seqTrace n (SeqState.launched p)) + transferCount n (SeqState.launched p) + 4)
          (State.launched p) u ∧
        u.haltedOut = true ∧ u.regs = q.regs ∧ u.dmem = q.dmem

/-! ### Outputs -/

/-- R26, R27, R29: what the outputs show. The abstract ports are the spec's decision D29, the snapshot's contents D33, the
IF bubble flag D32. That a value which is not valid or not defined (an address or data of a fetch that is not made, a data
address without an access, the store data of an occupant without an `rs2`) is absent is the model's reading, log 18. -/
def Obligations.OutputsShowTheActiveState : Prop :=
  ∀ s : State,
    (s.haltedOut = true ↔ s.ifHalted = true ∧ s.idSlot = .halted ∧ s.exSlot = .halted ∧ s.memSlot = .halted ∧
      s.wbSlot = .halted) ∧
    s.faultOut = s.fault ∧
    (s.ports.imemAddr = if s.ifHalted then none else some s.pc) ∧
    (s.ports.imemRdata = if s.ifHalted then none else some (imemRead s.params s.pc)) ∧
    (s.ports.dmemRe = true ↔ ∃ ins pc ea, s.memSlot = .occupied (.loadI ins pc ea) ∧ s.ports.dmemAddr = some ea) ∧
    (s.ports.dmemWe = true ↔ ∃ ins pc ea v, s.memSlot = .occupied (.s ins pc ea v) ∧ s.ports.dmemAddr = some ea) ∧
    (s.ports.dmemRe = false → s.ports.dmemWe = false → s.ports.dmemAddr = none) ∧
    (s.ports.dmemWdata = match s.memSlot with
      | .occupied (.r _ _ _ v) => some v
      | .occupied (.s _ _ _ v) => some v
      | _ => none) ∧
    (∀ a, s.ports.dmemAddr = some a → s.ports.dmemRdata = some (memRead s.params.dmemSize s.dmem a)) ∧
    (s.ports.dmemAddr = none → s.ports.dmemRdata = none) ∧
    (∀ (k : Nat) (h : k < 32), s.snapshot.regs[k] = s.regs.read (BitVec.ofNat 5 k)) ∧
    s.snapshot.pc = s.pc ∧ s.snapshot.ifHalted = s.ifHalted ∧ s.snapshot.ifBubble = s.ifHalted ∧
    s.snapshot.idSlot = s.idSlot ∧ s.snapshot.exSlot = s.exSlot ∧ s.snapshot.memSlot = s.memSlot ∧
    s.snapshot.wbSlot = s.wbSlot
end

