-- ==== Sys2Proof/Laws/Decode.lean ====
section
/-! SUPPORT. The fields of an encoded word are the ones it was built from (R51, R53 to R57), and what the decoder does
with each opcode of the class table. -/

namespace Sys2Proof

/-! ### `encodeR` -/

@[simp] theorem opcodeOf_encodeR (funct7 : BitVec 7) (rs2 rs1 : Reg) (funct3 : BitVec 3) (rd : Reg) : opcodeOf (encodeR funct7 rs2 rs1 funct3 rd) = 0b0110011#7 := by
  unfold opcodeOf encodeR
  refine BitVec.eq_of_getLsbD_eq fun k hk => ?_
  simp only [BitVec.getLsbD_extractLsb', BitVec.getLsbD_append]
  interval_cases k <;> simp

@[simp] theorem rdOf_encodeR (funct7 : BitVec 7) (rs2 rs1 : Reg) (funct3 : BitVec 3) (rd : Reg) : rdOf (encodeR funct7 rs2 rs1 funct3 rd) = rd := by
  unfold rdOf encodeR
  refine BitVec.eq_of_getLsbD_eq fun k hk => ?_
  simp only [BitVec.getLsbD_extractLsb', BitVec.getLsbD_append]
  interval_cases k <;> simp

@[simp] theorem funct3Of_encodeR (funct7 : BitVec 7) (rs2 rs1 : Reg) (funct3 : BitVec 3) (rd : Reg) : funct3Of (encodeR funct7 rs2 rs1 funct3 rd) = funct3 := by
  unfold funct3Of encodeR
  refine BitVec.eq_of_getLsbD_eq fun k hk => ?_
  simp only [BitVec.getLsbD_extractLsb', BitVec.getLsbD_append]
  interval_cases k <;> simp

@[simp] theorem rs1Of_encodeR (funct7 : BitVec 7) (rs2 rs1 : Reg) (funct3 : BitVec 3) (rd : Reg) : rs1Of (encodeR funct7 rs2 rs1 funct3 rd) = rs1 := by
  unfold rs1Of encodeR
  refine BitVec.eq_of_getLsbD_eq fun k hk => ?_
  simp only [BitVec.getLsbD_extractLsb', BitVec.getLsbD_append]
  interval_cases k <;> simp

@[simp] theorem rs2Of_encodeR (funct7 : BitVec 7) (rs2 rs1 : Reg) (funct3 : BitVec 3) (rd : Reg) : rs2Of (encodeR funct7 rs2 rs1 funct3 rd) = rs2 := by
  unfold rs2Of encodeR
  refine BitVec.eq_of_getLsbD_eq fun k hk => ?_
  simp only [BitVec.getLsbD_extractLsb', BitVec.getLsbD_append]
  interval_cases k <;> simp

@[simp] theorem funct7Of_encodeR (funct7 : BitVec 7) (rs2 rs1 : Reg) (funct3 : BitVec 3) (rd : Reg) : funct7Of (encodeR funct7 rs2 rs1 funct3 rd) = funct7 := by
  unfold funct7Of encodeR
  refine BitVec.eq_of_getLsbD_eq fun k hk => ?_
  simp only [BitVec.getLsbD_extractLsb', BitVec.getLsbD_append]
  interval_cases k <;> simp

/-! ### `encodeI` -/

@[simp] theorem opcodeOf_encodeI (imm : Word) (rs1 : Reg) (funct3 : BitVec 3) (rd : Reg) (opcode : BitVec 7) : opcodeOf (encodeI imm rs1 funct3 rd opcode) = opcode := by
  unfold opcodeOf encodeI
  refine BitVec.eq_of_getLsbD_eq fun k hk => ?_
  simp only [BitVec.getLsbD_extractLsb', BitVec.getLsbD_append]
  interval_cases k <;> simp

@[simp] theorem rdOf_encodeI (imm : Word) (rs1 : Reg) (funct3 : BitVec 3) (rd : Reg) (opcode : BitVec 7) : rdOf (encodeI imm rs1 funct3 rd opcode) = rd := by
  unfold rdOf encodeI
  refine BitVec.eq_of_getLsbD_eq fun k hk => ?_
  simp only [BitVec.getLsbD_extractLsb', BitVec.getLsbD_append]
  interval_cases k <;> simp

@[simp] theorem funct3Of_encodeI (imm : Word) (rs1 : Reg) (funct3 : BitVec 3) (rd : Reg) (opcode : BitVec 7) : funct3Of (encodeI imm rs1 funct3 rd opcode) = funct3 := by
  unfold funct3Of encodeI
  refine BitVec.eq_of_getLsbD_eq fun k hk => ?_
  simp only [BitVec.getLsbD_extractLsb', BitVec.getLsbD_append]
  interval_cases k <;> simp

@[simp] theorem rs1Of_encodeI (imm : Word) (rs1 : Reg) (funct3 : BitVec 3) (rd : Reg) (opcode : BitVec 7) : rs1Of (encodeI imm rs1 funct3 rd opcode) = rs1 := by
  unfold rs1Of encodeI
  refine BitVec.eq_of_getLsbD_eq fun k hk => ?_
  simp only [BitVec.getLsbD_extractLsb', BitVec.getLsbD_append]
  interval_cases k <;> simp

/-! ### `encodeS` -/

@[simp] theorem opcodeOf_encodeS (imm : Word) (rs2 rs1 : Reg) (funct3 : BitVec 3) : opcodeOf (encodeS imm rs2 rs1 funct3) = 0b0100011#7 := by
  unfold opcodeOf encodeS
  refine BitVec.eq_of_getLsbD_eq fun k hk => ?_
  simp only [BitVec.getLsbD_extractLsb', BitVec.getLsbD_append]
  interval_cases k <;> simp

@[simp] theorem funct3Of_encodeS (imm : Word) (rs2 rs1 : Reg) (funct3 : BitVec 3) : funct3Of (encodeS imm rs2 rs1 funct3) = funct3 := by
  unfold funct3Of encodeS
  refine BitVec.eq_of_getLsbD_eq fun k hk => ?_
  simp only [BitVec.getLsbD_extractLsb', BitVec.getLsbD_append]
  interval_cases k <;> simp

@[simp] theorem rs1Of_encodeS (imm : Word) (rs2 rs1 : Reg) (funct3 : BitVec 3) : rs1Of (encodeS imm rs2 rs1 funct3) = rs1 := by
  unfold rs1Of encodeS
  refine BitVec.eq_of_getLsbD_eq fun k hk => ?_
  simp only [BitVec.getLsbD_extractLsb', BitVec.getLsbD_append]
  interval_cases k <;> simp

@[simp] theorem rs2Of_encodeS (imm : Word) (rs2 rs1 : Reg) (funct3 : BitVec 3) : rs2Of (encodeS imm rs2 rs1 funct3) = rs2 := by
  unfold rs2Of encodeS
  refine BitVec.eq_of_getLsbD_eq fun k hk => ?_
  simp only [BitVec.getLsbD_extractLsb', BitVec.getLsbD_append]
  interval_cases k <;> simp

/-! ### `encodeB` -/

@[simp] theorem opcodeOf_encodeB (imm : Word) (rs2 rs1 : Reg) (funct3 : BitVec 3) : opcodeOf (encodeB imm rs2 rs1 funct3) = 0b1100011#7 := by
  unfold opcodeOf encodeB
  refine BitVec.eq_of_getLsbD_eq fun k hk => ?_
  simp only [BitVec.getLsbD_extractLsb', BitVec.getLsbD_append]
  interval_cases k <;> simp

@[simp] theorem funct3Of_encodeB (imm : Word) (rs2 rs1 : Reg) (funct3 : BitVec 3) : funct3Of (encodeB imm rs2 rs1 funct3) = funct3 := by
  unfold funct3Of encodeB
  refine BitVec.eq_of_getLsbD_eq fun k hk => ?_
  simp only [BitVec.getLsbD_extractLsb', BitVec.getLsbD_append]
  interval_cases k <;> simp

@[simp] theorem rs1Of_encodeB (imm : Word) (rs2 rs1 : Reg) (funct3 : BitVec 3) : rs1Of (encodeB imm rs2 rs1 funct3) = rs1 := by
  unfold rs1Of encodeB
  refine BitVec.eq_of_getLsbD_eq fun k hk => ?_
  simp only [BitVec.getLsbD_extractLsb', BitVec.getLsbD_append]
  interval_cases k <;> simp

@[simp] theorem rs2Of_encodeB (imm : Word) (rs2 rs1 : Reg) (funct3 : BitVec 3) : rs2Of (encodeB imm rs2 rs1 funct3) = rs2 := by
  unfold rs2Of encodeB
  refine BitVec.eq_of_getLsbD_eq fun k hk => ?_
  simp only [BitVec.getLsbD_extractLsb', BitVec.getLsbD_append]
  interval_cases k <;> simp

/-! ### `encodeJ` -/

@[simp] theorem opcodeOf_encodeJ (imm : Word) (rd : Reg) : opcodeOf (encodeJ imm rd) = 0b1101111#7 := by
  unfold opcodeOf encodeJ
  refine BitVec.eq_of_getLsbD_eq fun k hk => ?_
  simp only [BitVec.getLsbD_extractLsb', BitVec.getLsbD_append]
  interval_cases k <;> simp

@[simp] theorem rdOf_encodeJ (imm : Word) (rd : Reg) : rdOf (encodeJ imm rd) = rd := by
  unfold rdOf encodeJ
  refine BitVec.eq_of_getLsbD_eq fun k hk => ?_
  simp only [BitVec.getLsbD_extractLsb', BitVec.getLsbD_append]
  interval_cases k <;> simp

end Sys2Proof
end

