-- ==== Sys2Proof/Laws/Memory.lean ====
section
/-! SUPPORT. What the stores do: read after write, canonical form and bounds kept, words, and when an access succeeds. -/

namespace Sys2Proof.Machine

/-! ### Bytes -/

@[simp] theorem Memory.read_nil (a : Nat) : Memory.read [] a = Config.unlistedByte := rfl

theorem Memory.read_of_lt {lo a : Nat} {m : Memory} (h : m.wfFrom lo) (ha : a < lo) :
    m.read a = Config.unlistedByte := by
  induction m generalizing lo with
  | nil => rfl
  | cons c rest ih =>
    obtain ⟨k, b⟩ := c
    simp only [Memory.wfFrom, Bool.and_eq_true, decide_eq_true_eq] at h
    have hk : k ≠ a := by omega
    simp only [Memory.read, if_neg hk]
    exact ih h.2 (by omega)

theorem Memory.wfFrom_mono {lo lo' : Nat} {m : Memory} (h : m.wfFrom lo) (hl : lo' ≤ lo) : m.wfFrom lo' := by
  cases m with
  | nil => rfl
  | cons c rest =>
    obtain ⟨k, b⟩ := c
    simp only [Memory.wfFrom, Bool.and_eq_true, decide_eq_true_eq] at h ⊢
    exact ⟨⟨by omega, h.1.2⟩, h.2⟩

theorem Memory.write_wfFrom {lo a : Nat} {m : Memory} (v : Byte) (h : m.wfFrom lo) (ha : lo ≤ a) :
    (m.write a v).wfFrom lo := by
  induction m generalizing lo with
  | nil =>
    by_cases hv : v = Config.unlistedByte <;> simp [Memory.write, Memory.wfFrom, hv, ha]
  | cons c rest ih =>
    obtain ⟨k, b⟩ := c
    simp only [Memory.wfFrom, Bool.and_eq_true, decide_eq_true_eq] at h
    obtain ⟨⟨hk, hb⟩, hrest⟩ := h
    unfold Memory.write
    split
    · next hlt =>
      split
      · simp [Memory.wfFrom, hk, hb, hrest]
      · next hv => simp [Memory.wfFrom, ha, hv, hb, hrest, Nat.succ_le_of_lt hlt]
    · split
      · next heq =>
        split
        · exact Memory.wfFrom_mono hrest (by omega)
        · next hv => subst heq; simp [Memory.wfFrom, ha, hv, hrest]
      · next hlt hne =>
        simp only [Memory.wfFrom, Bool.and_eq_true, decide_eq_true_eq]
        exact ⟨⟨hk, hb⟩, ih hrest (by omega)⟩

/-- A byte write keeps the canonical form. -/
theorem Memory.write_wf {m : Memory} (a : Nat) (v : Byte) (h : m.wf) : (m.write a v).wf :=
  Memory.write_wfFrom v h (Nat.zero_le a)

theorem Memory.read_write_from {lo a : Nat} {m : Memory} (v : Byte) (h : m.wfFrom lo) (b : Nat) :
    (m.write a v).read b = if b = a then v else m.read b := by
  induction m generalizing lo with
  | nil =>
    by_cases hv : v = Config.unlistedByte <;> by_cases hb : b = a <;> simp [Memory.write, Memory.read, hv, hb]
    exact fun h => absurd h.symm hb
  | cons c rest ih =>
    obtain ⟨k, w⟩ := c
    simp only [Memory.wfFrom, Bool.and_eq_true, decide_eq_true_eq] at h
    obtain ⟨⟨_, _⟩, hrest⟩ := h
    unfold Memory.write
    split
    · next hlt =>
      split
      · next hv =>
        split
        · next hb =>
          have hk : k ≠ a := by omega
          simp only [hb, Memory.read, if_neg hk, hv]
          exact Memory.read_of_lt hrest (by omega)
        · rfl
      · by_cases hb : b = a
        · simp [Memory.read, hb]
        · have : a ≠ b := fun h => hb h.symm
          simp [Memory.read, hb, this]
    · split
      · next hak =>
        subst hak
        split
        · next hv =>
          by_cases hb : b = a
          · simp only [hb, hv, if_pos]
            exact Memory.read_of_lt hrest (by omega)
          · have : a ≠ b := fun h => hb h.symm
            simp [Memory.read, hb, this]
        · by_cases hb : b = a
          · simp [Memory.read, hb]
          · have : a ≠ b := fun h => hb h.symm
            simp [Memory.read, hb, this]
      · next hlt hne =>
        by_cases hk : k = b
        · have : b ≠ a := by omega
          simp [Memory.read, hk, this]
        · simp only [Memory.read, if_neg hk]
          exact ih hrest

/-- A byte read after a byte write. -/
theorem Memory.read_write {m : Memory} (h : m.wf) (a : Nat) (v : Byte) (b : Nat) :
    (m.write a v).read b = if b = a then v else m.read b :=
  Memory.read_write_from v h b

theorem Memory.ext_from {lo : Nat} {m m' : Memory} (h : m.wfFrom lo) (h' : m'.wfFrom lo)
    (hr : ∀ a, m.read a = m'.read a) : m = m' := by
  induction m generalizing lo m' with
  | nil =>
    cases m' with
    | nil => rfl
    | cons c rest =>
      obtain ⟨k, b⟩ := c
      simp only [Memory.wfFrom, Bool.and_eq_true, decide_eq_true_eq] at h'
      have := hr k
      simp only [Memory.read, if_pos] at this
      exact absurd this.symm h'.1.2
  | cons c rest ih =>
    obtain ⟨k, b⟩ := c
    cases m' with
    | nil =>
      simp only [Memory.wfFrom, Bool.and_eq_true, decide_eq_true_eq] at h
      have := hr k
      simp only [Memory.read, if_pos] at this
      exact absurd this h.1.2
    | cons c' rest' =>
      obtain ⟨k', b'⟩ := c'
      simp only [Memory.wfFrom, Bool.and_eq_true, decide_eq_true_eq] at h h'
      have hk : k = k' := by
        rcases Nat.lt_trichotomy k k' with hlt | heq | hgt
        · have h1 := hr k
          have hne : k' ≠ k := by omega
          simp only [Memory.read, if_pos, if_neg hne] at h1
          rw [Memory.read_of_lt h'.2 (by omega)] at h1
          exact absurd h1 h.1.2
        · exact heq
        · have h1 := hr k'
          have hne : k ≠ k' := by omega
          simp only [Memory.read, if_pos, if_neg hne] at h1
          rw [Memory.read_of_lt h.2 (by omega)] at h1
          exact absurd h1.symm h'.1.2
      subst hk
      have hb : b = b' := by simpa [Memory.read] using hr k
      subst hb
      congr 1
      refine ih h.2 h'.2 fun a => ?_
      by_cases ha : k = a
      · subst ha
        rw [Memory.read_of_lt h.2 (Nat.lt_succ_self k), Memory.read_of_lt h'.2 (Nat.lt_succ_self k)]
      · simpa [Memory.read, ha] using hr a

/-- Canonical stores that read alike are the same data. -/
theorem Memory.ext_read {m m' : Memory} (h : m.wf) (h' : m'.wf) (hr : ∀ a, m.read a = m'.read a) : m = m' :=
  Memory.ext_from h h' hr

/-- A byte write inside a store keeps every listed address inside it. -/
theorem Memory.write_within {m : Memory} {size a : Nat} (v : Byte) (h : m.within size) (ha : a < size) :
    (m.write a v).within size := by
  induction m with
  | nil => by_cases hv : v = Config.unlistedByte <;> simp [Memory.write, Memory.within, hv, ha]
  | cons c rest ih =>
    obtain ⟨k, b⟩ := c
    simp only [Memory.within, List.all_cons, Bool.and_eq_true, decide_eq_true_eq] at h ih ⊢
    unfold Memory.write
    split
    · split <;> simp [h, ha]
    · split
      · split
        · exact h.2
        · simp only [List.all_cons, Bool.and_eq_true, decide_eq_true_eq]; exact ⟨ha, h.2⟩
      · simp only [List.all_cons, Bool.and_eq_true, decide_eq_true_eq]
        exact ⟨h.1, ih h.2⟩

/-! ### Runs of bytes -/

theorem Memory.writeBytes_wf {m : Memory} (a : Nat) (bytes : List Byte) (h : m.wf) : (m.writeBytes a bytes).wf := by
  induction bytes generalizing m a with
  | nil => exact h
  | cons b rest ih => exact ih (a + 1) (Memory.write_wf a b h)

theorem Memory.writeBytes_within {m : Memory} {size : Nat} (a : Nat) (bytes : List Byte) (h : m.within size)
    (ha : a + bytes.length ≤ size) : (m.writeBytes a bytes).within size := by
  induction bytes generalizing m a with
  | nil => exact h
  | cons b rest ih =>
    simp only [List.length_cons] at ha
    exact ih (a + 1) (Memory.write_within b h (by omega)) (by omega)

/-- Bytes below a written run read as before. -/
theorem Memory.read_writeBytes_below {m : Memory} {a b : Nat} (bytes : List Byte) (h : m.wf) (hb : b < a) :
    (m.writeBytes a bytes).read b = m.read b := by
  induction bytes generalizing m a with
  | nil => rfl
  | cons v rest ih =>
    simp only [Memory.writeBytes]
    rw [ih (Memory.write_wf a v h) (by omega), Memory.read_write h, if_neg (by omega)]

/-- Bytes outside a written run read as before. -/
theorem Memory.read_writeBytes_outside {m : Memory} {a b : Nat} (bytes : List Byte) (h : m.wf)
    (hb : b < a ∨ a + bytes.length ≤ b) : (m.writeBytes a bytes).read b = m.read b := by
  induction bytes generalizing m a with
  | nil => rfl
  | cons v rest ih =>
    simp only [List.length_cons] at hb
    simp only [Memory.writeBytes]
    rw [ih (Memory.write_wf a v h) (by omega), Memory.read_write h, if_neg (by omega)]

/-- Byte `k` of a written run. -/
theorem Memory.read_writeBytes_inside {m : Memory} {a k : Nat} (bytes : List Byte) (h : m.wf) (hk : k < bytes.length) :
    (m.writeBytes a bytes).read (a + k) = bytes[k] := by
  induction bytes generalizing m a k with
  | nil => exact absurd hk (Nat.not_lt_zero k)
  | cons v rest ih =>
    simp only [Memory.writeBytes]
    cases k with
    | zero =>
      have hb : a + 0 < a + 1 := by omega
      rw [Memory.read_writeBytes_below rest (Memory.write_wf a v h) hb, Memory.read_write h, if_pos (by omega)]
      rfl
    | succ j =>
      have : a + (j + 1) = a + 1 + j := by omega
      rw [this, ih (Memory.write_wf a v h) (by simpa using hk)]
      rfl

/-- An image laid out from address 0 reads back byte by byte (R46). -/
theorem Memory.ofImage_read (bytes : List Byte) (k : Nat) (hk : k < bytes.length) :
    (Memory.ofImage bytes).read k = bytes[k] := by
  have := Memory.read_writeBytes_inside (m := []) (a := 0) bytes rfl hk
  simpa [Memory.ofImage] using this

theorem Memory.ofImage_wf (bytes : List Byte) : (Memory.ofImage bytes).wf := Memory.writeBytes_wf 0 bytes rfl

/-! ### Words -/

theorem wordOfBytes_byteOfWord (w : Word) :
    wordOfBytes (byteOfWord w 0) (byteOfWord w 1) (byteOfWord w 2) (byteOfWord w 3) = w := by
  unfold wordOfBytes byteOfWord
  ext i hi
  simp only [BitVec.getElem_append, BitVec.getElem_extractLsb']
  rw [← BitVec.getLsbD_eq_getElem hi]
  split
  · next h => congr 1; omega
  · split
    · congr 1; omega
    · split <;> · congr 1; omega

/-- A word write keeps the canonical form. -/
theorem Memory.writeWord_wf {m : Memory} (a : Nat) (v : Word) (h : m.wf) : (m.writeWord a v).wf :=
  Memory.writeBytes_wf a (wordBytes v) h

theorem Memory.writeWord_within {m : Memory} {size : Nat} (a : Nat) (v : Word) (h : m.within size)
    (ha : a + 4 ≤ size) : (m.writeWord a v).within size :=
  Memory.writeBytes_within a (wordBytes v) h ha

/-- A word write leaves every byte outside its four as it was (R37). -/
theorem Memory.read_writeWord_outside {m : Memory} (h : m.wf) (a : Nat) (v : Word) {b : Nat}
    (hb : b < a ∨ a + 4 ≤ b) : (m.writeWord a v).read b = m.read b :=
  Memory.read_writeBytes_outside (wordBytes v) h hb

/-- The four bytes of a written word, most significant first (R33, R37). -/
theorem Memory.read_writeWord_inside {m : Memory} (h : m.wf) (a : Nat) (v : Word) {k : Nat} (hk : k < 4) :
    (m.writeWord a v).read (a + k) = byteOfWord v k := by
  have hk' : k < (wordBytes v).length := hk
  rw [Memory.writeWord, Memory.read_writeBytes_inside _ h hk']
  match k, hk with
  | 0, _ => rfl
  | 1, _ => rfl
  | 2, _ => rfl
  | 3, _ => rfl

/-- A word read back from where it was written (R33, R41). -/
theorem Memory.readWord_writeWord {m : Memory} (h : m.wf) (a : Nat) (v : Word) :
    (m.writeWord a v).readWord a = v := by
  have e0 := Memory.read_writeWord_inside h a v (k := 0) (by omega)
  have e1 := Memory.read_writeWord_inside h a v (k := 1) (by omega)
  have e2 := Memory.read_writeWord_inside h a v (k := 2) (by omega)
  have e3 := Memory.read_writeWord_inside h a v (k := 3) (by omega)
  rw [Nat.add_zero] at e0
  rw [Memory.readWord, e0, e1, e2, e3, wordOfBytes_byteOfWord]

/-- A word that does not overlap the written one reads as before. -/
theorem Memory.readWord_writeWord_apart {m : Memory} (h : m.wf) (a : Nat) (v : Word) {b : Nat}
    (hb : b + 4 ≤ a ∨ a + 4 ≤ b) : (m.writeWord a v).readWord b = m.readWord b := by
  have e0 := Memory.read_writeWord_outside h a v (b := b) (by omega)
  have e1 := Memory.read_writeWord_outside h a v (b := b + 1) (by omega)
  have e2 := Memory.read_writeWord_outside h a v (b := b + 2) (by omega)
  have e3 := Memory.read_writeWord_outside h a v (b := b + 3) (by omega)
  rw [Memory.readWord, e0, e1, e2, e3, Memory.readWord]

/-! ### Access -/

theorem toNat_mod_four (a : Word) : (a.extractLsb' 0 2 = 0#2) ↔ a.toNat % 4 = 0 := by
  rw [← BitVec.toNat_inj]
  simp [BitVec.extractLsb'_toNat]

/-- The three outcomes of the check (R32, R34). -/
theorem checkAccess_eq (size : Nat) (a : Word) :
    checkAccess size a =
      if a.toNat % 4 ≠ 0 then .error .misaligned else if size ≤ a.toNat + 3 then .error .outOfBounds else .ok a.toNat := by
  simp only [checkAccess, ne_eq, toNat_mod_four]

/-- When an access succeeds, and with which byte index (R32, R34). -/
theorem checkAccess_ok_iff {size : Nat} {a : Word} {k : Nat} :
    checkAccess size a = .ok k ↔ a.toNat % 4 = 0 ∧ a.toNat + 3 < size ∧ k = a.toNat := by
  rw [checkAccess_eq]
  by_cases h1 : a.toNat % 4 = 0 <;> by_cases h2 : size ≤ a.toNat + 3
  · simp [h1, h2, Nat.not_lt.mpr h2]
  · simp [h1, h2, Nat.lt_of_not_le h2, eq_comm]
  · simp [h1]
  · simp [h1]

/-- When an access fails, and how: misalignment is reported first (R34). -/
theorem checkAccess_error_iff {size : Nat} {a : Word} {e : Fault} :
    checkAccess size a = .error e ↔
      (a.toNat % 4 ≠ 0 ∧ e = .misaligned) ∨ (a.toNat % 4 = 0 ∧ size ≤ a.toNat + 3 ∧ e = .outOfBounds) := by
  rw [checkAccess_eq]
  by_cases h1 : a.toNat % 4 = 0 <;> by_cases h2 : size ≤ a.toNat + 3
  · simp [h1, h2, eq_comm]
  · simp [h1, h2]
  · simp [h1, eq_comm]
  · simp [h1, eq_comm]

/-- `IMemRead` succeeds exactly on aligned addresses in bounds (R35). -/
theorem imemRead_ok_iff {p : Params} {a w : Word} :
    imemRead p a = .ok w ↔ a.toNat % 4 = 0 ∧ a.toNat + 3 < p.imemSize ∧ w = p.imem.readWord a.toNat := by
  unfold imemRead
  cases h : checkAccess p.imemSize a with
  | ok k => obtain ⟨h1, h2, rfl⟩ := checkAccess_ok_iff.mp h; simp [h1, h2, eq_comm]
  | error e =>
    simp only [reduceCtorEq, false_iff]
    rintro ⟨h1, h2, -⟩
    rw [checkAccess_ok_iff.mpr ⟨h1, h2, rfl⟩] at h
    cases h

/-- `MemRead` succeeds exactly on aligned addresses in bounds (R36). -/
theorem memRead_ok_iff {size : Nat} {d : Memory} {a w : Word} :
    memRead size d a = .ok w ↔ a.toNat % 4 = 0 ∧ a.toNat + 3 < size ∧ w = d.readWord a.toNat := by
  unfold memRead
  cases h : checkAccess size a with
  | ok k => obtain ⟨h1, h2, rfl⟩ := checkAccess_ok_iff.mp h; simp [h1, h2, eq_comm]
  | error e =>
    simp only [reduceCtorEq, false_iff]
    rintro ⟨h1, h2, -⟩
    rw [checkAccess_ok_iff.mpr ⟨h1, h2, rfl⟩] at h
    cases h

/-- `MemWrite` succeeds exactly on aligned addresses in bounds (R37). -/
theorem memWrite_ok_iff {size : Nat} {d d' : Memory} {a v : Word} :
    memWrite size d a v = .ok d' ↔ a.toNat % 4 = 0 ∧ a.toNat + 3 < size ∧ d' = d.writeWord a.toNat v := by
  unfold memWrite
  cases h : checkAccess size a with
  | ok k => obtain ⟨h1, h2, rfl⟩ := checkAccess_ok_iff.mp h; simp [h1, h2, eq_comm]
  | error e =>
    simp only [reduceCtorEq, false_iff]
    rintro ⟨h1, h2, -⟩
    rw [checkAccess_ok_iff.mpr ⟨h1, h2, rfl⟩] at h
    cases h

/-- A store that succeeds keeps the canonical form and the bounds of DMEM. -/
theorem memWrite_keeps {size : Nat} {d d' : Memory} {a v : Word} (h : memWrite size d a v = .ok d') (hw : d.wf)
    (hi : d.within size) : d'.wf ∧ d'.within size := by
  obtain ⟨-, hb, rfl⟩ := memWrite_ok_iff.mp h
  exact ⟨Memory.writeWord_wf _ v hw, Memory.writeWord_within _ v hi (by omega)⟩

end Sys2Proof.Machine
end

