-- ==== Sys2Proof/Laws/Regs.lean ====
section
/-! SUPPORT. The register file: register 0, read after write (R11). -/

namespace Sys2Proof.Machine

@[simp] theorem RegFile.read_zero (x : RegFile) : x.read 0#5 = 0#32 := if_pos rfl

@[simp] theorem RegFile.write_zero (x : RegFile) (v : Word) : x.write 0#5 v = x := if_pos rfl

theorem regIndex_inj {i j : Reg} (hi : i ≠ 0#5) (hj : j ≠ 0#5) (h : i.toNat - 1 = j.toNat - 1) : i = j := by
  have h1 : i.toNat ≠ 0 := fun h0 => hi (BitVec.eq_of_toNat_eq (by simpa using h0))
  have h2 : j.toNat ≠ 0 := fun h0 => hj (BitVec.eq_of_toNat_eq (by simpa using h0))
  exact BitVec.eq_of_toNat_eq (by omega)

/-- A read after a write (R11): the written value, unless the register is register 0 or another one. -/
theorem RegFile.read_write (x : RegFile) (i j : Reg) (v : Word) :
    (x.write i v).read j = if j = i ∧ i ≠ 0#5 then v else x.read j := by
  by_cases hi : i = 0#5
  · simp [hi]
  · by_cases hj : j = 0#5
    · subst hj
      have : ¬((0#5 : Reg) = i) := fun h => hi h.symm
      simp [this]
    · by_cases hji : j = i
      · subst hji
        simp [RegFile.read, RegFile.write, hi]
      · have hne : i.toNat - 1 ≠ j.toNat - 1 := fun h => hji (regIndex_inj hi hj h).symm
        simp [RegFile.read, RegFile.write, hi, hj, hji, Vector.getElem_set_ne _ _ hne]

theorem RegFile.read_write_same (x : RegFile) {i : Reg} (hi : i ≠ 0#5) (v : Word) : (x.write i v).read i = v := by
  rw [RegFile.read_write, if_pos ⟨rfl, hi⟩]

theorem RegFile.read_write_other (x : RegFile) {i j : Reg} (h : j ≠ i) (v : Word) : (x.write i v).read j = x.read j := by
  rw [RegFile.read_write, if_neg fun hc => h hc.1]

/-- Register files that read alike are the same data. -/
theorem RegFile.ext_read {x y : RegFile} (h : ∀ i : Reg, x.read i = y.read i) : x = y := by
  refine Vector.ext fun k hk => ?_
  have ht : (BitVec.ofNat 5 (k + 1)).toNat = k + 1 := by
    rw [BitVec.toNat_ofNat]
    omega
  have hne : BitVec.ofNat 5 (k + 1) ≠ 0#5 := by
    intro h0
    rw [h0] at ht
    simp at ht
  have hk' : (BitVec.ofNat 5 (k + 1)).toNat - 1 = k := by omega
  have := h (BitVec.ofNat 5 (k + 1))
  simpa only [RegFile.read, if_neg hne, hk'] using this

end Sys2Proof.Machine
end

