-- ==== Sys2Proof/Laws/State.lean ====
section
/-! SUPPORT. One lemma per field per update of State, each true by `rfl`. -/

namespace Sys2Proof.Machine

/-! ### The launch state -/

@[simp] theorem State.launched_params (p : Params) : (State.launched p).params = p := rfl
@[simp] theorem State.launched_regs (p : Params) : (State.launched p).regs = p.xInit := rfl
@[simp] theorem State.launched_pc (p : Params) : (State.launched p).pc = Config.resetPc := rfl
@[simp] theorem State.launched_ifHalted (p : Params) : (State.launched p).ifHalted = false := rfl
@[simp] theorem State.launched_idSlot (p : Params) : (State.launched p).idSlot = .bubble := rfl
@[simp] theorem State.launched_exSlot (p : Params) : (State.launched p).exSlot = .bubble := rfl
@[simp] theorem State.launched_memSlot (p : Params) : (State.launched p).memSlot = .bubble := rfl
@[simp] theorem State.launched_wbSlot (p : Params) : (State.launched p).wbSlot = .bubble := rfl
@[simp] theorem State.launched_dmem (p : Params) : (State.launched p).dmem = p.dmemInit := rfl
@[simp] theorem State.launched_fault (p : Params) : (State.launched p).fault = none := rfl

/-! ### The commit of a cycle -/

@[simp] theorem commit_params (s : State) (d : IdOut) (wb : Slot WbLatch) (m : Memory) (f : FetchOut) : (commit s d wb m f).params = s.params := rfl
@[simp] theorem commit_regs (s : State) (d : IdOut) (wb : Slot WbLatch) (m : Memory) (f : FetchOut) : (commit s d wb m f).regs = d.regs := rfl
@[simp] theorem commit_pc (s : State) (d : IdOut) (wb : Slot WbLatch) (m : Memory) (f : FetchOut) : (commit s d wb m f).pc = f.pc := rfl
@[simp] theorem commit_ifHalted (s : State) (d : IdOut) (wb : Slot WbLatch) (m : Memory) (f : FetchOut) : (commit s d wb m f).ifHalted = f.halted := rfl
@[simp] theorem commit_idSlot (s : State) (d : IdOut) (wb : Slot WbLatch) (m : Memory) (f : FetchOut) : (commit s d wb m f).idSlot = f.idSlot := rfl
@[simp] theorem commit_exSlot (s : State) (d : IdOut) (wb : Slot WbLatch) (m : Memory) (f : FetchOut) : (commit s d wb m f).exSlot = d.ex := rfl
@[simp] theorem commit_memSlot (s : State) (d : IdOut) (wb : Slot WbLatch) (m : Memory) (f : FetchOut) : (commit s d wb m f).memSlot = exStage s := rfl
@[simp] theorem commit_wbSlot (s : State) (d : IdOut) (wb : Slot WbLatch) (m : Memory) (f : FetchOut) : (commit s d wb m f).wbSlot = wb := rfl
@[simp] theorem commit_dmem (s : State) (d : IdOut) (wb : Slot WbLatch) (m : Memory) (f : FetchOut) : (commit s d wb m f).dmem = m := rfl
@[simp] theorem commit_fault (s : State) (d : IdOut) (wb : Slot WbLatch) (m : Memory) (f : FetchOut) : (commit s d wb m f).fault = s.fault := rfl

/-! ### A presented word -/

@[simp] theorem presentWord_regs (s : State) (w : Word) : (presentWord s w).regs = s.regs := rfl
@[simp] theorem presentWord_pc (s : State) (w : Word) : (presentWord s w).pc = s.pc + 4#32 := rfl
@[simp] theorem presentWord_ifHalted (s : State) (w : Word) : (presentWord s w).ifHalted = false := rfl
@[simp] theorem presentWord_idSlot (s : State) (w : Word) : (presentWord s w).idSlot = .occupied ⟨w, s.pc⟩ := rfl
@[simp] theorem presentWord_exSlot (s : State) (w : Word) : (presentWord s w).exSlot = s.exSlot := rfl
@[simp] theorem presentWord_memSlot (s : State) (w : Word) : (presentWord s w).memSlot = s.memSlot := rfl
@[simp] theorem presentWord_wbSlot (s : State) (w : Word) : (presentWord s w).wbSlot = s.wbSlot := rfl
@[simp] theorem presentWord_dmem (s : State) (w : Word) : (presentWord s w).dmem = s.dmem := rfl
@[simp] theorem presentWord_fault (s : State) (w : Word) : (presentWord s w).fault = none := rfl

/-! ### After a fault -/

@[simp] theorem State.faulted_params (s : State) (e : Fault) (rest : Residue) : (State.faulted s e rest).params = s.params := rfl
@[simp] theorem State.faulted_regs (s : State) (e : Fault) (rest : Residue) : (State.faulted s e rest).regs = rest.regs := rfl
@[simp] theorem State.faulted_pc (s : State) (e : Fault) (rest : Residue) : (State.faulted s e rest).pc = rest.pc := rfl
@[simp] theorem State.faulted_ifHalted (s : State) (e : Fault) (rest : Residue) : (State.faulted s e rest).ifHalted = rest.ifHalted := rfl
@[simp] theorem State.faulted_idSlot (s : State) (e : Fault) (rest : Residue) : (State.faulted s e rest).idSlot = rest.idSlot := rfl
@[simp] theorem State.faulted_exSlot (s : State) (e : Fault) (rest : Residue) : (State.faulted s e rest).exSlot = rest.exSlot := rfl
@[simp] theorem State.faulted_memSlot (s : State) (e : Fault) (rest : Residue) : (State.faulted s e rest).memSlot = rest.memSlot := rfl
@[simp] theorem State.faulted_wbSlot (s : State) (e : Fault) (rest : Residue) : (State.faulted s e rest).wbSlot = rest.wbSlot := rfl
@[simp] theorem State.faulted_dmem (s : State) (e : Fault) (rest : Residue) : (State.faulted s e rest).dmem = rest.dmem := rfl
@[simp] theorem State.faulted_fault (s : State) (e : Fault) (rest : Residue) : (State.faulted s e rest).fault = some e := rfl

/-! ### The launch state of the sequential reference -/

@[simp] theorem SeqState.launched_params (p : Params) : (SeqState.launched p).params = p := rfl
@[simp] theorem SeqState.launched_regs (p : Params) : (SeqState.launched p).regs = p.xInit := rfl
@[simp] theorem SeqState.launched_pc (p : Params) : (SeqState.launched p).pc = Config.resetPc := rfl
@[simp] theorem SeqState.launched_dmem (p : Params) : (SeqState.launched p).dmem = p.dmemInit := rfl

end Sys2Proof.Machine
end

