-- ==== Sys2Proof/Laws/Stages.lean ====
section
/-! SUPPORT. What each stage and one whole cycle can do, said once (R114 to R122). -/

namespace Sys2Proof.Machine

/-! ### WB -/

/-- WB writes at most one register, and which (R114). -/
theorem wbStage_cases (s : State) :
    wbStage s = s.regs ∨
      ∃ l rd v, s.wbSlot = .occupied l ∧ l.ins.rd = some rd ∧ l.wrtData = some v ∧ wbStage s = s.regs.write rd v := by
  unfold wbStage
  cases h : s.wbSlot with
  | bubble => exact .inl rfl
  | halted => exact .inl rfl
  | occupied l => cases l <;> simp [WbLatch.ins, WbLatch.wrtData, Decoded.rd, Decoded.cls, ctrl]

theorem wbStage_r {s : State} {ins pc v} (h : s.wbSlot = .occupied (.r ins pc v)) :
    wbStage s = s.regs.write ins.rd v := by simp [wbStage, h, WbLatch.ins, WbLatch.wrtData, Decoded.rd, Decoded.cls, ctrl]

theorem wbStage_i {s : State} {ins pc v} (h : s.wbSlot = .occupied (.i ins pc v)) :
    wbStage s = s.regs.write ins.rd v := by simp [wbStage, h, WbLatch.ins, WbLatch.wrtData, Decoded.rd, Decoded.cls, ctrl]

theorem wbStage_loadI {s : State} {ins pc v} (h : s.wbSlot = .occupied (.loadI ins pc v)) :
    wbStage s = s.regs.write ins.rd v := by simp [wbStage, h, WbLatch.ins, WbLatch.wrtData, Decoded.rd, Decoded.cls, ctrl]

theorem wbStage_s {s : State} {ins pc} (h : s.wbSlot = .occupied (.s ins pc)) : wbStage s = s.regs := by
  simp [wbStage, h, WbLatch.ins, Decoded.rd]

theorem wbStage_b {s : State} {ins pc} (h : s.wbSlot = .occupied (.b ins pc)) : wbStage s = s.regs := by
  simp [wbStage, h, WbLatch.ins, Decoded.rd]

theorem wbStage_j {s : State} {ins pc} (h : s.wbSlot = .occupied (.j ins pc)) : wbStage s = s.regs := by
  simp [wbStage, h, WbLatch.ins, WbLatch.wrtData, Decoded.rd]

@[simp] theorem wbStage_bubble {s : State} (h : s.wbSlot = .bubble) : wbStage s = s.regs := by simp [wbStage, h]

@[simp] theorem wbStage_halted {s : State} (h : s.wbSlot = .halted) : wbStage s = s.regs := by simp [wbStage, h]

/-! ### MEM -/

/-- What a MEM stage that succeeds does (R115): a store writes one word, nothing else touches DMEM. -/
theorem memStage_ok {s : State} {wb : Slot WbLatch} {d : Memory} (h : memStage s = .ok (wb, d)) :
    d = s.dmem ∨
      ∃ ins pc ea v, s.memSlot = .occupied (.s ins pc ea v) ∧ ea.toNat % 4 = 0 ∧ ea.toNat + 3 < s.params.dmemSize ∧
        d = s.dmem.writeWord ea.toNat v := by
  unfold memStage at h
  split at h
  · cases h; exact .inl rfl
  · cases h; exact .inl rfl
  · next l hl =>
    unfold memAccess at h
    split at h <;> rename_i heq
    · cases h
      split at heq
      · split at heq <;> cases heq
        exact .inl rfl
      · split at heq <;> cases heq
        next hm =>
          obtain ⟨h1, h2, h3⟩ := memWrite_ok_iff.mp hm
          exact .inr ⟨_, _, _, _, hl, h1, h2, h3⟩
      all_goals cases heq; exact .inl rfl
    · cases h

/-- A MEM stage that succeeds keeps the canonical form and the bounds of DMEM. -/
theorem memStage_keeps {s : State} {wb : Slot WbLatch} {d : Memory} (h : memStage s = .ok (wb, d)) (hw : s.dmem.wf)
    (hi : s.dmem.within s.params.dmemSize) : d.wf ∧ d.within s.params.dmemSize := by
  rcases memStage_ok h with rfl | ⟨_, _, ea, v, _, _, hb, rfl⟩
  · exact ⟨hw, hi⟩
  · exact ⟨Memory.writeWord_wf _ v hw, Memory.writeWord_within _ v hi (by omega)⟩

/-- The WB slot a MEM stage leaves, empty or not, as its own slot was (R115). -/
theorem memStage_slot {s : State} {wb : Slot WbLatch} {d : Memory} (h : memStage s = .ok (wb, d)) :
    (s.memSlot = .bubble ∧ wb = .bubble) ∨ (s.memSlot = .halted ∧ wb = .halted) ∨
      ∃ l l', s.memSlot = .occupied l ∧ wb = .occupied l' ∧ l'.ins = l.ins := by
  unfold memStage at h
  split at h
  · next hl => cases h; exact .inl ⟨hl, rfl⟩
  · next hl => cases h; exact .inr (.inl ⟨hl, rfl⟩)
  · next l hl =>
    split at h <;> rename_i heq
    · cases h
      refine .inr (.inr ⟨l, _, hl, rfl, ?_⟩)
      unfold memAccess at heq
      split at heq
      · split at heq <;> cases heq
        rfl
      · split at heq <;> cases heq
        rfl
      all_goals cases heq; rfl
    · cases h

/-! ### EX -/

theorem exAction_ins (s : State) (l : ExLatch) : (exAction s l).ins = l.ins := by cases l <;> rfl

/-- `fwd` in one line (R132). -/
theorem fwd_eq (s : State) (r : Reg) (v : Word) : fwd s r v = ((forwardMem s r).or (forwardWb s r)).getD v := by
  unfold fwd
  cases forwardMem s r <;> cases forwardWb s r <;> rfl

/-- Register 0 is never forwarded (R135). -/
@[simp] theorem fwd_zero (s : State) (v : Word) : fwd s 0#5 v = v := by
  have h1 : forwardMem s 0#5 = none := by
    unfold forwardMem
    split <;> simp [srcMatch]
  have h2 : forwardWb s 0#5 = none := by
    unfold forwardWb
    split <;> simp [srcMatch]
  rw [fwd_eq, h1, h2]
  rfl

/-! ### IF and arbitration -/

@[simp] theorem arbitrate_advance (s : State) (w : Word) :
    arbitrate s .advance w = ⟨s.pc + 4#32, false, .occupied ⟨w, s.pc⟩⟩ := rfl
@[simp] theorem arbitrate_stall (s : State) (w : Word) : arbitrate s .stall w = ⟨s.pc, false, s.idSlot⟩ := rfl
@[simp] theorem arbitrate_redirect (s : State) (t w : Word) : arbitrate s (.redirect t) w = ⟨t, false, .bubble⟩ := rfl
@[simp] theorem arbitrate_haltSeen (s : State) (w : Word) : arbitrate s .haltSeen w = ⟨s.pc, true, .halted⟩ := rfl

/-- What the IF stage answers when it does not fault (R120, R121). -/
theorem ifStage_ok_iff {s : State} {ctl : FetchCtl} {f : FetchOut} :
    ifStage s ctl = .ok f ↔
      (s.ifHalted = true ∧ f = ⟨s.pc, true, s.idSlot⟩) ∨
        (s.ifHalted = false ∧ ∃ w, imemRead s.params s.pc = .ok w ∧ f = arbitrate s ctl w) := by
  unfold ifStage
  cases s.ifHalted with
  | true => simp [eq_comm]
  | false =>
    cases imemRead s.params s.pc with
    | ok w => simp [eq_comm]
    | error e => simp

/-! ### One cycle -/

/-- A cycle answers a next state exactly when MEM, ID and IF all succeed, and this is the state (R122). -/
theorem cycle_next_iff {s t : State} {act : RegFile → Except Fault IdOut} :
    cycle s act = .next t ↔
      ∃ wb m d f, memStage s = .ok (wb, m) ∧ act (wbStage s) = .ok d ∧ ifStage s d.ctl = .ok f ∧ t = commit s d wb m f := by
  unfold cycle raise
  cases hm : memStage s with
  | error e => simp
  | ok q =>
    obtain ⟨wb, m⟩ := q
    cases ha : act (wbStage s) with
    | error e => simp
    | ok d =>
      cases hf : ifStage s d.ctl with
      | error e => simp [hf]
      | ok f =>
        constructor
        · intro h
          simp only [hf, Host.Outcome.next.injEq] at h
          exact ⟨wb, m, d, f, rfl, rfl, hf, h.symm⟩
        · rintro ⟨wb', m', d', f', h1, h2, h3, rfl⟩
          cases h1
          cases h2
          rw [hf] at h3
          cases h3
          simp [hf]

/-- A cycle faults exactly at the first of MEM, ID, IF that fails (R113(b), R165). -/
theorem cycle_fault_iff {s : State} {act : RegFile → Except Fault IdOut} {e : Fault} :
    cycle s act = .fault e ↔
      memStage s = .error e ∨
        (∃ q, memStage s = .ok q ∧ act (wbStage s) = .error e) ∨
          ∃ q d, memStage s = .ok q ∧ act (wbStage s) = .ok d ∧ ifStage s d.ctl = .error e := by
  unfold cycle raise
  cases hm : memStage s with
  | error e' => simp
  | ok q =>
    cases ha : act (wbStage s) with
    | error e' => simp
    | ok d => cases hf : ifStage s d.ctl <;> simp [hf]

/-- A cycle refuses nothing. -/
theorem cycle_not_refused (s : State) (act : RegFile → Except Fault IdOut) (r : Refusal) : cycle s act ≠ .refused r := by
  unfold cycle raise
  split
  · simp
  · split
    · simp
    · split <;> simp

/-! ### `exec` and `step` as cycles -/

theorem cycleUnlessStall_is_cycle (s : State) (ins : Decoded) (act : RegFile → IdOut) :
    cycleUnlessStall s ins act = cycle s fun x => .ok (if loadUse s ins then idStall x else act x) := rfl

/-- The answer of a cycle whose instruction depends on the load in EX: a stall (R131). -/
theorem cycleUnlessStall_stall {s : State} {ins : Decoded} (act : RegFile → IdOut) (h : loadUse s ins = true) :
    cycleUnlessStall s ins act = cycle s fun x => .ok (idStall x) := by simp [cycleUnlessStall, h]

/-- The answer of a cycle whose instruction is not stalled. -/
theorem cycleUnlessStall_pass {s : State} {ins : Decoded} (act : RegFile → IdOut) (h : loadUse s ins = false) :
    cycleUnlessStall s ins act = cycle s fun x => .ok (act x) := by simp [cycleUnlessStall, h]

theorem issueR_is_cycle (ins : RIns) (s : State) : ∃ act : RegFile → IdOut, issueR ins s = cycle s fun x => .ok (act x) :=
  ⟨fun _ => if loadUse s _ then _ else _, cycleUnlessStall_is_cycle s _ _⟩

theorem issueI_is_cycle (ins : IIns) (s : State) : ∃ act : RegFile → IdOut, issueI ins s = cycle s fun x => .ok (act x) :=
  ⟨fun _ => if loadUse s _ then _ else _, cycleUnlessStall_is_cycle s _ _⟩

theorem issueLoadI_is_cycle (ins : IIns) (s : State) : ∃ act : RegFile → IdOut, issueLoadI ins s = cycle s fun x => .ok (act x) :=
  ⟨fun _ => if loadUse s _ then _ else _, cycleUnlessStall_is_cycle s _ _⟩

theorem issueS_is_cycle (ins : SIns) (s : State) : ∃ act : RegFile → IdOut, issueS ins s = cycle s fun x => .ok (act x) :=
  ⟨fun _ => if loadUse s _ then _ else _, cycleUnlessStall_is_cycle s _ _⟩

theorem branch_is_cycle (ins : BIns) (taken : Bool → Bool) (s : State) :
    ∃ act : RegFile → IdOut, branch ins taken s = cycle s fun x => .ok (act x) := ⟨fun _ => if loadUse s _ then _ else _, cycleUnlessStall_is_cycle s _ _⟩

/-- Every instruction's meaning is one cycle with an ID-stage action that raises nothing (R117). -/
theorem exec_is_cycle (i : Instr) (s : State) : ∃ act : RegFile → IdOut, exec i s = cycle s fun x => .ok (act x) := by
  cases i with
  | add | sub | xor | or | and => exact issueR_is_cycle _ s
  | addi | xori | ori | andi => exact issueI_is_cycle _ s
  | lw | lwXor | lwOr | lwAnd => exact issueLoadI_is_cycle _ s
  | sw => exact issueS_is_cycle _ s
  | beq rs1 rs2 imm => exact branch_is_cycle ⟨0b000#3, rs1, rs2, imm, .add⟩ (fun eq => eq) s
  | bne rs1 rs2 imm => exact branch_is_cycle ⟨0b001#3, rs1, rs2, imm, .add⟩ (fun eq => !eq) s
  | jal rd imm =>
    exact ⟨fun x => idRedirect (.j ⟨rd, imm⟩ s.idPc) (s.idPc + imm) (x.write rd (s.idPc + 4#32)), rfl⟩
  | halt => exact ⟨fun x => ⟨x, .bubble, .haltSeen⟩, rfl⟩

/-- A step of a machine that has not faulted is one cycle, with an ID-stage action that decides everything else. -/
theorem step_is_cycle {s : State} (h : s.fault = none) : ∃ act, step s = cycle s act := by
  unfold step
  rw [h]
  unfold stepRunning
  cases s.idSlot with
  | bubble => exact ⟨fun x => .ok (idIdle .bubble x), rfl⟩
  | halted => exact ⟨fun x => .ok (idIdle .halted x), rfl⟩
  | occupied f =>
    cases hd : decode f.word with
    | error e => simp only [hd]; exact ⟨fun _ => .error (faultOfDecode e), rfl⟩
    | ok i =>
      obtain ⟨act, ha⟩ := exec_is_cycle i s
      simp only [hd]
      exact ⟨_, ha⟩

end Sys2Proof.Machine
end

