-- ==== Sys2Proof/Laws/Exec.lean ====
section
/-! SUPPORT. What every instruction does in ID, said once (R117, R121, R130). -/

namespace Sys2Proof.Machine

/-- The occupant an instruction becomes in EX (R118, R119); HALT becomes none (R150). -/
def exLatchOf (i : Instr) (pc : Word) (x : RegFile) : Option ExLatch :=
  match i with
  | .add rd rs1 rs2 => some (.r ⟨0b0000000#7, 0b000#3, rd, rs1, rs2, .add⟩ pc (x.read rs1) (x.read rs2))
  | .sub rd rs1 rs2 => some (.r ⟨0b0100000#7, 0b000#3, rd, rs1, rs2, .subtract⟩ pc (x.read rs1) (x.read rs2))
  | .xor f7 rd rs1 rs2 => some (.r ⟨f7, 0b100#3, rd, rs1, rs2, .xor⟩ pc (x.read rs1) (x.read rs2))
  | .or f7 rd rs1 rs2 => some (.r ⟨f7, 0b110#3, rd, rs1, rs2, .or⟩ pc (x.read rs1) (x.read rs2))
  | .and f7 rd rs1 rs2 => some (.r ⟨f7, 0b111#3, rd, rs1, rs2, .and⟩ pc (x.read rs1) (x.read rs2))
  | .addi rd rs1 imm => some (.i ⟨0b000#3, rd, rs1, imm, .add⟩ pc (x.read rs1))
  | .xori rd rs1 imm => some (.i ⟨0b100#3, rd, rs1, imm, .xor⟩ pc (x.read rs1))
  | .ori rd rs1 imm => some (.i ⟨0b110#3, rd, rs1, imm, .or⟩ pc (x.read rs1))
  | .andi rd rs1 imm => some (.i ⟨0b111#3, rd, rs1, imm, .and⟩ pc (x.read rs1))
  | .lw rd rs1 imm => some (.loadI ⟨0b000#3, rd, rs1, imm, .add⟩ pc (x.read rs1))
  | .lwXor rd rs1 imm => some (.loadI ⟨0b100#3, rd, rs1, imm, .xor⟩ pc (x.read rs1))
  | .lwOr rd rs1 imm => some (.loadI ⟨0b110#3, rd, rs1, imm, .or⟩ pc (x.read rs1))
  | .lwAnd rd rs1 imm => some (.loadI ⟨0b111#3, rd, rs1, imm, .and⟩ pc (x.read rs1))
  | .sw f3 rs1 rs2 imm => some (.s ⟨f3, rs1, rs2, imm, .add⟩ pc (x.read rs1) (x.read rs2))
  | .beq rs1 rs2 imm => some (.b ⟨0b000#3, rs1, rs2, imm, .add⟩ pc)
  | .bne rs1 rs2 imm => some (.b ⟨0b001#3, rs1, rs2, imm, .add⟩ pc)
  | .jal rd imm => some (.j ⟨rd, imm⟩ pc)
  | .halt => none

/-- The register file an instruction leaves in ID: only a JAL writes it there (R144). -/
def idRegs (i : Instr) (pc : Word) (x : RegFile) : RegFile :=
  match i with
  | .jal rd _ => x.write rd (pc + 4#32)
  | _ => x

/-- Everything an instruction does in ID (R117). -/
def idOut (i : Instr) (s : State) (x : RegFile) : IdOut :=
  match exLatchOf i s.idPc x with
  | none => ⟨x, .bubble, .haltSeen⟩
  | some l =>
    if s.stalls i then idStall x
    else if transfersControl i x then idRedirect l (s.idPc + transferOffset i) (idRegs i s.idPc x)
    else idPass l (idRegs i s.idPc x)

/-- The load-use detector compares the `rd` of a load in EX with the source fields present (R130). -/
theorem loadUse_eq (s : State) (ins : Decoded) :
    loadUse s ins = match s.exSlot with
      | .occupied (.loadI l _ _) => decide (ins.rs1 = some l.rd) || decide (ins.rs2 = some l.rd)
      | _ => false := by
  unfold loadUse
  rcases s.exSlot with _ | _ | l
  · rfl
  · rfl
  · cases l with
    | loadI l pc v => simp [ExLatch.ins, Decoded.cls, Decoded.rd, ctrl]; rfl
    | _ => simp [ExLatch.ins, Decoded.cls, ctrl]

/-- It is `State.stalls` of an instruction whose record has the same two sources. -/
theorem loadUse_two {s : State} {ins : Decoded} {i : Instr} {a b : Reg} (h1 : ins.rs1 = some a) (h2 : ins.rs2 = some b)
    (hi : i.sources = [a, b]) : loadUse s ins = s.stalls i := by
  rw [loadUse_eq, State.stalls, h1, h2, hi]
  rcases s.exSlot with _ | _ | l
  · rfl
  · rfl
  · cases l <;> simp [eq_comm]

/-- The same for an instruction with one source. -/
theorem loadUse_one {s : State} {ins : Decoded} {i : Instr} {a : Reg} (h1 : ins.rs1 = some a) (h2 : ins.rs2 = none)
    (hi : i.sources = [a]) : loadUse s ins = s.stalls i := by
  rw [loadUse_eq, State.stalls, h1, h2, hi]
  rcases s.exSlot with _ | _ | l
  · rfl
  · rfl
  · cases l <;> simp [eq_comm]

@[simp] theorem stalls_jal (s : State) (rd : Reg) (imm : Word) : s.stalls (.jal rd imm) = false := by
  unfold State.stalls
  split <;> simp [Instr.sources]

@[simp] theorem stalls_halt (s : State) : s.stalls .halt = false := by
  unfold State.stalls
  split <;> simp [Instr.sources]

/-- A cycle that may stall, with the answer of its ID-stage action said otherwise. -/
theorem cycleUnlessStall_eq {s : State} {ins : Decoded} {act out : RegFile → IdOut}
    (h : ∀ x, (if loadUse s ins then idStall x else act x) = out x) :
    cycleUnlessStall s ins act = cycle s fun x => .ok (out x) :=
  congrArg (cycle s) (funext fun x => congrArg Except.ok (h x))

/-- Every meaning is one cycle with the ID-stage action `idOut` (R117). -/
theorem exec_eq (i : Instr) (s : State) : exec i s = cycle s fun x => .ok (idOut i s x) := by
  cases i with
  | add rd rs1 rs2 =>
    simp only [exec, execAdd, issueR]
    refine cycleUnlessStall_eq fun x => ?_
    rw [loadUse_two (i := .add rd rs1 rs2) rfl rfl rfl]
    simp [idOut, exLatchOf, transfersControl, idRegs]
  | sub rd rs1 rs2 =>
    simp only [exec, execSub, issueR]
    refine cycleUnlessStall_eq fun x => ?_
    rw [loadUse_two (i := .sub rd rs1 rs2) rfl rfl rfl]
    simp [idOut, exLatchOf, transfersControl, idRegs]
  | xor f7 rd rs1 rs2 =>
    simp only [exec, execXor, issueR]
    refine cycleUnlessStall_eq fun x => ?_
    rw [loadUse_two (i := .xor f7 rd rs1 rs2) rfl rfl rfl]
    simp [idOut, exLatchOf, transfersControl, idRegs]
  | or f7 rd rs1 rs2 =>
    simp only [exec, execOr, issueR]
    refine cycleUnlessStall_eq fun x => ?_
    rw [loadUse_two (i := .or f7 rd rs1 rs2) rfl rfl rfl]
    simp [idOut, exLatchOf, transfersControl, idRegs]
  | and f7 rd rs1 rs2 =>
    simp only [exec, execAnd, issueR]
    refine cycleUnlessStall_eq fun x => ?_
    rw [loadUse_two (i := .and f7 rd rs1 rs2) rfl rfl rfl]
    simp [idOut, exLatchOf, transfersControl, idRegs]
  | addi rd rs1 imm =>
    simp only [exec, execAddi, issueI]
    refine cycleUnlessStall_eq fun x => ?_
    rw [loadUse_one (i := .addi rd rs1 imm) rfl rfl rfl]
    simp [idOut, exLatchOf, transfersControl, idRegs]
  | xori rd rs1 imm =>
    simp only [exec, execXori, issueI]
    refine cycleUnlessStall_eq fun x => ?_
    rw [loadUse_one (i := .xori rd rs1 imm) rfl rfl rfl]
    simp [idOut, exLatchOf, transfersControl, idRegs]
  | ori rd rs1 imm =>
    simp only [exec, execOri, issueI]
    refine cycleUnlessStall_eq fun x => ?_
    rw [loadUse_one (i := .ori rd rs1 imm) rfl rfl rfl]
    simp [idOut, exLatchOf, transfersControl, idRegs]
  | andi rd rs1 imm =>
    simp only [exec, execAndi, issueI]
    refine cycleUnlessStall_eq fun x => ?_
    rw [loadUse_one (i := .andi rd rs1 imm) rfl rfl rfl]
    simp [idOut, exLatchOf, transfersControl, idRegs]
  | lw rd rs1 imm =>
    simp only [exec, execLw, issueLoadI]
    refine cycleUnlessStall_eq fun x => ?_
    rw [loadUse_one (i := .lw rd rs1 imm) rfl rfl rfl]
    simp [idOut, exLatchOf, transfersControl, idRegs]
  | lwXor rd rs1 imm =>
    simp only [exec, execLwXor, issueLoadI]
    refine cycleUnlessStall_eq fun x => ?_
    rw [loadUse_one (i := .lwXor rd rs1 imm) rfl rfl rfl]
    simp [idOut, exLatchOf, transfersControl, idRegs]
  | lwOr rd rs1 imm =>
    simp only [exec, execLwOr, issueLoadI]
    refine cycleUnlessStall_eq fun x => ?_
    rw [loadUse_one (i := .lwOr rd rs1 imm) rfl rfl rfl]
    simp [idOut, exLatchOf, transfersControl, idRegs]
  | lwAnd rd rs1 imm =>
    simp only [exec, execLwAnd, issueLoadI]
    refine cycleUnlessStall_eq fun x => ?_
    rw [loadUse_one (i := .lwAnd rd rs1 imm) rfl rfl rfl]
    simp [idOut, exLatchOf, transfersControl, idRegs]
  | sw f3 rs1 rs2 imm =>
    simp only [exec, execSw, issueS]
    refine cycleUnlessStall_eq fun x => ?_
    rw [loadUse_two (i := .sw f3 rs1 rs2 imm) rfl rfl rfl]
    simp [idOut, exLatchOf, transfersControl, idRegs]
  | beq rs1 rs2 imm =>
    simp only [exec, execBeq, branch]
    refine cycleUnlessStall_eq fun x => ?_
    rw [loadUse_two (i := .beq rs1 rs2 imm) rfl rfl rfl]
    by_cases h : x.read rs1 = x.read rs2 <;>
      simp [idOut, exLatchOf, transfersControl, idRegs, transferOffset, regsEqual, branchOperand, h]
  | bne rs1 rs2 imm =>
    simp only [exec, execBne, branch]
    refine cycleUnlessStall_eq fun x => ?_
    rw [loadUse_two (i := .bne rs1 rs2 imm) rfl rfl rfl]
    by_cases h : x.read rs1 = x.read rs2 <;>
      simp [idOut, exLatchOf, transfersControl, idRegs, transferOffset, regsEqual, branchOperand, h]
  | jal rd imm =>
    simp only [exec, execJal, jump]
    refine congrArg (cycle s) (funext fun x => congrArg Except.ok ?_)
    simp [idOut, exLatchOf, transfersControl, transferOffset, idRegs]
  | halt => rfl

end Sys2Proof.Machine
end

