-- ==== Sys2Proof/Laws/Outputs.lean ====
section
/-! SUPPORT. What the data port shows of each kind of MEM slot (R27). -/

namespace Sys2Proof.Machine

@[simp] theorem memPort_bubble : memPort .bubble = (false, false, none, none) := rfl
@[simp] theorem memPort_halted : memPort .halted = (false, false, none, none) := rfl
@[simp] theorem memPort_r (ins : RIns) (pc v d : Word) : memPort (.occupied (.r ins pc v d)) = (false, false, none, some d) := rfl
@[simp] theorem memPort_i (ins : IIns) (pc v : Word) : memPort (.occupied (.i ins pc v)) = (false, false, none, none) := rfl
@[simp] theorem memPort_loadI (ins : IIns) (pc ea : Word) :
    memPort (.occupied (.loadI ins pc ea)) = (true, false, some ea, none) := rfl
@[simp] theorem memPort_s (ins : SIns) (pc ea d : Word) :
    memPort (.occupied (.s ins pc ea d)) = (false, true, some ea, some d) := rfl
@[simp] theorem memPort_b (ins : BIns) (pc : Word) : memPort (.occupied (.b ins pc)) = (false, false, none, none) := rfl
@[simp] theorem memPort_j (ins : JIns) (pc : Word) : memPort (.occupied (.j ins pc)) = (false, false, none, none) := rfl

end Sys2Proof.Machine
end

