-- ==== Sys2Proof/Laws/PerInstr.lean ====
section
/-! SUPPORT. What is said of every instruction as syntax, one lemma per constructor. -/

namespace Sys2Proof.Laws.EncodedClass

/-- The opcode of an instruction's word is that of its class (R52, R58). -/
def Statement (i : Instr) : Prop := classOf (opcodeOf (encode i)) = some i.cls

theorem add (rd : Reg) (rs1 : Reg) (rs2 : Reg) : Statement (.add rd rs1 rs2) := by
  simp [Statement, encode, Instr.cls, classOf, opcodeClass]

theorem sub (rd : Reg) (rs1 : Reg) (rs2 : Reg) : Statement (.sub rd rs1 rs2) := by
  simp [Statement, encode, Instr.cls, classOf, opcodeClass]

theorem xor (funct7 : BitVec 7) (rd : Reg) (rs1 : Reg) (rs2 : Reg) : Statement (.xor funct7 rd rs1 rs2) := by
  simp [Statement, encode, Instr.cls, classOf, opcodeClass]

theorem or (funct7 : BitVec 7) (rd : Reg) (rs1 : Reg) (rs2 : Reg) : Statement (.or funct7 rd rs1 rs2) := by
  simp [Statement, encode, Instr.cls, classOf, opcodeClass]

theorem and (funct7 : BitVec 7) (rd : Reg) (rs1 : Reg) (rs2 : Reg) : Statement (.and funct7 rd rs1 rs2) := by
  simp [Statement, encode, Instr.cls, classOf, opcodeClass]

theorem addi (rd : Reg) (rs1 : Reg) (imm : Word) : Statement (.addi rd rs1 imm) := by
  simp [Statement, encode, Instr.cls, classOf, opcodeClass, List.lookup]

theorem xori (rd : Reg) (rs1 : Reg) (imm : Word) : Statement (.xori rd rs1 imm) := by
  simp [Statement, encode, Instr.cls, classOf, opcodeClass, List.lookup]

theorem ori (rd : Reg) (rs1 : Reg) (imm : Word) : Statement (.ori rd rs1 imm) := by
  simp [Statement, encode, Instr.cls, classOf, opcodeClass, List.lookup]

theorem andi (rd : Reg) (rs1 : Reg) (imm : Word) : Statement (.andi rd rs1 imm) := by
  simp [Statement, encode, Instr.cls, classOf, opcodeClass, List.lookup]

theorem lw (rd : Reg) (rs1 : Reg) (imm : Word) : Statement (.lw rd rs1 imm) := by
  simp [Statement, encode, Instr.cls, classOf, opcodeClass, List.lookup]

theorem lwXor (rd : Reg) (rs1 : Reg) (imm : Word) : Statement (.lwXor rd rs1 imm) := by
  simp [Statement, encode, Instr.cls, classOf, opcodeClass, List.lookup]

theorem lwOr (rd : Reg) (rs1 : Reg) (imm : Word) : Statement (.lwOr rd rs1 imm) := by
  simp [Statement, encode, Instr.cls, classOf, opcodeClass, List.lookup]

theorem lwAnd (rd : Reg) (rs1 : Reg) (imm : Word) : Statement (.lwAnd rd rs1 imm) := by
  simp [Statement, encode, Instr.cls, classOf, opcodeClass, List.lookup]

theorem sw (funct3 : BitVec 3) (rs1 : Reg) (rs2 : Reg) (imm : Word) : Statement (.sw funct3 rs1 rs2 imm) := by
  simp [Statement, encode, Instr.cls, classOf, opcodeClass, List.lookup]

theorem beq (rs1 : Reg) (rs2 : Reg) (imm : Word) : Statement (.beq rs1 rs2 imm) := by
  simp [Statement, encode, Instr.cls, classOf, opcodeClass, List.lookup]

theorem bne (rs1 : Reg) (rs2 : Reg) (imm : Word) : Statement (.bne rs1 rs2 imm) := by
  simp [Statement, encode, Instr.cls, classOf, opcodeClass, List.lookup]

theorem jal (rd : Reg) (imm : Word) : Statement (.jal rd imm) := by
  simp [Statement, encode, Instr.cls, classOf, opcodeClass, List.lookup]

theorem halt : Statement (.halt) := by
  unfold Statement
  decide

end Sys2Proof.Laws.EncodedClass
end

