-- ==== Sys2Proof/Laws/Runs.lean ====
section
/-! SUPPORT. Runs of several steps, taken apart and put together. -/

namespace Sys2Proof.Machine

/-- The first step of a run of any machine behind the host's interface. -/
theorem core_run_succ (M : Host.Core) (n : Nat) (s t : M.State) :
    M.run (n + 1) s = .next t ↔ ∃ u, M.step s = .next u ∧ M.run n u = .next t := by
  have h : M.run (n + 1) s = (match M.step s with
    | .next u => M.run n u
    | .fault e => .fault e
    | .refused r => .refused r) := rfl
  rw [h]
  cases M.step s <;> simp

/-- A run of no step. -/
theorem Runs.zero_iff {s t : State} : Runs 0 s t ↔ s = t :=
  ⟨fun h => by cases h; rfl, fun h => by rw [h]; rfl⟩

/-- The first step of a run. -/
theorem Runs.succ_iff {n : Nat} {s t : State} : Runs (n + 1) s t ↔ ∃ u, step s = .next u ∧ Runs n u t :=
  core_run_succ Sys2Proof.core n s t

/-- A run behind a run. -/
theorem Runs.append {m n : Nat} {s t u : State} (h : Runs m s t) (h' : Runs n t u) : Runs (m + n) s u := by
  induction m generalizing s with
  | zero =>
    rw [Runs.zero_iff] at h
    rw [Nat.zero_add, h]
    exact h'
  | succ m ih =>
    obtain ⟨v, h1, h2⟩ := Runs.succ_iff.mp h
    rw [show m + 1 + n = m + n + 1 by omega, Runs.succ_iff]
    exact ⟨v, h1, ih h2⟩

/-- A run ends in one state only. -/
theorem Runs.unique {n : Nat} {s t u : State} (h : Runs n s t) (h' : Runs n s u) : t = u := by
  have := Eq.trans (Eq.symm h) h'
  cases this
  rfl

end Sys2Proof.Machine
end

