-- ==== Sys2Proof/Machine/Assembly.lean ====
section
/-! DEFINITION. The spec's assembler syntax (R63; its own decision D31) and its two pseudo-instructions (R64). No step of
the machine uses them. -/

namespace Sys2Proof

/-- A register's name (R63). -/
def regName (r : Reg) : String := "x" ++ toString r.toNat

/-- A signed decimal immediate (R63). -/
def immText (imm : Word) : String := toString imm.toInt

/-- `OP rd, rs1, rs2`. -/
def asmR (op : String) (rd rs1 rs2 : Reg) : String :=
  op ++ " " ++ regName rd ++ ", " ++ regName rs1 ++ ", " ++ regName rs2

/-- `OP rd, rs1, imm`, and with two registers `OP rs1, rs2, offset`. -/
def asmI (op : String) (r1 r2 : Reg) (imm : Word) : String :=
  op ++ " " ++ regName r1 ++ ", " ++ regName r2 ++ ", " ++ immText imm

/-- `OP rd, imm(rs1)`, and `SW rs2, imm(rs1)`. -/
def asmM (op : String) (r base : Reg) (imm : Word) : String :=
  op ++ " " ++ regName r ++ ", " ++ immText imm ++ "(" ++ regName base ++ ")"

/-- An instruction in the syntax of R63; fields a row does not examine are not shown. -/
def Instr.assembly : Instr → String
  | .add rd rs1 rs2 => asmR "ADD" rd rs1 rs2
  | .sub rd rs1 rs2 => asmR "SUB" rd rs1 rs2
  | .xor _ rd rs1 rs2 => asmR "XOR" rd rs1 rs2
  | .or _ rd rs1 rs2 => asmR "OR" rd rs1 rs2
  | .and _ rd rs1 rs2 => asmR "AND" rd rs1 rs2
  | .addi rd rs1 imm => asmI "ADDI" rd rs1 imm
  | .xori rd rs1 imm => asmI "XORI" rd rs1 imm
  | .ori rd rs1 imm => asmI "ORI" rd rs1 imm
  | .andi rd rs1 imm => asmI "ANDI" rd rs1 imm
  | .lw rd rs1 imm => asmM "LW" rd rs1 imm
  | .lwXor rd rs1 imm => asmM "LW.XOR" rd rs1 imm
  | .lwOr rd rs1 imm => asmM "LW.OR" rd rs1 imm
  | .lwAnd rd rs1 imm => asmM "LW.AND" rd rs1 imm
  | .sw _ rs1 rs2 imm => asmM "SW" rs2 rs1 imm
  | .beq rs1 rs2 imm => asmI "BEQ" rs1 rs2 imm
  | .bne rs1 rs2 imm => asmI "BNE" rs1 rs2 imm
  | .jal rd imm => "JAL " ++ regName rd ++ ", " ++ immText imm
  | .halt => "HALT"

/-- `NOP` is `ADDI x0, x0, 0` (R64). -/
def Instr.nop : Instr := .addi 0#5 0#5 0#32

/-- `J offset` is `JAL x0, offset` (R64). -/
def Instr.j (offset : Word) : Instr := .jal 0#5 offset

end Sys2Proof
end

