-- ==== Sys2Proof/Tests/Slice0.lean ====
section
/-! SUPPORT. The model's own tests: words and values of `95_test_vectors.md` and `96_test_vectors_hazards_faults.md`
against the decoder and one step of the machine; and, for every statement with hypotheses, a state that meets them. -/

open Sys2Proof Sys2Proof.Machine

namespace Sys2Proof.Tests

/-! ### Ill-formed terms are refused -/

theorem test_wf_refuses_i_above : (Instr.addi 1#5 2#5 2048#32).wellFormed = false := by decide
theorem test_wf_refuses_i_below : (Instr.xori 1#5 2#5 0xFFFFF7FF#32).wellFormed = false := by decide
theorem test_wf_refuses_load : (Instr.lwOr 1#5 2#5 0x80000000#32).wellFormed = false := by decide
theorem test_wf_refuses_s : (Instr.sw 2#3 1#5 2#5 2048#32).wellFormed = false := by decide
theorem test_wf_refuses_b_range : (Instr.beq 1#5 2#5 4096#32).wellFormed = false := by decide
theorem test_wf_refuses_b_odd : (Instr.bne 1#5 2#5 3#32).wellFormed = false := by decide
theorem test_wf_refuses_j_range : (Instr.jal 1#5 1048576#32).wellFormed = false := by decide
theorem test_wf_refuses_j_odd : (Instr.jal 1#5 1#32).wellFormed = false := by decide

/-! ### Words (`95_test_vectors.md` section 2) -/

theorem test_decode_add : decode 0b0000000_00010_00001_000_00011_0110011#32 = .ok (.add 3#5 1#5 2#5) := by decide
theorem test_decode_sub : decode 0b0100000_00010_00001_000_00011_0110011#32 = .ok (.sub 3#5 1#5 2#5) := by decide
theorem test_decode_xor : decode 0b0000000_01010_01001_100_01000_0110011#32 = .ok (.xor 0#7 8#5 9#5 10#5) := by decide
theorem test_decode_or : decode 0b0000000_00111_00110_110_00101_0110011#32 = .ok (.or 0#7 5#5 6#5 7#5) := by decide
theorem test_decode_and : decode 0b0000000_11101_11110_111_11111_0110011#32 = .ok (.and 0#7 31#5 30#5 29#5) := by decide
theorem test_decode_addi : decode 0b100000000000_00010_000_00001_0010011#32 = .ok (.addi 1#5 2#5 0xFFFFF800#32) := by decide
theorem test_decode_xori : decode 0b111111111111_00100_100_00100_0010011#32 = .ok (.xori 4#5 4#5 0xFFFFFFFF#32) := by decide
theorem test_decode_ori : decode 0b010101010101_00000_110_00101_0010011#32 = .ok (.ori 5#5 0#5 0x555#32) := by decide
theorem test_decode_andi : decode 0b000011110000_00111_111_00110_0010011#32 = .ok (.andi 6#5 7#5 0xF0#32) := by decide
theorem test_decode_lw : decode 0b111111111100_00010_000_00100_0000011#32 = .ok (.lw 4#5 2#5 0xFFFFFFFC#32) := by decide
theorem test_decode_lwXor : decode 0b000000000100_00001_100_00010_0000011#32 = .ok (.lwXor 2#5 1#5 4#32) := by decide
theorem test_decode_lwOr : decode 0b000000000100_00001_110_00010_0000011#32 = .ok (.lwOr 2#5 1#5 4#32) := by decide
theorem test_decode_lwAnd : decode 0b000000001100_00001_111_00010_0000011#32 = .ok (.lwAnd 2#5 1#5 12#32) := by decide
theorem test_decode_sw : decode 0b0111111_11111_00001_010_11111_0100011#32 = .ok (.sw 2#3 1#5 31#5 2047#32) := by decide
theorem test_decode_beq : decode 0b0_111111_00000_00000_000_1111_1_1100011#32 = .ok (.beq 0#5 0#5 4094#32) := by decide
theorem test_decode_bne : decode 0b0_000000_00100_00011_001_0000_1_1100011#32 = .ok (.bne 3#5 4#5 2048#32) := by decide
theorem test_decode_bne_back : decode 0b1_111111_00010_00001_001_1000_1_1100011#32 = .ok (.bne 1#5 2#5 0xFFFFFFF0#32) := by
  decide
theorem test_decode_jal : decode 0b0_0000000000_0_00000001_00101_1101111#32 = .ok (.jal 5#5 4096#32) := by decide
theorem test_decode_jal_back : decode 0b1_1111111100_1_11111111_00000_1101111#32 = .ok (.jal 0#5 0xFFFFFFF8#32) := by
  decide
theorem test_decode_halt : decode 0x0000007F#32 = .ok .halt := by decide
theorem test_decode_funct7_unexamined : decode 0x4020F1B3#32 = .ok (.and 0x20#7 3#5 1#5 2#5) := by decide
theorem test_decode_funct3_unexamined : decode 0x00500623#32 = .ok (.sw 0#3 0#5 5#5 12#32) := by decide
theorem test_decode_unknown : decode 0x00008067#32 = .error .unknownOpcode := by decide
theorem test_decode_mul : decode 0x022081B3#32 = .error .unresolvedOperation := by decide
theorem test_decode_slti : decode 0x0050A193#32 = .error .unresolvedOperation := by decide
theorem test_decode_blt : decode 0x0020C463#32 = .error .unsupportedBranchCondition := by decide
theorem test_encode_sw : encode (.sw 2#3 2#5 5#5 0xFFFFFFF8#32) = 0xFE512C23#32 := by decide
theorem test_encode_bne : encode (.bne 1#5 2#5 0xFFFFFFF0#32) = 0xFE2098E3#32 := by decide
theorem test_encode_jal : encode (.jal 1#5 0x000FFFFE#32) = 0x7FFFF0EF#32 := by decide
theorem test_table_word : decodeTableWord 32 0x40C3B = none ∧ decodeTableWord 32 0x002081B3 = some (.add 3#5 1#5 2#5) := by
  decide
theorem test_bytes : decodeBytes [0x00#8, 0xC0#8, 0x00#8, 0xEF#8, 7#8] = .ok (.jal 1#5 12#32, [7#8]) := by decide

theorem test_nop : encode Instr.nop = 0x00000013#32 ∧ encode (Instr.j 0xFFFFFFF8#32) = 0xFF9FF06F#32 := by decide
theorem test_assembly : (Instr.lwAnd 2#5 1#5 12#32).assembly = "LW.AND x2, 12(x1)" ∧
    (Instr.bne 1#5 2#5 0xFFFFFFF0#32).assembly = "BNE x1, x2, -16" := by decide

/-! ### States -/

/-- The state an outcome holds. -/
def nextOf (o : Result) : Option State :=
  match o with
  | .next t => some t
  | .fault _ => none
  | .refused _ => none

/-- The fault an outcome holds. -/
def faultOf (o : Result) : Option Fault :=
  match o with
  | .fault e => some e
  | .next _ => none
  | .refused _ => none

/-- What a run of `n` steps ends in. -/
def after : Nat → State → Option State
  | 0, s => some s
  | n + 1, s =>
    match step s with
    | .next t => after n t
    | .fault _ => none
    | .refused _ => none

/-- A register file with the given values, the others 0. -/
def regsWith (vs : List (Reg × Word)) : RegFile := vs.foldl (fun x c => x.write c.1 c.2) (Vector.replicate 31 0#32)

/-- A launch with DMEM of 16 bytes, the byte at address `i` being `i` (`95_test_vectors.md` section 3.3), and IMEM of
64 bytes, all 0. -/
def params (vs : List (Reg × Word)) : Params :=
  { imemSize := 64, dmemSize := 16, xInit := regsWith vs, imem := [],
    dmemInit := Memory.ofImage ((List.range 16).map fun k => BitVec.ofNat 8 k) }

/-- The launch state with the word `w`, fetched from address `a`, in ID. -/
def withId (vs : List (Reg × Word)) (a w : Word) : State :=
  { State.launched (params vs) with
    params := { params vs with imem := Memory.writeWord [] a.toNat w }
    pc := a + 4#32
    idSlot := .occupied ⟨w, a⟩ }

/-- The EX slot after the word's cycle in ID. -/
def exAfter (vs : List (Reg × Word)) (w : Word) : Option (Slot ExLatch) :=
  (nextOf (step (withId vs 0#32 w))).map (·.exSlot)

/-- The result an EX occupant leaves in MEM in one step. -/
def resultOf (l : ExLatch) : Option Word :=
  match nextOf (step { State.launched (params []) with exSlot := .occupied l }) with
  | some t =>
    match t.memSlot with
    | .occupied m => m.aluResult
    | _ => none
  | none => none

/-- The WB slot after one step with a load in MEM. -/
def loaded (ea : Word) : Option (Slot WbLatch) :=
  (nextOf (step { State.launched (params []) with memSlot := .occupied (.loadI ⟨0#3, 4#5, 2#5, 0#32, .add⟩ 0#32 ea) })).map
    (·.wbSlot)

/-- The address of the instruction after a branch or jump in ID at address `a`: the new fetch address behind a squash,
else the address of the next word in ID. -/
def goesTo (vs : List (Reg × Word)) (a w : Word) : Option Word :=
  match nextOf (step (withId vs a w)) with
  | some t =>
    match t.idSlot with
    | .occupied f => some f.pc
    | .bubble => some t.pc
    | .halted => none
  | none => none

/-! ### One step of each instruction (`95_test_vectors.md` sections 3.1 to 3.5) -/

theorem test_add_issue : exAfter [(1#5, 0x7FFFFFFF#32), (2#5, 1#32)] 0x002081B3#32 =
    some (.occupied (.r ⟨0#7, 0#3, 3#5, 1#5, 2#5, .add⟩ 0#32 0x7FFFFFFF#32 1#32)) := by decide
theorem test_add_result : resultOf (.r ⟨0#7, 0#3, 3#5, 1#5, 2#5, .add⟩ 0#32 0x7FFFFFFF#32 1#32) = some 0x80000000#32 := by
  decide
theorem test_sub_issue : exAfter [(1#5, 0#32), (2#5, 1#32)] 0x402081B3#32 =
    some (.occupied (.r ⟨0x20#7, 0#3, 3#5, 1#5, 2#5, .subtract⟩ 0#32 0#32 1#32)) := by decide
theorem test_sub_result : resultOf (.r ⟨0x20#7, 0#3, 3#5, 1#5, 2#5, .subtract⟩ 0#32 0#32 1#32) = some 0xFFFFFFFF#32 := by
  decide
theorem test_xor_issue : exAfter [(9#5, 0xF0F0F0F0#32), (10#5, 0x0FF00FF0#32)] 0x00A4C433#32 =
    some (.occupied (.r ⟨0#7, 4#3, 8#5, 9#5, 10#5, .xor⟩ 0#32 0xF0F0F0F0#32 0x0FF00FF0#32)) := by decide
theorem test_xor_result :
    resultOf (.r ⟨0#7, 4#3, 8#5, 9#5, 10#5, .xor⟩ 0#32 0xF0F0F0F0#32 0x0FF00FF0#32) = some 0xFF00FF00#32 := by decide
theorem test_or_issue : exAfter [(6#5, 0xF0F0F0F0#32), (7#5, 0x0FF00FF0#32)] 0x007362B3#32 =
    some (.occupied (.r ⟨0#7, 6#3, 5#5, 6#5, 7#5, .or⟩ 0#32 0xF0F0F0F0#32 0x0FF00FF0#32)) := by decide
theorem test_or_result :
    resultOf (.r ⟨0#7, 6#3, 5#5, 6#5, 7#5, .or⟩ 0#32 0xF0F0F0F0#32 0x0FF00FF0#32) = some 0xFFF0FFF0#32 := by decide
theorem test_and_issue : exAfter [(30#5, 0xF0F0F0F0#32), (29#5, 0x0FF00FF0#32)] 0x01DF7FB3#32 =
    some (.occupied (.r ⟨0#7, 7#3, 31#5, 30#5, 29#5, .and⟩ 0#32 0xF0F0F0F0#32 0x0FF00FF0#32)) := by decide
theorem test_and_result :
    resultOf (.r ⟨0#7, 7#3, 31#5, 30#5, 29#5, .and⟩ 0#32 0xF0F0F0F0#32 0x0FF00FF0#32) = some 0x00F000F0#32 := by decide
theorem test_addi_issue : exAfter [(2#5, 0x800#32)] 0x80010093#32 =
    some (.occupied (.i ⟨0#3, 1#5, 2#5, 0xFFFFF800#32, .add⟩ 0#32 0x800#32)) := by decide
theorem test_addi_result : resultOf (.i ⟨0#3, 1#5, 2#5, 0xFFFFF800#32, .add⟩ 0#32 0x800#32) = some 0#32 := by decide
theorem test_xori_issue : exAfter [(4#5, 0xFFFF#32)] 0xFFF24213#32 =
    some (.occupied (.i ⟨4#3, 4#5, 4#5, 0xFFFFFFFF#32, .xor⟩ 0#32 0xFFFF#32)) := by decide
theorem test_xori_result : resultOf (.i ⟨4#3, 4#5, 4#5, 0xFFFFFFFF#32, .xor⟩ 0#32 0xFFFF#32) = some 0xFFFF0000#32 := by
  decide
theorem test_ori_issue : exAfter [(6#5, 0x12#32)] 0xF0036293#32 =
    some (.occupied (.i ⟨6#3, 5#5, 6#5, 0xFFFFFF00#32, .or⟩ 0#32 0x12#32)) := by decide
theorem test_ori_result : resultOf (.i ⟨6#3, 5#5, 6#5, 0xFFFFFF00#32, .or⟩ 0#32 0x12#32) = some 0xFFFFFF12#32 := by decide
theorem test_andi_issue : exAfter [(6#5, 0x1234567F#32)] 0xFF037293#32 =
    some (.occupied (.i ⟨7#3, 5#5, 6#5, 0xFFFFFFF0#32, .and⟩ 0#32 0x1234567F#32)) := by decide
theorem test_andi_result : resultOf (.i ⟨7#3, 5#5, 6#5, 0xFFFFFFF0#32, .and⟩ 0#32 0x1234567F#32) = some 0x12345670#32 := by
  decide
theorem test_lw_address : exAfter [(2#5, 0xFFFFFFFC#32)] 0x00810203#32 =
      some (.occupied (.loadI ⟨0#3, 4#5, 2#5, 8#32, .add⟩ 0#32 0xFFFFFFFC#32)) ∧
    resultOf (.loadI ⟨0#3, 4#5, 2#5, 8#32, .add⟩ 0#32 0xFFFFFFFC#32) = some 4#32 := by decide
theorem test_lw_data : loaded 4#32 = some (.occupied (.loadI ⟨0#3, 4#5, 2#5, 0#32, .add⟩ 0#32 0x04050607#32)) ∧
    loaded 0xC#32 = some (.occupied (.loadI ⟨0#3, 4#5, 2#5, 0#32, .add⟩ 0#32 0x0C0D0E0F#32)) := by decide
theorem test_lwXor_address : exAfter [(1#5, 0xC#32)] 0x0040C103#32 =
      some (.occupied (.loadI ⟨4#3, 2#5, 1#5, 4#32, .xor⟩ 0#32 0xC#32)) ∧
    resultOf (.loadI ⟨4#3, 2#5, 1#5, 4#32, .xor⟩ 0#32 0xC#32) = some 8#32 := by decide
theorem test_lwOr_address : exAfter [(1#5, 8#32)] 0x0040E103#32 =
      some (.occupied (.loadI ⟨6#3, 2#5, 1#5, 4#32, .or⟩ 0#32 8#32)) ∧
    resultOf (.loadI ⟨6#3, 2#5, 1#5, 4#32, .or⟩ 0#32 8#32) = some 0xC#32 := by decide
theorem test_lwAnd_address : exAfter [(1#5, 0xF#32)] 0x00C0F103#32 =
      some (.occupied (.loadI ⟨7#3, 2#5, 1#5, 12#32, .and⟩ 0#32 0xF#32)) ∧
    resultOf (.loadI ⟨7#3, 2#5, 1#5, 12#32, .and⟩ 0#32 0xF#32) = some 0xC#32 := by decide
theorem test_sw_address : exAfter [(2#5, 0x10#32), (5#5, 0x01020304#32)] 0xFE512C23#32 =
      some (.occupied (.s ⟨2#3, 2#5, 5#5, 0xFFFFFFF8#32, .add⟩ 0#32 0x10#32 0x01020304#32)) ∧
    resultOf (.s ⟨2#3, 2#5, 5#5, 0xFFFFFFF8#32, .add⟩ 0#32 0x10#32 0x01020304#32) = some 8#32 := by decide

/-- A store of `v` at `ea` in MEM. -/
def storing (ea v : Word) : State :=
  { State.launched (params []) with memSlot := .occupied (.s ⟨2#3, 2#5, 5#5, 0#32, .add⟩ 0#32 ea v) }

theorem test_sw_bytes : ((nextOf (step (storing 12#32 0xDEADBEEF#32))).map fun t =>
    [11, 12, 13, 14, 15].map t.dmem.read) = some [11#8, 0xDE#8, 0xAD#8, 0xBE#8, 0xEF#8] := by decide
theorem test_beq_taken : goesTo [(1#5, 7#32), (2#5, 7#32)] 0x10#32 0x00208463#32 = some 0x18#32 := by decide
theorem test_beq_not_taken : goesTo [(1#5, 7#32), (2#5, 8#32)] 0x10#32 0x00208463#32 = some 0x14#32 := by decide
theorem test_bne_taken : goesTo [(1#5, 4#32), (2#5, 12#32)] 0x1C#32 0xFE2098E3#32 = some 0x0C#32 := by decide
theorem test_bne_not_taken : goesTo [(1#5, 12#32), (2#5, 12#32)] 0x1C#32 0xFE2098E3#32 = some 0x20#32 := by decide
theorem test_jal : ((nextOf (step (withId [] 4#32 0x00C000EF#32))).map fun t => (t.pc, t.idSlot, t.regs.read 1#5)) =
    some (0x10#32, .bubble, 8#32) := by decide
theorem test_jal_wraps : ((nextOf (step (withId [] 4#32 0xFF9FF0EF#32))).map fun t => (t.pc, t.regs.read 1#5)) =
    some (0xFFFFFFFC#32, 8#32) := by decide
theorem test_halt : ((nextOf (step (withId [] 8#32 0xFFFFFFFF#32))).map fun t => (t.pc, t.ifHalted, t.idSlot, t.exSlot)) =
    some (12#32, true, .halted, .bubble) := by decide

/-! ### Faults and the order of checks (`95_test_vectors.md` section 3.3, `60_exceptions.md` section 2) -/

theorem test_load_misaligned : faultOf (step { State.launched (params []) with
    memSlot := .occupied (.loadI ⟨0#3, 4#5, 0#5, 2#32, .add⟩ 0#32 2#32) }) = some .misaligned := by decide
theorem test_load_out_of_bounds : faultOf (step { State.launched (params []) with
    memSlot := .occupied (.loadI ⟨0#3, 4#5, 0#5, 16#32, .add⟩ 0#32 16#32) }) = some .outOfBounds := by decide
theorem test_store_misaligned_first : faultOf (step (storing 18#32 1#32)) = some .misaligned := by decide
theorem test_illegal_word : faultOf (step (withId [] 0#32 0#32)) = some .unknownOpcode := by decide
theorem test_mem_fault_before_id_fault : faultOf (step { withId [] 0#32 0#32 with
    memSlot := .occupied (.loadI ⟨0#3, 4#5, 0#5, 16#32, .add⟩ 0#32 16#32) }) = some .outOfBounds := by decide
theorem test_fetch_after_halt_faults :
    faultOf (step { withId [] 60#32 0xFFFFFFFF#32 with pc := 64#32 }) = some .outOfBounds := by decide

/-! ### States that meet the hypotheses of the statements -/

/-- A run, as `after` computes it. -/
theorem runs_iff_after {n : Nat} {s t : State} : Runs n s t ↔ after n s = some t := by
  induction n generalizing s with
  | zero => rw [Runs.zero_iff]; simp [after]
  | succ n ih =>
    rw [Runs.succ_iff, after]
    cases step s <;> simp [ih]

/-- An outcome that is a next state. -/
theorem nextOf_some {o : Result} (h : (nextOf o).isSome = true) : ∃ t, o = .next t := by
  cases o <;> simp [nextOf] at h ⊢

/-- An outcome that is a fault. -/
theorem faultOf_some {o : Result} {e : Fault} (h : faultOf o = some e) : o = .fault e := by
  cases o <;> simp [faultOf] at h ⊢
  exact h

theorem witness_DecodeInvertsEncode : (Instr.addi 1#5 2#5 0xFFFFF800#32).wellFormed = true ∧
    (Instr.sw 7#3 1#5 31#5 2047#32).wellFormed = true ∧ (Instr.beq 1#5 2#5 4094#32).wellFormed = true ∧
    (Instr.bne 1#5 2#5 0xFFFFF000#32).wellFormed = true ∧ (Instr.jal 1#5 0xFFF00000#32).wellFormed = true ∧
    (Instr.jal 1#5 1048574#32).wellFormed = true ∧ Instr.halt.wellFormed = true := by decide
theorem witness_EncodeInvertsDecode : decode 0xFE512C23#32 = .ok (.sw 2#3 2#5 5#5 0xFFFFFFF8#32) ∧
    decode 0x1234567F#32 = .ok .halt := by decide
theorem witness_DecodeFollowsTheOpcodeTable : opcodeRows[0]? = some (0xFE00707F#32, 0x00000033#32) ∧
    opcodeRows[17]? = some (0x0000007F#32, 0x0000007F#32) := by decide
theorem witness_WordsAreBigEndian : Memory.wf [(3, 7#8), (4, 0xFF#8)] = true := by decide
theorem witness_AccessesAreChecked : (0xFFFFFFFF#32).toNat % 4 ≠ 0 ∧ (16#32).toNat % 4 = 0 ∧ 16 ≤ (16#32).toNat + 3 ∧
    (12#32).toNat % 4 = 0 ∧ (12#32).toNat + 3 < 16 := by decide

/-- Records of each class, reading `x1` and `x2` and writing `x3`. -/
def rRec : RIns := ⟨0#7, 0#3, 3#5, 1#5, 2#5, .add⟩
def iRec : IIns := ⟨0#3, 3#5, 1#5, 8#32, .add⟩
def sRec : SIns := ⟨2#3, 1#5, 2#5, 8#32, .add⟩
def bRec : BIns := ⟨0#3, 1#5, 2#5, 8#32, .add⟩
def jRec : JIns := ⟨3#5, 8#32⟩

/-- Every kind of occupant of EX, MEM and WB. -/
def exKinds : List (Slot ExLatch) :=
  [.bubble, .halted, .occupied (.r rRec 0#32 1#32 2#32), .occupied (.i iRec 0#32 1#32), .occupied (.loadI iRec 0#32 4#32),
    .occupied (.s sRec 0#32 4#32 5#32), .occupied (.b bRec 0#32), .occupied (.j jRec 0#32)]
def memKinds : List (Slot MemLatch) :=
  [.bubble, .halted, .occupied (.r rRec 0#32 1#32 2#32), .occupied (.i iRec 0#32 1#32), .occupied (.loadI iRec 0#32 12#32),
    .occupied (.s sRec 0#32 12#32 5#32), .occupied (.b bRec 0#32), .occupied (.j jRec 0#32)]
def wbKinds : List (Slot WbLatch) :=
  [.bubble, .halted, .occupied (.r rRec 0#32 1#32), .occupied (.i iRec 0#32 1#32), .occupied (.loadI iRec 0#32 4#32),
    .occupied (.s sRec 0#32), .occupied (.b bRec 0#32), .occupied (.j jRec 0#32)]

/-- A running state with the given slots behind ID. -/
def slots (ex : Slot ExLatch) (mem : Slot MemLatch) (wb : Slot WbLatch) : State :=
  { State.launched (params [(1#5, 4#32)]) with exSlot := ex, memSlot := mem, wbSlot := wb }

/-- Forwarding from each producing class in MEM, and past a store, a branch, a jump and another register to WB. -/
theorem witness_Forwarding : (3#5 : Reg) ≠ 0#5 ∧
    ((memKinds.drop 2).take 3).map (fun m => fwd (slots .bubble m (.occupied (.i iRec 0#32 9#32))) 3#5 7#32) =
      [1#32, 1#32, 12#32] ∧
    (memKinds.drop 5).map (fun m => fwd (slots .bubble m (.occupied (.i iRec 0#32 9#32))) 3#5 7#32) = [9#32, 9#32, 9#32] ∧
    ((wbKinds.drop 2).take 3).map (fun w => fwd (slots .bubble .bubble w) 3#5 7#32) = [1#32, 1#32, 4#32] ∧
    (wbKinds.drop 5).map (fun w => fwd (slots .bubble .bubble w) 3#5 7#32) = [7#32, 7#32, 7#32] := by decide

theorem witness_LaunchMeetsTheInvariant : (params []).wf = true ∧ Params.default.wf = true ∧
    ({ params [] with imemSize := 4, imem := [(3, 1#8)] } : Params).wf = true := by decide
theorem witness_LaunchRefuses : ({ params [] with dmemSize := 0, dmemInit := [] } : Params).wf = false ∧
    ({ params [] with imemSize := 6 } : Params).wf = false ∧ ({ params [] with imemSize := 0x80000004 } : Params).wf = false ∧
    ({ params [] with dmemSize := 12 } : Params).wf = false := by decide

theorem witness_StepRuns_decoded : (withId [] 0#32 0x002081B3#32).fault = none ∧
    decode 0x002081B3#32 = .ok (.add 3#5 1#5 2#5) ∧ (withId [] 0#32 0x002081B3#32).idSlot = .occupied ⟨0x002081B3#32, 0#32⟩ := by
  decide
theorem witness_StepRuns_error : decode 0#32 = .error .unknownOpcode ∧ (withId [] 0#32 0#32).dataOk = true ∧
    (withId [] 0#32 0#32).idSlot = .occupied ⟨0#32, 0#32⟩ := by decide
theorem witness_StepRuns_empty : (slots .bubble .bubble .bubble).idSlot = .bubble ∧
    ({ slots .bubble .bubble .bubble with ifHalted := true, idSlot := .halted } : State).idSlot = .halted ∧
    (nextOf (step (slots .bubble .bubble (wbKinds.getD 3 .bubble)))).isSome = true ∧
    (nextOf (step { slots .bubble .bubble (wbKinds.getD 3 .bubble) with ifHalted := true, idSlot := .halted })).isSome = true := by
  decide
theorem witness_ResetEdge : ∃ t, step (slots .bubble .bubble .bubble) = .next t := nextOf_some (by decide)

/-- A load of `x1` in EX, in front of the word `w` in ID. -/
def behindLoad (w : Word) : State :=
  { withId [] 8#32 w with exSlot := .occupied (.loadI ⟨0#3, 1#5, 0#5, 0#32, .add⟩ 4#32 0#32) }

/-- A state for each row of the arbitration (R121). -/
def arbitrationStates : List State :=
  [slots .bubble .bubble .bubble, withId [] 0#32 0x002081B3#32, behindLoad 0x002081B3#32, withId [] 0#32 0x00C000EF#32,
    withId [] 0#32 0xFFFFFFFF#32, { slots .halted .bubble .bubble with ifHalted := true, idSlot := .halted }]

theorem witness_Arbitration : arbitrationStates.map (·.idEvent) =
      [.idle, .passed, .stalled, .redirected 12#32, .haltSeen, .idle] ∧
    arbitrationStates.all (fun s => (nextOf (step s)).isSome && decide (s.fault = none)) = true := by decide
theorem witness_FetchedWord : ∃ t, step (withId [] 0#32 0x002081B3#32) = .next t := nextOf_some (by decide)

/-- One word of every row of the opcode table. -/
def rowWords : List Word :=
  [0x002081B3#32, 0x402081B3#32, 0x00A4C433#32, 0x007362B3#32, 0x01DF7FB3#32, 0x00100093#32, 0xFFF24213#32, 0x55506293#32,
    0x0F03F313#32, 0x00000083#32, 0x0040C103#32, 0x0040E103#32, 0x00C0F103#32, 0x00512623#32, 0x00208463#32, 0xFE2098E3#32,
    0x00C000EF#32, 0xFFFFFFFF#32]

/-- Every instruction answers a next state, with a store in MEM and a write in WB beside it, and is ready. -/
theorem witness_Frames : rowWords.all (fun w =>
    match decode w with
    | .ok i =>
      let s := { withId [] 16#32 w with memSlot := .occupied (.s sRec 0#32 12#32 5#32), wbSlot := .occupied (.i iRec 0#32 9#32) }
      (nextOf (exec i s)).isSome && s.dmem.wf && s.dataOk && s.fetchOk && !s.stalls i && decide (s.fault = none)
    | .error _ => false) = true := by decide

theorem ready_of {s : State} {i : Instr} {f : FetchLatch}
    (h : (decide (s.fault = none) && decide (s.idSlot = .occupied f) && s.dataOk && s.fetchOk && !s.stalls i) = true) :
    Ready s i f := by
  simp only [Bool.and_eq_true, decide_eq_true_eq, Bool.not_eq_true'] at h
  exact ⟨h.1.1.1.1, h.1.1.1.2, h.1.1.2, h.1.2, h.2⟩

theorem witness_R : Ready (withId [] 0#32 0x002081B3#32) (.add 3#5 1#5 2#5) ⟨0x002081B3#32, 0#32⟩ ∧
    Ready (withId [] 0#32 0x402081B3#32) (.sub 3#5 1#5 2#5) ⟨0x402081B3#32, 0#32⟩ ∧
    Ready (withId [] 0#32 0x00A4C433#32) (.xor 0#7 8#5 9#5 10#5) ⟨0x00A4C433#32, 0#32⟩ ∧
    Ready (withId [] 0#32 0x007362B3#32) (.or 0#7 5#5 6#5 7#5) ⟨0x007362B3#32, 0#32⟩ ∧
    Ready (withId [] 0#32 0x4020F1B3#32) (.and 0x20#7 3#5 1#5 2#5) ⟨0x4020F1B3#32, 0#32⟩ := by
  refine ⟨ready_of ?_, ready_of ?_, ready_of ?_, ready_of ?_, ready_of ?_⟩ <;> decide
theorem witness_I : Ready (withId [] 0#32 0xFFF00093#32) (.addi 1#5 0#5 0xFFFFFFFF#32) ⟨0xFFF00093#32, 0#32⟩ ∧
    Ready (withId [] 0#32 0xFFF24213#32) (.xori 4#5 4#5 0xFFFFFFFF#32) ⟨0xFFF24213#32, 0#32⟩ ∧
    Ready (withId [] 0#32 0x55506293#32) (.ori 5#5 0#5 0x555#32) ⟨0x55506293#32, 0#32⟩ ∧
    Ready (withId [] 0#32 0x0F03F313#32) (.andi 6#5 7#5 0xF0#32) ⟨0x0F03F313#32, 0#32⟩ := by
  refine ⟨ready_of ?_, ready_of ?_, ready_of ?_, ready_of ?_⟩ <;> decide
theorem witness_Loads : Ready (withId [] 0#32 0x00000083#32) (.lw 1#5 0#5 0#32) ⟨0x00000083#32, 0#32⟩ ∧
    Ready (withId [] 0#32 0x0040C103#32) (.lwXor 2#5 1#5 4#32) ⟨0x0040C103#32, 0#32⟩ ∧
    Ready (withId [] 0#32 0x0040E103#32) (.lwOr 2#5 1#5 4#32) ⟨0x0040E103#32, 0#32⟩ ∧
    Ready (withId [] 0#32 0x00C0F103#32) (.lwAnd 2#5 1#5 12#32) ⟨0x00C0F103#32, 0#32⟩ := by
  refine ⟨ready_of ?_, ready_of ?_, ready_of ?_, ready_of ?_⟩ <;> decide
theorem witness_Stores : Ready (withId [] 0#32 0x00500623#32) (.sw 0#3 0#5 5#5 12#32) ⟨0x00500623#32, 0#32⟩ :=
  ready_of (by decide)
theorem witness_Branches : Ready (withId [] 16#32 0x00208463#32) (.beq 1#5 2#5 8#32) ⟨0x00208463#32, 16#32⟩ ∧
    Ready (withId [(1#5, 1#32)] 16#32 0xFE2098E3#32) (.bne 1#5 2#5 0xFFFFFFF0#32) ⟨0xFE2098E3#32, 16#32⟩ := by
  refine ⟨ready_of ?_, ready_of ?_⟩ <;> decide
theorem witness_Branch_clauses : afterWb (withId [] 16#32 0x00208463#32) 1#5 = afterWb (withId [] 16#32 0x00208463#32) 2#5 ∧
    afterWb (withId [(1#5, 1#32)] 16#32 0xFE2098E3#32) 1#5 ≠ afterWb (withId [(1#5, 1#32)] 16#32 0xFE2098E3#32) 2#5 := by decide
theorem witness_Jal_Halt : (withId [] 4#32 0x00C000EF#32).dataOk = true ∧ (withId [] 4#32 0x00C000EF#32).fetchOk = true ∧
    (withId [] 4#32 0xFFFFFFFF#32).dataOk = true ∧ (withId [] 4#32 0xFFFFFFFF#32).fetchOk = true := by decide

/-- After their ID cycle, three more cycles of every class answer next states; the words behind are NOPs. -/
def withNops (w : Word) : State :=
  let s := withId [] 0#32 w
  let nops := (List.range 15).foldl (fun m k => Memory.writeWord m (4 * (k + 1)) 0x00000013#32) s.params.imem
  s.withImem nops

theorem witness_later_cycles : ([0x002081B3#32, 0x00100093#32, 0x00000083#32, 0x00512623#32, 0x00208463#32, 0x00C000EF#32].all
    fun w => (after 4 (withNops w)).isSome) = true := by decide
theorem witness_bad_addresses : accessFault 16 14#32 = some .misaligned ∧ accessFault 16 16#32 = some .outOfBounds ∧
    accessFault 16 12#32 = none := by decide

theorem witness_LaterStages : (exKinds.all fun ex => memKinds.all fun mem => (nextOf (step (slots ex mem .bubble))).isSome) = true := by
  decide
theorem witness_WbKinds : (wbKinds.all fun wb => (nextOf (step (slots .bubble .bubble wb))).isSome) = true := by decide
theorem witness_Advance : (exKinds.drop 2).all (fun ex => (after 2 { withNops 0x00000013#32 with exSlot := ex }).isSome) = true := by
  decide
theorem witness_StepsNeverChangeImem : ∃ t, Runs 2 (withNops 0x00512623#32) t := by
  have h : (after 2 (withNops 0x00512623#32)).isSome = true := by decide
  obtain ⟨t, ht⟩ := Option.isSome_iff_exists.mp h
  exact ⟨t, runs_iff_after.mpr ht⟩

theorem witness_LoadUse : (behindLoad 0x00108133#32).stalls (.add 2#5 1#5 1#5) = true ∧
    decode 0x00108133#32 = .ok (.add 2#5 1#5 1#5) ∧ (behindLoad 0x00108133#32).dataOk = true ∧
    (behindLoad 0x00108133#32).fetchOk = true ∧ (behindLoad 0x00108133#32).fault = none := by decide
/-- `word[24:20]` of the ADDI is 1, which is no source of class I (`95_test_vectors.md` section 3.6). -/
theorem witness_LoadUse_sources : (behindLoad 0x00118113#32).stalls (.addi 2#5 3#5 1#32) = false ∧
    (nextOf (exec (.addi 2#5 3#5 1#32) (behindLoad 0x00118113#32))).isSome = true ∧
    (nextOf (exec (.add 2#5 1#5 1#5) (behindLoad 0x00108133#32))).isSome = true ∧ (Instr.jal 1#5 8#32).sources = [] ∧
    (nextOf (exec (.jal 1#5 8#32) (behindLoad 0x008000EF#32))).isSome = true ∧ (behindLoad 0#32).ifHalted = false := by decide
theorem witness_Branches_stale : (Instr.beq 1#5 2#5 8#32).cls = .b ∧ (Instr.jal 1#5 8#32).cls = .j ∧
    (let s := withId [] 16#32 0x00208463#32
     let s' := { s with exSlot := .occupied (.i ⟨0#3, 1#5, 0#5, 7#32, .add⟩ 12#32 0#32), memSlot := memKinds.getD 2 .bubble }
     s.stalls (.beq 1#5 2#5 8#32) = false ∧ s'.stalls (.beq 1#5 2#5 8#32) = false ∧
       (nextOf (exec (.beq 1#5 2#5 8#32) s)).isSome = true ∧ (nextOf (exec (.beq 1#5 2#5 8#32) s')).isSome = true) := by decide
theorem witness_Dropped : (nextOf (exec .halt (withId [] 0#32 0xFFFFFFFF#32))).isSome = true ∧
    (nextOf (exec (.add 2#5 1#5 1#5) (behindLoad 0x00108133#32))).isSome = true ∧
    transfersControl (.jal 1#5 12#32) (wbStage (withId [] 0#32 0x00C000EF#32)) = true ∧
    (nextOf (exec (.jal 1#5 12#32) (withId [] 0#32 0x00C000EF#32))).isSome = true := by decide
theorem witness_Taken : (withNops 0x00C000EF#32).idEvent = .redirected 12#32 ∧ (withNops 0x00C000EF#32).ifHalted = false ∧
    (after 2 (withNops 0x00C000EF#32)).isSome = true := by decide
/-- JAL x3 in ID behind an R- or I-class producer of x3 in EX. -/
theorem witness_Overtakes : ([.r rRec 0#32 1#32 2#32, .i iRec 0#32 1#32].all fun l =>
    (after 3 { withNops 0x00C001EF#32 with exSlot := .occupied l }).isSome && decide (ExLatch.ins l).rd.isSome) = true ∧
    decode 0x00C001EF#32 = .ok (.jal 3#5 12#32) := by decide
theorem witness_LoadSeesStore :
    exStage (slots (.occupied (.loadI iRec 4#32 4#32)) (.occupied (.s sRec 0#32 12#32 5#32)) .bubble) =
      .occupied (.loadI iRec 4#32 12#32) ∧
    (after 2 { withNops 0x00000013#32 with
      exSlot := .occupied (.loadI iRec 4#32 4#32), memSlot := .occupied (.s sRec 0#32 12#32 5#32) }).isSome = true := by decide

/-- MEM, ID and IF in error in one cycle. -/
def allFail : State :=
  { withId [] 0#32 0#32 with memSlot := .occupied (.loadI iRec 0#32 2#32), pc := 64#32 }

theorem witness_Faults : memFault allFail = some .misaligned ∧ idFault allFail = some .unknownOpcode ∧
    ifFault allFail = some .outOfBounds ∧ allFail.fault = none := by decide
theorem witness_FaultedMachine : step allFail = .fault .misaligned := faultOf_some (by decide)
theorem witness_LiteralState : allFail.dmem.wf = true ∧
    (faultOf (step { allFail with memSlot := .occupied (.s sRec 0#32 12#32 5#32) }) = some .unknownOpcode) ∧
    (faultOf (step { withId [] 0#32 0x00C000EF#32 with pc := 64#32 }) = some .outOfBounds) := by decide

theorem inv_of {s : State} (h : (decide (s.fault = none) && s.params.wf && s.dmem.wf && s.dmem.within s.params.dmemSize
    && s.haltChain && isEven s.pc
    && s.idSlot.all (fun f => isFetchable s.params f.pc && decide (f.word = s.params.imem.readWord f.pc.toNat))
    && (s.exSlot.all (fun l => isFetchable s.params l.pc) && s.memSlot.all (fun l => isFetchable s.params l.pc)
      && s.wbSlot.all (fun l => isFetchable s.params l.pc))
    && (s.exSlot.all (fun l => l.ins.legal) && s.memSlot.all (fun l => l.ins.legal) && s.wbSlot.all (fun l => l.ins.legal))
    && s.loadsSeparated) = true) : s.Inv := by
  rw [Bool.and_eq_true, Bool.and_eq_true, Bool.and_eq_true, Bool.and_eq_true, Bool.and_eq_true, Bool.and_eq_true,
    Bool.and_eq_true, Bool.and_eq_true, Bool.and_eq_true] at h
  obtain ⟨⟨⟨⟨⟨⟨⟨⟨⟨h0, h1⟩, h2⟩, h3⟩, h4⟩, h5⟩, h6⟩, h7⟩, h8⟩, h9⟩ := h
  exact ⟨of_decide_eq_true h0, h1, h2, h3, h4, h5, h6, h7, h8, h9⟩

/-- A state with every slot occupied, whose next two cycles keep the invariant's premises busy: a HALT in ID, a store in
EX, a load in MEM, a result in WB. -/
def busy : State :=
  { withId [(1#5, 4#32)] 16#32 0xFFFFFFFF#32 with
    exSlot := .occupied (.s ⟨2#3, 1#5, 2#5, 8#32, .add⟩ 12#32 4#32 5#32)
    memSlot := .occupied (.loadI ⟨0#3, 6#5, 0#5, 0#32, .add⟩ 8#32 0#32)
    wbSlot := .occupied (.r ⟨0#7, 0#3, 7#5, 1#5, 2#5, .add⟩ 4#32 9#32) }

theorem witness_EveryStepKeepsTheInvariant : busy.Inv ∧ ∃ t, step busy = .next t :=
  ⟨inv_of (by decide), nextOf_some (by decide)⟩
theorem witness_HaltDrains : busy.Inv ∧ decode 0xFFFFFFFF#32 = .ok .halt ∧ busy.fetchOk = true ∧ busy.dataOk = true ∧
    busy.exDataOk = true := ⟨inv_of (by decide), by decide⟩
theorem witness_HaltedFixedPoint : (slots .halted .halted .halted).fault = none ∧
    ({ slots .halted .halted .halted with ifHalted := true, idSlot := .halted } : State).haltedOut = true := by decide

/-- `HALT; HALT` alone (`95_test_vectors.md` section 3.5). -/
def haltOnly : Params :=
  { params [] with imem := Memory.writeWord (Memory.writeWord [] 0 0xFFFFFFFF#32) 4 0xFFFFFFFF#32, imemSize := 8 }

theorem witness_HaltingRun : ∃ n t, Runs n (State.launched haltOnly) t ∧ t.haltedOut = true ∧
    ∀ m u, m < n → Runs m (State.launched haltOnly) u → u.haltedOut = false := by
  have h : (after 5 (State.launched haltOnly)).map (·.haltedOut) = some true := by decide
  obtain ⟨t, ht, hh⟩ := Option.map_eq_some_iff.mp h
  have before : ∀ m < 5, (after m (State.launched haltOnly)).map (·.haltedOut) = some false := by decide
  refine ⟨5, t, runs_iff_after.mpr ht, hh, fun m u hm hu => ?_⟩
  have := before m hm
  rw [runs_iff_after.mp hu] at this
  exact Option.some.inj this

/-- An ADDI, and a JAL, with HALT words behind and at the target. -/
def lone (w : Word) : State :=
  (withId [] 0#32 w).withImem
    ((List.range 8).foldl (fun m k => Memory.writeWord m (4 * (k + 1)) 0xFFFFFFFF#32) (Memory.writeWord [] 0 w))

theorem witness_Lone : (lone 0x00100093#32).Inv ∧ (lone 0x00C000EF#32).Inv :=
  ⟨inv_of (by decide), inv_of (by decide)⟩
theorem witness_Lone_seq : ([(0x00100093#32, Instr.addi 1#5 0#5 1#32), (0x00C000EF#32, Instr.jal 1#5 12#32)].all fun c =>
    let s := lone c.1
    (match decode c.1 with
      | .ok i => decide (i = c.2)
      | .error _ => false) && s.fetchOk &&
    (match seqExec c.2 ⟨s.params, s.regs, 0#32, s.dmem⟩ with
      | .next q => (match seqFetch q with
        | .ok .halt => isFetchable q.params (q.pc + 4#32)
        | _ => false)
      | _ => false)) = true := by decide

/-- ADDI x1, x0, 1; ADD x3, x1, x1; HALT; HALT: a dependence the forwarding network resolves. -/
def smallProgram : Params :=
  { params [] with
    imem := Memory.writeWord (Memory.writeWord (Memory.writeWord (Memory.writeWord [] 0 0x00100093#32) 4 0x001081B3#32)
      8 0xFFFFFFFF#32) 12 0xFFFFFFFF#32 }

theorem witness_Pipeline : smallProgram.wf = true ∧ (seqAfter 2 (SeqState.launched smallProgram)).map seqFetch = some (.ok .halt) ∧
    hazardFree none none (seqTrace 2 (SeqState.launched smallProgram)) = true ∧
    ((List.range 3).all fun k => match seqAfter k (SeqState.launched smallProgram) with
      | some q => isFetchable smallProgram (q.pc + 4#32)
      | none => false) = true := by decide
theorem witness_Outputs : (slots .bubble (memKinds.getD 4 .bubble) .bubble).ports.dmemRe = true ∧
    (slots .bubble (memKinds.getD 5 .bubble) .bubble).ports.dmemWe = true ∧
    (slots .bubble (memKinds.getD 2 .bubble) .bubble).ports.dmemAddr = none := by decide
/-- R27: `store_data` of an R occupant is at `dmem_wdata`; in a store cycle `dmem_rdata` is the word there before. -/
theorem test_ports : (slots .bubble (memKinds.getD 2 .bubble) .bubble).ports.dmemWdata = some 2#32 ∧
    (storing 12#32 0xDEADBEEF#32).ports.dmemRdata = some (.ok 0x0C0D0E0F#32) ∧
    (storing 12#32 0xDEADBEEF#32).ports.dmemWdata = some 0xDEADBEEF#32 := by decide

end Sys2Proof.Tests
end

section
/-! PROOF. The domain of the launch parameters (R5, R183(a)), what `launch` answers inside and outside it, and the
statement of `00_scope.md` that follows. -/

namespace Sys2Proof.Machine

theorem sizeAllowed_iff {n : Nat} : sizeAllowed n = true ↔ n % 4 = 0 ∧ 4 ≤ n ∧ n ≤ 2 ^ 31 := by
  simp only [sizeAllowed, Bool.and_eq_true, decide_eq_true_eq, and_assoc]
  simp only [Config.minStoreSize, Config.maxStoreSize, Nat.reducePow]

theorem Memory.within_iff {size : Nat} {m : Memory} : m.within size = true ↔ ∀ c ∈ m, c.1 < size := by
  simp only [Memory.within, List.all_eq_true, decide_eq_true_eq]

theorem Params.wf_iff {p : Params} : p.wf = true ↔
    (p.imemSize % 4 = 0 ∧ 4 ≤ p.imemSize ∧ p.imemSize ≤ 2 ^ 31) ∧
    (p.dmemSize % 4 = 0 ∧ 4 ≤ p.dmemSize ∧ p.dmemSize ≤ 2 ^ 31) ∧
    p.imem.wf = true ∧ p.dmemInit.wf = true ∧
    (∀ c ∈ p.imem, c.1 < p.imemSize) ∧ (∀ c ∈ p.dmemInit, c.1 < p.dmemSize) := by
  simp only [Params.wf, Bool.and_eq_true, sizeAllowed_iff, Memory.within_iff, and_assoc]

theorem launch_of_wf {p : Params} (h : p.wf = true) : launch p = .next (State.launched p) := if_pos h

theorem launch_of_not_wf {p : Params} (h : ¬p.wf = true) : launch p = .refused .parametersOutOfDomain := if_neg h

theorem launch_eq_next_iff {p : Params} : launch p = .next (State.launched p) ↔ p.wf = true := by
  refine ⟨fun h => ?_, launch_of_wf⟩
  by_contra hw
  rw [launch_of_not_wf hw] at h
  cases h

/-- Settles O14: `launch` decides `Params.wf`, which `Params.wf_iff` spells out as the domain of R5. -/
theorem launchRefusesParametersOutOfDomain : Obligations.LaunchRefusesParametersOutOfDomain := by
  intro p
  refine ⟨launch_eq_next_iff.trans Params.wf_iff, fun h => ?_⟩
  exact launch_of_not_wf fun hw => h (launch_of_wf hw)

end Sys2Proof.Machine
end

section
/-! PROOF. The ID stage of any cycle as one function of the state, and what it can do (R117): the inversion lemmas that
later proofs about `step` and `exec` start from. -/

namespace Sys2Proof.Machine

/-! ### The ID stage -/

/-- What the ID stage answers in the cycle from `s`, given the register file after WB's write (R117). -/
def idStage (s : State) (x : RegFile) : Except Fault IdOut :=
  match s.idSlot with
  | .bubble => .ok (idIdle .bubble x)
  | .halted => .ok (idIdle .halted x)
  | .occupied f =>
    match decode f.word with
    | .ok i => .ok (idOut i s x)
    | .error e => .error (faultOfDecode e)

/-- A step of a machine that has not faulted is the cycle around `idStage` (R122). -/
theorem step_eq_cycle {s : State} (h : s.fault = none) : step s = cycle s (idStage s) := by
  unfold step stepRunning idStage
  rw [h]
  cases s.idSlot with
  | bubble => rfl
  | halted => rfl
  | occupied f =>
    cases hd : decode f.word with
    | error e => simp only [hd]; rfl
    | ok i => simp only [hd]; exact exec_eq i s

/-- What a step that answers a next state has done: MEM, ID and IF succeeded, and their answers are committed. -/
theorem step_next_iff {s t : State} (h : s.fault = none) :
    step s = .next t ↔
      ∃ wb m d f, memStage s = .ok (wb, m) ∧ idStage s (wbStage s) = .ok d ∧ ifStage s d.ctl = .ok f ∧
        t = commit s d wb m f := by
  rw [step_eq_cycle h, cycle_next_iff]

/-- The same of the cycle in which `i` is the instruction in ID. -/
theorem exec_next_iff {i : Instr} {s t : State} :
    exec i s = .next t ↔
      ∃ wb m f, memStage s = .ok (wb, m) ∧ ifStage s (idOut i s (wbStage s)).ctl = .ok f ∧
        t = commit s (idOut i s (wbStage s)) wb m f := by
  rw [exec_eq, cycle_next_iff]
  simp

/-- The ID stage succeeds on an empty slot and on a word that decodes (R117). -/
theorem idStage_ok_cases {s : State} {x : RegFile} {d : IdOut} (h : idStage s x = .ok d) :
    (s.idSlot = .bubble ∧ d = idIdle .bubble x) ∨ (s.idSlot = .halted ∧ d = idIdle .halted x) ∨
      ∃ f i, s.idSlot = .occupied f ∧ decode f.word = .ok i ∧ d = idOut i s x := by
  unfold idStage at h
  split at h
  · next hs => cases h; exact .inl ⟨hs, rfl⟩
  · next hs => cases h; exact .inr (.inl ⟨hs, rfl⟩)
  · next f hs =>
    split at h
    · next i hi => cases h; exact .inr (.inr ⟨f, i, hs, hi, rfl⟩)
    · cases h

theorem State.idPc_occupied {s : State} {f : FetchLatch} (h : s.idSlot = .occupied f) : s.idPc = f.pc := by
  simp [State.idPc, h]

/-! ### An instruction in ID -/

theorem exLatchOf_eq_none_iff {i : Instr} {pc : Word} {x : RegFile} : exLatchOf i pc x = none ↔ i = .halt := by
  cases i <;> simp [exLatchOf]

theorem cls_eq_halt_iff {i : Instr} : i.cls = .halt ↔ i = .halt := by
  cases i <;> simp [Instr.cls]

/-- The four things an instruction can do in ID (R117): HALT is consumed, a dependent of the load in EX waits, and any
other instruction enters EX, with or without a redirect. -/
theorem idOut_cases (i : Instr) (s : State) (x : RegFile) :
    (i = .halt ∧ idOut i s x = ⟨x, .bubble, .haltSeen⟩) ∨
      (s.stalls i = true ∧ idOut i s x = idStall x) ∨
      ∃ l, exLatchOf i s.idPc x = some l ∧ s.stalls i = false ∧
        ((transfersControl i x = true ∧
            idOut i s x = idRedirect l (s.idPc + transferOffset i) (idRegs i s.idPc x)) ∨
          (transfersControl i x = false ∧ idOut i s x = idPass l (idRegs i s.idPc x))) := by
  unfold idOut
  cases hl : exLatchOf i s.idPc x with
  | none => exact .inl ⟨exLatchOf_eq_none_iff.mp hl, rfl⟩
  | some l =>
    cases hs : s.stalls i with
    | true => exact .inr (.inl ⟨rfl, by simp⟩)
    | false => cases ht : transfersControl i x <;> simp

/-- An instruction with a source register leaves the register file alone in ID. -/
theorem idRegs_of_stalls {s : State} {i : Instr} (h : s.stalls i = true) (pc : Word) (x : RegFile) :
    idRegs i pc x = x := by
  cases i with
  | jal rd imm => simp at h
  | _ => rfl

theorem idOut_regs (i : Instr) (s : State) (x : RegFile) : (idOut i s x).regs = idRegs i s.idPc x := by
  rcases idOut_cases i s x with ⟨rfl, ho⟩ | ⟨hs, ho⟩ | ⟨l, -, -, ⟨-, ho⟩ | ⟨-, ho⟩⟩
  · rw [ho]; rfl
  · rw [ho, idRegs_of_stalls hs]; rfl
  · rw [ho]; rfl
  · rw [ho]; rfl

/-- What goes into EX: a bubble behind a HALT or a stall, else the record of the instruction, which then does not depend
on the load in EX. -/
theorem idOut_ex_cases (i : Instr) (s : State) (x : RegFile) :
    (idOut i s x).ex = .bubble ∨
      ∃ l, (idOut i s x).ex = .occupied l ∧ exLatchOf i s.idPc x = some l ∧ s.stalls i = false := by
  rcases idOut_cases i s x with ⟨-, ho⟩ | ⟨-, ho⟩ | ⟨l, hl, hs, ⟨-, ho⟩ | ⟨-, ho⟩⟩
  · exact .inl (by rw [ho])
  · exact .inl (by rw [ho]; rfl)
  · exact .inr ⟨l, by rw [ho]; rfl, hl, hs⟩
  · exact .inr ⟨l, by rw [ho]; rfl, hl, hs⟩

/-- What the ID stage leaves in EX: the empty slot it found, a bubble, or the record of the word in ID. -/
theorem idStage_ex_cases {s : State} {x : RegFile} {d : IdOut} (h : idStage s x = .ok d) :
    (s.idSlot = .halted ∧ d.ex = .halted) ∨ (s.idSlot ≠ .halted ∧ d.ex = .bubble) ∨
      ∃ f i l, s.idSlot = .occupied f ∧ decode f.word = .ok i ∧ exLatchOf i f.pc x = some l ∧ s.stalls i = false ∧
        d.ex = .occupied l := by
  rcases idStage_ok_cases h with ⟨hs, rfl⟩ | ⟨hs, rfl⟩ | ⟨f, i, hs, hi, rfl⟩
  · exact .inr (.inl ⟨by simp [hs], rfl⟩)
  · exact .inl ⟨hs, rfl⟩
  · rcases idOut_ex_cases i s x with hb | ⟨l, he, hl, hst⟩
    · exact .inr (.inl ⟨by simp [hs], hb⟩)
    · rw [State.idPc_occupied hs] at hl
      exact .inr (.inr ⟨f, i, l, hs, hi, hl, hst, he⟩)

/-! ### Events and the signals to IF -/

/-- The signal an event of the ID stage sends to IF (R113(c), R121). -/
def IdEvent.ctl : IdEvent → FetchCtl
  | .idle => .advance
  | .illegal => .advance
  | .stalled => .stall
  | .passed => .advance
  | .redirected target => .redirect target
  | .haltSeen => .haltSeen

theorem idOut_ctl (i : Instr) (s : State) : (idOut i s (wbStage s)).ctl = (s.eventOf i).ctl := by
  by_cases hi : i = .halt
  · subst hi; rfl
  · have hc : i.cls ≠ .halt := fun h => hi (cls_eq_halt_iff.mp h)
    rcases idOut_cases i s (wbStage s) with ⟨h, -⟩ | ⟨hs, ho⟩ | ⟨l, -, hs, ⟨ht, ho⟩ | ⟨ht, ho⟩⟩
    · exact absurd h hi
    · rw [ho]; simp [State.eventOf, hc, hs, IdEvent.ctl, idStall]
    · rw [ho]; simp [State.eventOf, hc, hs, ht, IdEvent.ctl, idRedirect]
    · rw [ho]; simp [State.eventOf, hc, hs, ht, IdEvent.ctl, idPass]

/-- The ID stage's signal to IF is that of the cycle's event (R117, R121). -/
theorem idStage_ctl {s : State} {d : IdOut} (h : idStage s (wbStage s) = .ok d) : d.ctl = s.idEvent.ctl := by
  rcases idStage_ok_cases h with ⟨hs, rfl⟩ | ⟨hs, rfl⟩ | ⟨f, i, hs, hi, rfl⟩
  · simp [State.idEvent, hs, IdEvent.ctl, idIdle]
  · simp [State.idEvent, hs, IdEvent.ctl, idIdle]
  · simp [State.idEvent, hs, hi, idOut_ctl]

theorem IdEvent.ctl_eq_haltSeen_iff {e : IdEvent} : e.ctl = .haltSeen ↔ e = .haltSeen := by
  cases e <;> simp [IdEvent.ctl]

end Sys2Proof.Machine
end

section
/-! PROOF. The register file of `10_state.md` (R11) and its writers (R12 to R14): what WB, a JAL in ID and a store in MEM
change, read through the statements' own words `afterWb`, `afterLink` and `afterMem`; the frames of a cycle, and the
word a cycle fetches. -/

namespace Sys2Proof.Machine

/-! ### Register file -/

/-- Register `k + 1` stands at entry `k` (R10, R11). -/
theorem RegFile.read_ofNat_succ (x : RegFile) {k : Nat} (h : k < 31) : x.read (BitVec.ofNat 5 (k + 1)) = x[k] := by
  have ht : (BitVec.ofNat 5 (k + 1)).toNat = k + 1 := by
    rw [BitVec.toNat_ofNat]
    omega
  have hne : BitVec.ofNat 5 (k + 1) ≠ 0#5 := by
    intro h0
    rw [h0] at ht
    simp at ht
  have hk : (BitVec.ofNat 5 (k + 1)).toNat - 1 = k := by omega
  simp only [RegFile.read, if_neg hne, hk]

/-- Settles O8, by the read-after-write laws of the register file. -/
theorem registerFileReadsTheLastWrite : Obligations.RegisterFileReadsTheLastWrite :=
  ⟨RegFile.read_zero, RegFile.write_zero, fun x _ v hi => RegFile.read_write_same x hi v,
    fun x _ _ v h => RegFile.read_write_other x h v, fun p _ h => RegFile.read_ofNat_succ p.xInit h⟩

/-- A read after a write, in the order the frame statements have it. -/
theorem RegFile.read_write_eq_ite (x : RegFile) (i r : Reg) (v : Word) :
    (x.write i v).read r = if i = r ∧ r ≠ 0#5 then v else x.read r := by
  rw [RegFile.read_write]
  by_cases h : r = i
  · subst h; simp
  · simp [h, Ne.symm h]

/-! ### The writers -/

/-- WB's write, register by register (R114). -/
theorem wbStage_read (s : State) (r : Reg) : (wbStage s).read r = afterWb s r := by
  unfold afterWb
  split
  · next h => rw [wbStage_r h, RegFile.read_write_eq_ite]
  · next h => rw [wbStage_i h, RegFile.read_write_eq_ite]
  · next h => rw [wbStage_loadI h, RegFile.read_write_eq_ite]
  · next hr hi hl =>
    rcases wbStage_cases s with h | ⟨l, rd, v, hl', hrd, hv, -⟩
    · rw [h]
    · cases l with
      | r ins pc v => exact absurd hl' (hr ins pc v)
      | i ins pc v => exact absurd hl' (hi ins pc v)
      | loadI ins pc v => exact absurd hl' (hl ins pc v)
      | s | b | j => cases hv

/-- The link write of ID, register by register: only a JAL writes there (R144). -/
theorem idStage_regs_read {s : State} {x : RegFile} {d : IdOut} (h : idStage s x = .ok d) (r : Reg) :
    d.regs.read r = afterLink s r (x.read r) := by
  rcases idStage_ok_cases h with ⟨hs, rfl⟩ | ⟨hs, rfl⟩ | ⟨f, i, hs, hi, rfl⟩
  · simp [afterLink, State.linkWrite, hs, idIdle]
  · simp [afterLink, State.linkWrite, hs, idIdle]
  · rw [idOut_regs, State.idPc_occupied hs]
    cases i with
    | jal rd imm => simp [afterLink, State.linkWrite, hs, hi, idRegs, RegFile.read_write_eq_ite]
    | _ => simp [afterLink, State.linkWrite, hs, hi, idRegs]

/-- A store in MEM that succeeds writes its word at the latched address (R37, R115). -/
theorem memStage_store {s : State} {wb : Slot WbLatch} {d : Memory} {ins : SIns} {pc ea v : Word}
    (h : memStage s = .ok (wb, d)) (hs : s.memSlot = .occupied (.s ins pc ea v)) : d = s.dmem.writeWord ea.toNat v := by
  unfold memStage memAccess at h
  simp only [hs] at h
  cases hw : memWrite s.params.dmemSize s.dmem ea v with
  | error e => simp [hw] at h
  | ok d' =>
    obtain ⟨-, -, rfl⟩ := memWrite_ok_iff.mp hw
    simp only [hw, Except.ok.injEq, Prod.mk.injEq] at h
    exact h.2.symm

/-- A byte read after a word write (R33, R37). -/
theorem Memory.read_writeWord {m : Memory} (h : m.wf) (a : Nat) (v : Word) (b : Nat) :
    (m.writeWord a v).read b = if a ≤ b ∧ b < a + 4 then byteOfWord v (b - a) else m.read b := by
  split
  · next hb =>
    obtain ⟨k, rfl⟩ := Nat.exists_eq_add_of_le hb.1
    rw [Memory.read_writeWord_inside h a v (by omega), Nat.add_sub_cancel_left]
  · exact Memory.read_writeWord_outside h a v (by omega)

/-- DMEM after the MEM stage, byte by byte (R37, R115). -/
theorem memStage_read {s : State} {wb : Slot WbLatch} {d : Memory} (h : memStage s = .ok (wb, d)) (hw : s.dmem.wf)
    (a : Nat) : d.read a = afterMem s a := by
  unfold afterMem
  split
  · next hs => rw [memStage_store h hs, Memory.read_writeWord hw]; rfl
  · next hn =>
    rcases memStage_ok h with rfl | ⟨ins, pc, ea, v, hs, -⟩
    · rfl
    · exact absurd hs (hn ins pc ea v)

/-! ### Frames -/

/-- Settles O20: in every cycle the register file is WB's, with the link of a JAL on top (`idOut_regs`). -/
theorem registerFrameOfEveryInstructionInId : Obligations.RegisterFrameOfEveryInstructionInId := by
  intro i s t h r
  obtain ⟨wb, m, f, -, -, rfl⟩ := exec_next_iff.mp h
  rw [commit_regs, idOut_regs]
  cases i with
  | jal rd imm => simp only [idRegs, RegFile.read_write_eq_ite, wbStage_read]
  | _ => exact wbStage_read s r

/-- Settles O22, from what the WB, ID and MEM stages write. -/
theorem registerAndMemoryFrameOfAStep : Obligations.RegisterAndMemoryFrameOfAStep := by
  intro s t hf hw h
  obtain ⟨wb, m, d, f, hm, hd, -, rfl⟩ := (step_next_iff hf).mp h
  refine ⟨fun r => ?_, memStage_read hm hw, hf⟩
  rw [commit_regs, idStage_regs_read hd, wbStage_read]

/-- Settles O18: without a stall, a redirect or a HALT, ID sends `advance`, and the word fetched goes into ID. -/
theorem fetchedWordIsTheNextIdOccupant : Obligations.FetchedWordIsTheNextIdOccupant := by
  intro s t hf hh hev h
  obtain ⟨wb, m, d, f, -, hd, hfetch, rfl⟩ := (step_next_iff hf).mp h
  have hctl : d.ctl = .advance := by
    rw [idStage_ctl hd]
    rcases hev with he | he <;> rw [he] <;> rfl
  rw [hctl] at hfetch
  rcases ifStage_ok_iff.mp hfetch with ⟨hh', -⟩ | ⟨-, w, hw, rfl⟩
  · rw [hh] at hh'; cases hh'
  · obtain ⟨-, -, rfl⟩ := imemRead_ok_iff.mp hw
    exact ⟨_, rfl, rfl, rfl⟩

end Sys2Proof.Machine
end

section
/-! PROOF. The outputs, the memory ports and the snapshot (R20, R26, R27, R29). -/

namespace Sys2Proof.Machine

theorem Slot.isHalted_iff {α : Type} {slot : Slot α} : slot.isHalted = true ↔ slot = .halted := by
  cases slot <;> simp [Slot.isHalted]

/-- `halted_out` is the conjunction of the five flags (R26). -/
theorem State.haltedOut_iff {s : State} : s.haltedOut = true ↔
    s.ifHalted = true ∧ s.idSlot = .halted ∧ s.exSlot = .halted ∧ s.memSlot = .halted ∧ s.wbSlot = .halted := by
  simp only [State.haltedOut, Bool.and_eq_true, Slot.isHalted_iff, and_assoc]

theorem State.ports_dmemRe (s : State) : s.ports.dmemRe = (memPort s.memSlot).1 := rfl

theorem State.ports_dmemWe (s : State) : s.ports.dmemWe = (memPort s.memSlot).2.1 := rfl

theorem State.ports_dmemAddr (s : State) : s.ports.dmemAddr = (memPort s.memSlot).2.2.1 := rfl

theorem State.ports_dmemWdata (s : State) : s.ports.dmemWdata = (memPort s.memSlot).2.2.2 := rfl

theorem State.ports_dmemRdata (s : State) :
    s.ports.dmemRdata = s.ports.dmemAddr.map (memRead s.params.dmemSize s.dmem) := rfl

/-- `dmem_re` is 1 exactly with a load in MEM, whose address then is `dmem_addr` (R27). -/
theorem State.dmemRe_iff (s : State) : s.ports.dmemRe = true ↔
    ∃ ins pc ea, s.memSlot = .occupied (.loadI ins pc ea) ∧ s.ports.dmemAddr = some ea := by
  rw [State.ports_dmemRe, State.ports_dmemAddr]
  rcases s.memSlot with _ | _ | l
  · simp
  · simp
  · cases l <;> simp

/-- `dmem_we` is 1 exactly with a store in MEM, whose address then is `dmem_addr` (R27). -/
theorem State.dmemWe_iff (s : State) : s.ports.dmemWe = true ↔
    ∃ ins pc ea v, s.memSlot = .occupied (.s ins pc ea v) ∧ s.ports.dmemAddr = some ea := by
  rw [State.ports_dmemWe, State.ports_dmemAddr]
  rcases s.memSlot with _ | _ | l
  · simp
  · simp
  · cases l <;> simp

/-- Without an access there is no data address (R27). -/
theorem State.dmemAddr_none {s : State} (hr : s.ports.dmemRe = false) (hw : s.ports.dmemWe = false) :
    s.ports.dmemAddr = none := by
  rw [State.ports_dmemRe] at hr
  rw [State.ports_dmemWe] at hw
  rw [State.ports_dmemAddr]
  cases hs : s.memSlot with
  | bubble => rfl
  | halted => rfl
  | occupied l =>
    rw [hs] at hr hw
    cases l with
    | loadI => cases hr
    | s => cases hw
    | r | i | b | j => rfl

/-- Settles O52, from the equations of the ports and of the snapshot. -/
theorem outputsShowTheActiveState : Obligations.OutputsShowTheActiveState := by
  intro s
  refine ⟨State.haltedOut_iff, rfl, rfl, rfl, s.dmemRe_iff, s.dmemWe_iff, State.dmemAddr_none, ?wdata, ?rdata,
    ?noRdata, ?regs, rfl, rfl, rfl, rfl, rfl, rfl, rfl⟩
  case wdata =>
    rw [State.ports_dmemWdata]
    rcases s.memSlot with _ | _ | l
    · rfl
    · rfl
    · cases l <;> rfl
  case rdata => intro a ha; rw [State.ports_dmemRdata, ha]; rfl
  case noRdata => intro ha; rw [State.ports_dmemRdata, ha]; rfl
  case regs => intro k hk; simp only [State.snapshot, Vector.getElem_ofFn]

end Sys2Proof.Machine
end

section
/-! PROOF. The halted flags (R25, R152): how each stage moves them. -/

namespace Sys2Proof.Machine

/-- R25(d) flag by flag. -/
theorem State.haltChain_iff {s : State} : s.haltChain = true ↔
    s.idSlot.isHalted = s.ifHalted ∧ (s.exSlot.isHalted = true → s.idSlot.isHalted = true) ∧
      (s.memSlot.isHalted = true → s.exSlot.isHalted = true) ∧
      (s.wbSlot.isHalted = true → s.memSlot.isHalted = true) := by
  have imp : ∀ a b : Bool, (!a || b) = true ↔ (a = true → b = true) := by decide
  simp only [State.haltChain, Bool.and_eq_true, beq_iff_eq, imp, and_assoc]

/-- EX takes ID's flag: only an empty halted ID slot passes HALTED on (R117). -/
theorem idStage_ex_isHalted {s : State} {x : RegFile} {d : IdOut} (h : idStage s x = .ok d) :
    d.ex.isHalted = s.idSlot.isHalted := by
  rcases idStage_ex_cases h with ⟨hs, he⟩ | ⟨hs, he⟩ | ⟨f, i, l, hs, -, -, -, he⟩
  · rw [hs, he]; rfl
  · cases hid : s.idSlot with
    | halted => exact absurd hid hs
    | bubble => rw [he]; rfl
    | occupied f => rw [he]; rfl
  · rw [hs, he]; rfl

/-- MEM takes EX's flag (R116). -/
theorem exStage_isHalted (s : State) : (exStage s).isHalted = s.exSlot.isHalted := by
  unfold exStage
  cases s.exSlot <;> rfl

/-- WB takes MEM's flag (R115). -/
theorem memStage_isHalted {s : State} {wb : Slot WbLatch} {m : Memory} (h : memStage s = .ok (wb, m)) :
    wb.isHalted = s.memSlot.isHalted := by
  rcases memStage_slot h with ⟨hs, rfl⟩ | ⟨hs, rfl⟩ | ⟨l, l', hs, rfl, -⟩ <;> rw [hs] <;> rfl

theorem arbitrate_halted (s : State) (ctl : FetchCtl) (w : Word) :
    (arbitrate s ctl w).halted = decide (ctl = .haltSeen) := by
  cases ctl <;> rfl

/-- While fetch runs, ID is halted after the arbitration exactly when a HALT was seen (R121). -/
theorem arbitrate_idSlot_isHalted {s : State} (h : s.idSlot.isHalted = false) (ctl : FetchCtl) (w : Word) :
    (arbitrate s ctl w).idSlot.isHalted = decide (ctl = .haltSeen) := by
  cases ctl with
  | stall => exact h
  | advance | redirect | haltSeen => rfl

/-- IF and ID are halted after a cycle if they were before it or a HALT was in ID (R121, R152). -/
theorem ifStage_isHalted {s : State} {f : FetchOut} (hc : s.idSlot.isHalted = s.ifHalted)
    (h : ifStage s s.idEvent.ctl = .ok f) :
    f.halted = (s.ifHalted || decide (s.idEvent = .haltSeen)) ∧
      f.idSlot.isHalted = (s.idSlot.isHalted || decide (s.idEvent = .haltSeen)) := by
  rcases ifStage_ok_iff.mp h with ⟨hh, rfl⟩ | ⟨hh, w, -, rfl⟩
  · rw [hh] at hc
    simp [hc, hh]
  · rw [hh] at hc
    rw [arbitrate_halted, arbitrate_idSlot_isHalted hc, hc, hh]
    simp [IdEvent.ctl_eq_haltSeen_iff]

/-- The flags after a step, from R25(d) before it (R152). -/
theorem step_isHalted {s t : State} (hf : s.fault = none) (hc : s.haltChain = true) (h : step s = .next t) :
    t.ifHalted = (s.ifHalted || decide (s.idEvent = .haltSeen)) ∧
      t.idSlot.isHalted = (s.idSlot.isHalted || decide (s.idEvent = .haltSeen)) ∧
      t.exSlot.isHalted = s.idSlot.isHalted ∧ t.memSlot.isHalted = s.exSlot.isHalted ∧
      t.wbSlot.isHalted = s.memSlot.isHalted := by
  obtain ⟨wb, m, d, f, hm, hd, hfetch, rfl⟩ := (step_next_iff hf).mp h
  obtain ⟨hid, -⟩ := State.haltChain_iff.mp hc
  rw [idStage_ctl hd] at hfetch
  obtain ⟨hif, hid'⟩ := ifStage_isHalted hid hfetch
  exact ⟨hif, hid', idStage_ex_isHalted hd, exStage_isHalted s, memStage_isHalted hm⟩

/-- A step keeps R25(d): each flag takes the value of the flag before it, and IF and ID keep theirs. -/
theorem step_haltChain {s t : State} (hf : s.fault = none) (hc : s.haltChain = true) (h : step s = .next t) :
    t.haltChain = true := by
  obtain ⟨hif, hid, hex, hmem, hwb⟩ := step_isHalted hf hc h
  obtain ⟨cid, cex, cmem, -⟩ := State.haltChain_iff.mp hc
  rw [State.haltChain_iff, hif, hid, hex, hmem, hwb, cid]
  refine ⟨rfl, fun hi => ?_, fun he => ?_, cmem⟩
  · rw [hi]; rfl
  · rw [← cid]; exact cex he

/-- Settles O46, from `step_isHalted` and R25(d). -/
theorem haltedFlagsPropagateAndStay : Obligations.HaltedFlagsPropagateAndStay := by
  intro s t hinv h
  obtain ⟨hif, hid, hex, hmem, hwb⟩ := step_isHalted hinv.running hinv.halts h
  obtain ⟨-, cex, cmem, cwb⟩ := State.haltChain_iff.mp hinv.halts
  refine ⟨hif, hid, hex, hmem, hwb, fun he => hex.trans (cex he), fun he => hmem.trans (cmem he),
    fun he => hwb.trans (cwb he), fun ho => ?_⟩
  simp only [State.haltedOut, Bool.and_eq_true] at ho ⊢
  obtain ⟨⟨⟨⟨oif, oid⟩, oex⟩, omem⟩, -⟩ := ho
  rw [hif, hid, hex, hmem, hwb, oif, oid, oex, omem]
  simp

end Sys2Proof.Machine
end

section
/-! PROOF. What the decoder guarantees of the instructions it answers (R54 to R57, R74, R76): they are well-formed, so
the records they become in EX are legal. -/

namespace Sys2Proof

/-! ### Immediates -/

/-- A sign-extended piece of `m + 1` bits is in the range of those bits. -/
theorem fitsSigned_signExtend {m : Nat} (h : m + 1 ≤ 32) (x : BitVec (m + 1)) :
    fitsSigned (m + 1) (x.signExtend 32) = true := by
  have hlt := BitVec.two_mul_toInt_lt (x := x)
  have hle := BitVec.le_two_mul_toInt (x := x)
  simp only [fitsSigned, BitVec.toInt_signExtend_of_le h, Bool.and_eq_true, decide_eq_true_eq, Nat.add_sub_cancel]
  omega

theorem isEven_iff {a : Word} : isEven a = true ↔ a.toNat % 2 = 0 := by
  simp [isEven, BitVec.getLsbD, Nat.testBit_zero]

theorem isEven_zero : isEven 0#32 = true := by decide

theorem isEven_add {a b : Word} (ha : isEven a = true) (hb : isEven b = true) : isEven (a + b) = true := by
  rw [isEven_iff] at *
  rw [BitVec.toNat_add]
  omega

/-- A piece with an implicit zero low bit is even (R56, R57). -/
theorem isEven_signExtend_append {n : Nat} (x : BitVec n) :
    isEven ((x ++ 0b0#1 : BitVec (n + 1)).signExtend 32) = true := by
  rw [isEven, BitVec.getLsbD_signExtend, if_pos (Nat.succ_pos n), BitVec.getLsbD_append]
  simp

theorem fitsSigned_immI (w : Word) : fitsSigned 12 (immI w) = true := fitsSigned_signExtend (by decide) _

theorem fitsSigned_immS (w : Word) : fitsSigned 12 (immS w) = true := fitsSigned_signExtend (by decide) _

theorem fitsSigned_immB (w : Word) : fitsSigned 13 (immB w) = true := fitsSigned_signExtend (by decide) _

theorem fitsSigned_immJ (w : Word) : fitsSigned 21 (immJ w) = true := fitsSigned_signExtend (by decide) _

theorem isEven_immB (w : Word) : isEven (immB w) = true := isEven_signExtend_append _

theorem isEven_immJ (w : Word) : isEven (immJ w) = true := isEven_signExtend_append _

/-! ### Decoded instructions are well-formed -/

theorem instrR_wellFormed (op : AluOp) (w : Word) : (instrR op w).wellFormed = true := by
  cases op <;> rfl

theorem instrI_wellFormed {op : AluOp} {w : Word} {i : Instr} (h : instrI op w = .ok i) : i.wellFormed = true := by
  cases op <;> cases h <;> exact fitsSigned_immI w

theorem instrLoadI_wellFormed {op : AluOp} {w : Word} {i : Instr} (h : instrLoadI op w = .ok i) :
    i.wellFormed = true := by
  cases op <;> cases h <;> exact fitsSigned_immI w

theorem instrB_wellFormed {w : Word} {i : Instr} (h : instrB w = .ok i) : i.wellFormed = true := by
  have himm : (fitsSigned 13 (immB w) && isEven (immB w)) = true := by rw [fitsSigned_immB, isEven_immB]; rfl
  unfold instrB at h
  split at h
  · cases h; exact himm
  · split at h
    · cases h; exact himm
    · cases h

/-- Every instruction the decoder answers is well-formed (R54 to R57, R71). -/
theorem decode_wellFormed {w : Word} {i : Instr} (h : decode w = .ok i) : i.wellFormed = true := by
  unfold decode at h
  split at h
  · cases h
  · cases h; rfl
  · split at h <;> cases h
    exact instrR_wellFormed _ w
  · split at h
    · exact instrI_wellFormed h
    · cases h
  · split at h
    · exact instrLoadI_wellFormed h
    · cases h
  · cases h; exact fitsSigned_immS w
  · exact instrB_wellFormed h
  · cases h
    simp only [Instr.wellFormed, fitsSigned_immJ, isEven_immJ, Bool.and_self]

namespace Machine

/-- The offset of a well-formed branch or jump is even (R56, R57, R140). -/
theorem isEven_transferOffset {i : Instr} (h : i.wellFormed = true) : isEven (transferOffset i) = true := by
  cases i with
  | beq | bne | jal => simp only [Instr.wellFormed, Bool.and_eq_true] at h; exact h.2
  | _ => exact isEven_zero

/-! ### The records in EX -/

/-- A well-formed instruction becomes a record that a word decodes to (R70, R74). -/
theorem exLatchOf_legal {i : Instr} {pc : Word} {x : RegFile} {l : ExLatch} (hi : i.wellFormed = true)
    (h : exLatchOf i pc x = some l) : l.ins.legal = true := by
  cases i with
  | halt => cases h
  | add | sub | xor | or | and => cases h; rfl
  | addi | xori | ori | andi | lw | lwXor | lwOr | lwAnd | sw | beq | bne | jal =>
    cases h
    simpa [ExLatch.ins, Decoded.legal, aluControlI, Instr.wellFormed] using hi

/-- It carries the instruction's address (R22). -/
theorem exLatchOf_pc {i : Instr} {pc : Word} {x : RegFile} {l : ExLatch} (h : exLatchOf i pc x = some l) :
    l.pc = pc := by
  cases i <;> cases h <;> rfl

/-- Its source fields are the instruction's sources (R51). -/
theorem exLatchOf_sources {i : Instr} {pc : Word} {x : RegFile} {l : ExLatch} (h : exLatchOf i pc x = some l) {r : Reg}
    (hr : l.ins.rs1 = some r ∨ l.ins.rs2 = some r) : r ∈ i.sources := by
  cases i with
  | halt => cases h
  | jal => cases h; simp [ExLatch.ins, Decoded.rs1, Decoded.rs2] at hr
  | _ => cases h; simpa [ExLatch.ins, Decoded.rs1, Decoded.rs2, Instr.sources, eq_comm] using hr

end Machine
end Sys2Proof
end

section
/-! PROOF. The invariant of a run (R25, R136, R145): it holds at launch, and every step keeps it. One lemma per clause,
each from what the stage that writes the clause's fields can do. -/

namespace Sys2Proof.Machine

/-! ### At launch -/

/-- The launch state of parameters in their domain meets the invariant (R28): its slots are empty, and DMEM is
`DMEM_INIT`. -/
theorem State.launched_inv {p : Params} (h : p.wf = true) : (State.launched p).Inv := by
  obtain ⟨-, -, -, hcanonical, -, hinside⟩ := Params.wf_iff.mp h
  exact {
    running := rfl
    parameters := h
    dmemCanonical := hcanonical
    dmemInside := Memory.within_iff.mpr hinside
    halts := rfl
    pcEven := isEven_zero
    idFetched := rfl
    addresses := rfl
    records := rfl
    loads := rfl }

theorem Params.default_wf : Params.default.wf = true := by decide

/-- Settles O13: each field is `State.launched`'s by definition. -/
theorem launchStateHoldsTheResetValues : Obligations.LaunchStateHoldsTheResetValues :=
  ⟨fun p => ⟨rfl, rfl, rfl, rfl, rfl, rfl, rfl, rfl, rfl, RegFile.read_zero p.xInit, rfl, rfl⟩, rfl⟩

/-- Settles O15: `State.reset` is a launch, with parameters in their domain. -/
theorem launchMeetsTheInvariant : Obligations.LaunchMeetsTheInvariant :=
  ⟨fun _ => State.launched_inv, State.launched_inv Params.default_wf⟩

/-! ### The slots behind ID (R22 to R24) -/

/-- A property of the address and the record of every occupant behind ID. -/
def State.laterSlotsAll (s : State) (p : Word → Decoded → Bool) : Bool :=
  s.exSlot.all (fun l => p l.pc l.ins) && s.memSlot.all (fun l => p l.pc l.ins) && s.wbSlot.all (fun l => p l.pc l.ins)

theorem exAction_pc (s : State) (l : ExLatch) : (exAction s l).pc = l.pc := by cases l <;> rfl

/-- EX hands address and record on unchanged (R116). -/
theorem exStage_all (s : State) (p : Word → Decoded → Bool) :
    (exStage s).all (fun l => p l.pc l.ins) = s.exSlot.all (fun l => p l.pc l.ins) := by
  unfold exStage
  cases s.exSlot with
  | bubble => rfl
  | halted => rfl
  | occupied l => simp only [Slot.all, exAction_pc, exAction_ins]

/-- A data access that succeeds keeps address and record (R115). -/
theorem memAccess_keeps {size : Nat} {m m' : Memory} {l : MemLatch} {l' : WbLatch}
    (h : memAccess size m l = .ok (l', m')) : l'.ins = l.ins ∧ l'.pc = l.pc := by
  cases l with
  | loadI ins pc ea =>
    simp only [memAccess] at h
    split at h <;> cases h
    exact ⟨rfl, rfl⟩
  | s ins pc ea v =>
    simp only [memAccess] at h
    split at h <;> cases h
    exact ⟨rfl, rfl⟩
  | r | i | b | j => cases h; exact ⟨rfl, rfl⟩

/-- MEM hands address and record on unchanged (R115). -/
theorem memStage_all {s : State} {wb : Slot WbLatch} {m : Memory} (h : memStage s = .ok (wb, m))
    (p : Word → Decoded → Bool) : wb.all (fun l => p l.pc l.ins) = s.memSlot.all (fun l => p l.pc l.ins) := by
  unfold memStage at h
  cases hs : s.memSlot with
  | bubble => rw [hs] at h; cases h; rfl
  | halted => rw [hs] at h; cases h; rfl
  | occupied l =>
    cases ha : memAccess s.params.dmemSize s.dmem l with
    | error e => simp only [hs, ha] at h; cases h
    | ok q =>
      obtain ⟨l', m'⟩ := q
      obtain ⟨hins, hpc⟩ := memAccess_keeps ha
      simp only [hs, ha] at h
      cases h
      simp only [Slot.all, hins, hpc]

/-- What holds of the occupants behind ID, and of the record the word in ID decodes to, holds behind ID after a step. -/
theorem step_laterSlotsAll {s t : State} {p : Word → Decoded → Bool} (hf : s.fault = none) (h : step s = .next t)
    (hid : ∀ f i x l, s.idSlot = .occupied f → decode f.word = .ok i → exLatchOf i f.pc x = some l →
      p l.pc l.ins = true) (hs : s.laterSlotsAll p = true) : t.laterSlotsAll p = true := by
  obtain ⟨wb, m, d, f, hm, hd, -, rfl⟩ := (step_next_iff hf).mp h
  simp only [State.laterSlotsAll, Bool.and_eq_true] at hs ⊢
  obtain ⟨⟨hex, hmem⟩, -⟩ := hs
  refine ⟨⟨?_, (exStage_all s p).trans hex⟩, (memStage_all hm p).trans hmem⟩
  rw [commit_exSlot]
  rcases idStage_ex_cases hd with ⟨-, he⟩ | ⟨-, he⟩ | ⟨g, i, l, hg, hi, hl, -, he⟩ <;> rw [he]
  · rfl
  · rfl
  · exact hid g i _ l hg hi hl

/-! ### The fetch side (R20, R21, R145) -/

theorem isFetchable_iff {p : Params} {a : Word} :
    isFetchable p a = true ↔ a.toNat % 4 = 0 ∧ a.toNat + 3 < p.imemSize := by
  simp only [isFetchable, Bool.and_eq_true, decide_eq_true_eq]

theorem isEven_of_isFetchable {p : Params} {a : Word} (h : isFetchable p a = true) : isEven a = true := by
  obtain ⟨h4, -⟩ := isFetchable_iff.mp h
  exact isEven_iff.mpr (by omega)

/-- The fetch address after a cycle (R121): kept, advanced, or the target of a redirect. -/
theorem ifStage_pc {s : State} {ctl : FetchCtl} {f : FetchOut} (h : ifStage s ctl = .ok f) :
    f.pc = s.pc ∨ f.pc = s.pc + 4#32 ∨ ctl = .redirect f.pc := by
  rcases ifStage_ok_iff.mp h with ⟨-, rfl⟩ | ⟨-, w, -, rfl⟩
  · exact .inl rfl
  · cases ctl with
    | advance => exact .inr (.inl rfl)
    | redirect target => exact .inr (.inr rfl)
    | stall | haltSeen => exact .inl rfl

/-- The ID slot after a cycle (R121): kept, emptied, or the word fetched at `pc`. -/
theorem ifStage_idSlot {s : State} {ctl : FetchCtl} {f : FetchOut} (h : ifStage s ctl = .ok f) :
    f.idSlot = s.idSlot ∨ f.idSlot = .bubble ∨ f.idSlot = .halted ∨
      ∃ w, imemRead s.params s.pc = .ok w ∧ f.idSlot = .occupied ⟨w, s.pc⟩ := by
  rcases ifStage_ok_iff.mp h with ⟨-, rfl⟩ | ⟨-, w, hw, rfl⟩
  · exact .inl rfl
  · cases ctl with
    | advance => exact .inr (.inr (.inr ⟨w, hw, rfl⟩))
    | redirect target => exact .inr (.inl rfl)
    | stall => exact .inl rfl
    | haltSeen => exact .inr (.inr (.inl rfl))

/-- A redirect goes to the offset from the address of the instruction in ID (R140). -/
theorem idStage_redirect {s : State} {x : RegFile} {d : IdOut} {target : Word} (h : idStage s x = .ok d)
    (hc : d.ctl = .redirect target) :
    ∃ f i, s.idSlot = .occupied f ∧ decode f.word = .ok i ∧ target = f.pc + transferOffset i := by
  rcases idStage_ok_cases h with ⟨-, rfl⟩ | ⟨-, rfl⟩ | ⟨f, i, hs, hi, rfl⟩
  · cases hc
  · cases hc
  · refine ⟨f, i, hs, hi, ?_⟩
    rcases idOut_cases i s x with ⟨-, ho⟩ | ⟨-, ho⟩ | ⟨l, -, -, ⟨-, ho⟩ | ⟨-, ho⟩⟩ <;> rw [ho] at hc <;> cases hc
    rw [State.idPc_occupied hs]

/-- The fetch address stays even (R145). -/
theorem step_pcEven {s t : State} (hinv : s.Inv) (h : step s = .next t) : isEven t.pc = true := by
  obtain ⟨wb, m, d, f, -, hd, hfetch, rfl⟩ := (step_next_iff hinv.running).mp h
  rw [commit_pc]
  rcases ifStage_pc hfetch with hpc | hpc | hctl
  · rw [hpc]; exact hinv.pcEven
  · rw [hpc]; exact isEven_add hinv.pcEven (by decide)
  · obtain ⟨g, i, hg, hi, htarget⟩ := idStage_redirect hd hctl
    have hid := hinv.idFetched
    simp only [hg, Slot.all, Bool.and_eq_true] at hid
    rw [htarget]
    exact isEven_add (isEven_of_isFetchable hid.1) (isEven_transferOffset (decode_wellFormed hi))

/-- The ID slot keeps to the word IMEM holds at its address (R21). -/
theorem step_idFetched {s t : State} (hinv : s.Inv) (h : step s = .next t) :
    t.idSlot.all (fun f => isFetchable t.params f.pc && decide (f.word = t.params.imem.readWord f.pc.toNat)) = true := by
  obtain ⟨wb, m, d, f, -, -, hfetch, rfl⟩ := (step_next_iff hinv.running).mp h
  rw [commit_idSlot, commit_params]
  rcases ifStage_idSlot hfetch with hid | hid | hid | ⟨w, hw, hid⟩ <;> rw [hid]
  · exact hinv.idFetched
  · rfl
  · rfl
  · obtain ⟨h4, hin, rfl⟩ := imemRead_ok_iff.mp hw
    simp only [Slot.all, isFetchable_iff.mpr ⟨h4, hin⟩, decide_true, Bool.and_self]

/-! ### Loads are separated from their dependents (R136) -/

theorem State.loadsSeparated_iff {s : State} : s.loadsSeparated = true ↔
    ∀ ins pc ea l, s.memSlot = .occupied (.loadI ins pc ea) → s.exSlot = .occupied l →
      ¬(l.ins.rs1 = some ins.rd ∨ l.ins.rs2 = some ins.rd) := by
  unfold State.loadsSeparated
  split
  · next ins pc ea l hm he =>
    simp only [hm, he, Bool.and_eq_true, decide_eq_true_eq, ne_eq, ← not_or]
    refine ⟨fun hn ins' pc' ea' l' hm' he' => ?_, fun hn => hn ins pc ea l rfl rfl⟩
    cases hm'
    cases he'
    exact hn
  · next hn => exact ⟨fun _ ins pc ea l hm he => absurd he (hn ins pc ea l hm), fun _ => rfl⟩

/-- Only a load in EX becomes a load in MEM (R116). -/
theorem exStage_loadI {s : State} {ins : IIns} {pc ea : Word} (h : exStage s = .occupied (.loadI ins pc ea)) :
    ∃ v, s.exSlot = .occupied (.loadI ins pc v) := by
  unfold exStage at h
  split at h
  · cases h
  · cases h
  · next l hl =>
    cases l with
    | loadI ins' pc' v => cases h; exact ⟨v, hl⟩
    | r | i | s | b | j => cases h

/-- An instruction that does not stall has no source that is the destination of a load in EX (R130). -/
theorem not_mem_sources_of_not_stalls {s : State} {i : Instr} {ins : IIns} {pc v : Word} (h : s.stalls i = false)
    (hs : s.exSlot = .occupied (.loadI ins pc v)) : ins.rd ∉ i.sources := by
  simpa [State.stalls, hs] using h

/-- No dependent of a load enters EX in the cycle the load leaves it: it would have stalled (R130, R136). -/
theorem step_loadsSeparated {s t : State} (hf : s.fault = none) (h : step s = .next t) : t.loadsSeparated = true := by
  obtain ⟨wb, m, d, f, -, hd, -, rfl⟩ := (step_next_iff hf).mp h
  rw [State.loadsSeparated_iff, commit_memSlot, commit_exSlot]
  intro ins pc ea l hload hl hsource
  obtain ⟨v, hex⟩ := exStage_loadI hload
  rcases idStage_ex_cases hd with ⟨-, he⟩ | ⟨-, he⟩ | ⟨g, i, l', -, -, hl', hst, he⟩ <;> rw [he] at hl <;> cases hl
  exact not_mem_sources_of_not_stalls hst hex (exLatchOf_sources hl' hsource)

/-! ### The invariant -/

/-- Settles O26, clause by clause. -/
theorem everyStepKeepsTheInvariant : Obligations.EveryStepKeepsTheInvariant := by
  intro s t hinv h
  have haddresses : t.laterSlotsAll (fun pc _ => isFetchable s.params pc) = true := by
    refine step_laterSlotsAll hinv.running h (fun f i x l hs hi hl => ?_) hinv.addresses
    have hid := hinv.idFetched
    simp only [hs, Slot.all, Bool.and_eq_true] at hid
    rw [exLatchOf_pc hl]
    exact hid.1
  have hrecords : t.laterSlotsAll (fun _ ins => ins.legal) = true :=
    step_laterSlotsAll hinv.running h (fun f i x l _ hi hl => exLatchOf_legal (decode_wellFormed hi) hl) hinv.records
  have hhalts := step_haltChain hinv.running hinv.halts h
  have hpc := step_pcEven hinv h
  have hid := step_idFetched hinv h
  have hloads := step_loadsSeparated hinv.running h
  obtain ⟨wb, m, d, f, hm, -, -, rfl⟩ := (step_next_iff hinv.running).mp h
  obtain ⟨hcanonical, hinside⟩ := memStage_keeps hm hinv.dmemCanonical hinv.dmemInside
  exact {
    running := hinv.running
    parameters := hinv.parameters
    dmemCanonical := hcanonical
    dmemInside := hinside
    halts := hhalts
    pcEven := hpc
    idFetched := hid
    addresses := haddresses
    records := hrecords
    loads := hloads }

end Sys2Proof.Machine
end

section
/-! PROOF. The two stores (`20_memory.md`): bytes and words (R33, R37), the errors of an access (R34 to R37), what a
cycle does to DMEM (R41, R115), and that no step touches IMEM (R44). -/

namespace Sys2Proof.Machine

/-! ### Words -/

/-- Settles O9: `byteOfWord` spells the four bytes, `Memory.readWord` their concatenation. -/
theorem wordsAreBigEndian : Obligations.WordsAreBigEndian := by
  intro m a v hw
  have byte : ∀ k < 4, (m.writeWord a v).read (a + k) = byteOfWord v k :=
    fun _ hk => Memory.read_writeWord_inside hw a v hk
  exact ⟨byte 0 (by decide), byte 1 (by decide), byte 2 (by decide), byte 3 (by decide),
    fun _ hb => Memory.read_writeWord_outside hw a v hb, rfl, Memory.readWord_writeWord hw a v,
    Memory.writeWord_wf a v hw⟩

/-! ### The errors of an access -/

theorem checkAccess_misaligned {a : Word} (h : a.toNat % 4 ≠ 0) (size : Nat) :
    checkAccess size a = .error .misaligned :=
  checkAccess_error_iff.mpr (.inl ⟨h, rfl⟩)

theorem checkAccess_outOfBounds {size : Nat} {a : Word} (h : a.toNat % 4 = 0) (hb : size ≤ a.toNat + 3) :
    checkAccess size a = .error .outOfBounds :=
  checkAccess_error_iff.mpr (.inr ⟨h, hb, rfl⟩)

/-- A fetch fails with the error of the check and with no other (R35). -/
theorem imemRead_error_iff {p : Params} {a : Word} {e : Fault} :
    imemRead p a = .error e ↔ checkAccess p.imemSize a = .error e := by
  unfold imemRead
  cases checkAccess p.imemSize a <;> simp

/-- A load fails with the error of the check and with no other (R36). -/
theorem memRead_error_iff {size : Nat} {d : Memory} {a : Word} {e : Fault} :
    memRead size d a = .error e ↔ checkAccess size a = .error e := by
  unfold memRead
  cases checkAccess size a <;> simp

/-- A store fails with the error of the check and with no other (R37). -/
theorem memWrite_error_iff {size : Nat} {d : Memory} {a v : Word} {e : Fault} :
    memWrite size d a v = .error e ↔ checkAccess size a = .error e := by
  unfold memWrite
  cases checkAccess size a <;> simp

/-- Settles O10: each access fails as the check does, and else answers what its `ok` lemma says. -/
theorem accessesAreCheckedAlignmentFirst : Obligations.AccessesAreCheckedAlignmentFirst := by
  intro p size d a v
  refine ⟨fun h => ⟨?_, ?_, ?_⟩, fun h hb => ?_, fun h hb => ⟨?_, ?_⟩, fun h hb => ?_, fun h hb => ⟨?_, ?_⟩⟩
  · exact imemRead_error_iff.mpr (checkAccess_misaligned h _)
  · exact memRead_error_iff.mpr (checkAccess_misaligned h _)
  · exact memWrite_error_iff.mpr (checkAccess_misaligned h _)
  · exact imemRead_error_iff.mpr (checkAccess_outOfBounds h hb)
  · exact memRead_error_iff.mpr (checkAccess_outOfBounds h hb)
  · exact memWrite_error_iff.mpr (checkAccess_outOfBounds h hb)
  · exact imemRead_ok_iff.mpr ⟨h, hb, rfl⟩
  · exact memRead_ok_iff.mpr ⟨h, hb, rfl⟩
  · exact memWrite_ok_iff.mpr ⟨h, hb, rfl⟩

/-! ### DMEM in a cycle -/

/-- A MEM stage that succeeds keeps the canonical form, wherever the listed addresses lie. -/
theorem memStage_wf {s : State} {wb : Slot WbLatch} {d : Memory} (h : memStage s = .ok (wb, d)) (hw : s.dmem.wf) :
    d.wf := by
  rcases memStage_ok h with rfl | ⟨-, -, ea, v, -, -, -, rfl⟩
  · exact hw
  · exact Memory.writeWord_wf _ v hw

/-- Settles O21, from what the MEM stage writes: the commit leaves the parameters and the marker alone. -/
theorem memoryFrameOfEveryInstructionInId : Obligations.MemoryFrameOfEveryInstructionInId := by
  intro i s t hw h
  obtain ⟨wb, m, f, hm, -, rfl⟩ := exec_next_iff.mp h
  exact ⟨memStage_read hm hw, memStage_wf hm hw, rfl, rfl⟩

/-- A load in MEM that succeeds hands WB the word at the latched address (R36, R115). -/
theorem memStage_load {s : State} {wb : Slot WbLatch} {d : Memory} {ins : IIns} {pc ea : Word}
    (h : memStage s = .ok (wb, d)) (hs : s.memSlot = .occupied (.loadI ins pc ea)) :
    wb = .occupied (.loadI ins pc (s.dmem.readWord ea.toNat)) := by
  unfold memStage memAccess at h
  simp only [hs] at h
  cases hr : memRead s.params.dmemSize s.dmem ea with
  | error e => simp [hr] at h
  | ok w =>
    obtain ⟨-, -, rfl⟩ := memRead_ok_iff.mp hr
    simp only [hr, Except.ok.injEq, Prod.mk.injEq] at h
    exact h.1.symm

/-- Settles O41: the first step commits the store, and the load, one step later, reads it back. -/
theorem loadSeesTheStoreAheadOfIt : Obligations.LoadSeesTheStoreAheadOfIt := by
  intro s t u si li pc pc' ea v hf hw hstore hload hst htu
  obtain ⟨wb, m, d, f, hm, -, -, rfl⟩ := (step_next_iff hf).mp hst
  obtain ⟨wb', m', d', f', hm', -, -, rfl⟩ := (step_next_iff (s := commit s d wb m f) hf).mp htu
  rw [commit_wbSlot, memStage_load hm' hload, commit_dmem, memStage_store hm hstore, Memory.readWord_writeWord hw]

/-! ### IMEM along a run -/

/-- No step changes a launch parameter, and IMEM is one of them (R5, R44). -/
theorem step_params {s t : State} (h : step s = .next t) : t.params = s.params := by
  cases hf : s.fault with
  | some e =>
    unfold step at h
    rw [hf] at h
    cases h
    rfl
  | none =>
    obtain ⟨wb, m, d, f, -, -, -, rfl⟩ := (step_next_iff hf).mp h
    rfl

/-- The same along a run. -/
theorem Runs.params_eq {n : Nat} {s t : State} (h : Runs n s t) : t.params = s.params := by
  induction n generalizing s with
  | zero => rw [Runs.zero_iff.mp h]
  | succ n ih =>
    obtain ⟨u, hsu, hut⟩ := Runs.succ_iff.mp h
    exact (ih hut).trans (step_params hsu)

/-- Settles O23: a fetch reads the launch parameters alone. -/
theorem stepsNeverChangeInstructionMemory : Obligations.StepsNeverChangeInstructionMemory :=
  fun _ _ _ h => ⟨h.params_eq, fun a => congrArg (imemRead · a) h.params_eq⟩

end Sys2Proof.Machine
end

section
/-! PROOF. The decoder against the tables of `30_encoding.md`: which class an opcode has and which operation ALU control
selects, each as an equivalence on the fields; what the decoder answers, class by class (R52, R58, R61, R71, R74, R76);
and which error it answers. -/

namespace Sys2Proof

/-! ### The class table (R52) -/

/-- The opcode of a class: the class table read the other way. -/
def Cls.opcode : Cls → BitVec 7
  | .r => 0x33#7
  | .i => 0x13#7
  | .loadI => 0x03#7
  | .s => 0x23#7
  | .b => 0x63#7
  | .j => 0x6F#7
  | .halt => 0x7F#7

theorem classOf_opcode (c : Cls) : classOf c.opcode = some c := by cases c <;> rfl

theorem classOf_eq_none_iff {op : BitVec 7} :
    classOf op = none ↔ op ∉ [0x33#7, 0x13#7, 0x03#7, 0x23#7, 0x63#7, 0x6F#7, 0x7F#7] := by
  simp [classOf, opcodeClass, Config.haltOpcode, List.lookup_eq_none_iff]

theorem classOf_eq_some_iff {op : BitVec 7} {c : Cls} : classOf op = some c ↔ op = c.opcode := by
  refine ⟨fun h => ?_, fun h => h ▸ classOf_opcode c⟩
  obtain ⟨l, l', hl, -⟩ := List.lookup_eq_some_iff.mp h
  have hmem : (op, c) ∈ opcodeClass := by rw [hl]; simp
  simp only [opcodeClass, List.mem_cons, Prod.mk.injEq, List.not_mem_nil, or_false] at hmem
  rcases hmem with ⟨rfl, rfl⟩ | ⟨rfl, rfl⟩ | ⟨rfl, rfl⟩ | ⟨rfl, rfl⟩ | ⟨rfl, rfl⟩ | ⟨rfl, rfl⟩ | ⟨rfl, rfl⟩ <;> rfl

/-! ### ALU control and the branch condition (R74, R76) -/

/-- The `funct3` by which ALU control selects an operation; ADD and SUBTRACT share one (R74). -/
def AluOp.funct3 : AluOp → BitVec 3
  | .add => 0#3
  | .subtract => 0#3
  | .xor => 4#3
  | .or => 6#3
  | .and => 7#3

theorem aluControlI_ok_iff {f3 : BitVec 3} {op : AluOp} :
    aluControlI f3 = .ok op ↔ f3 = op.funct3 ∧ op ≠ .subtract := by
  cases op <;> revert f3 <;> decide

theorem aluControlI_error_iff {f3 : BitVec 3} {e : DecodeError} :
    aluControlI f3 = .error e ↔ e = .unresolvedOperation ∧ f3 ∈ [1#3, 2#3, 3#3, 5#3] := by
  cases e <;> revert f3 <;> decide

/-- With a `funct3` other than 000, class R has the operations of class I, whatever `funct7` is (R60, R74). -/
theorem aluControlR_of_ne_zero {f3 : BitVec 3} (h : f3 ≠ 0#3) (f7 : BitVec 7) : aluControlR f3 f7 = aluControlI f3 := by
  unfold aluControlR
  rw [if_neg h]
  revert f3
  decide

theorem aluControlR_zero (f7 : BitVec 7) : aluControlR 0#3 f7 =
    if f7 = 0x00#7 then .ok .add else if f7 = 0x20#7 then .ok .subtract else .error .unresolvedOperation := rfl

theorem aluControlR_ok_iff {f3 : BitVec 3} {f7 : BitVec 7} {op : AluOp} : aluControlR f3 f7 = .ok op ↔
    f3 = op.funct3 ∧ (op = .add → f7 = 0x00#7) ∧ (op = .subtract → f7 = 0x20#7) := by
  by_cases h : f3 = 0#3
  · subst h
    rw [aluControlR_zero]
    split_ifs with h0 h20
    · cases op <;> simp [AluOp.funct3, h0]
    · cases op <;> simp [AluOp.funct3, h20]
    · cases op <;> simp [AluOp.funct3, h0, h20]
  · rw [aluControlR_of_ne_zero h, aluControlI_ok_iff]
    cases op <;> simp [AluOp.funct3, h]

theorem aluControlR_error_iff {f3 : BitVec 3} {f7 : BitVec 7} {e : DecodeError} : aluControlR f3 f7 = .error e ↔
    e = .unresolvedOperation ∧ (f3 ∈ [1#3, 2#3, 3#3, 5#3] ∨ (f3 = 0#3 ∧ f7 ∉ [0x00#7, 0x20#7])) := by
  by_cases h : f3 = 0#3
  · subst h
    rw [aluControlR_zero]
    split_ifs with h0 h20
    · simp [h0]
    · simp [h20]
    · simp [h0, h20, eq_comm]
  · rw [aluControlR_of_ne_zero h, aluControlI_error_iff]
    simp only [h, false_and, or_false]

theorem instrB_error_iff {w : Word} {e : DecodeError} :
    instrB w = .error e ↔ e = .unsupportedBranchCondition ∧ funct3Of w ∉ [0#3, 1#3] := by
  unfold instrB
  split_ifs with h0 h1
  · simp [h0]
  · simp [h1]
  · simp [h0, h1, eq_comm]

/-! ### What the decoder answers, class by class (R71) -/

section
variable {w : Word}

theorem decode_unknown (h : classOf (opcodeOf w) = none) : decode w = .error .unknownOpcode := by
  simp only [decode, h]

theorem decode_r (h : classOf (opcodeOf w) = some .r) :
    decode w = (aluControlR (funct3Of w) (funct7Of w)).map (instrR · w) := by
  simp only [decode, h]
  cases aluControlR (funct3Of w) (funct7Of w) <;> rfl

theorem decode_i (h : classOf (opcodeOf w) = some .i) : decode w = (aluControlI (funct3Of w)).bind (instrI · w) := by
  simp only [decode, h]
  cases aluControlI (funct3Of w) <;> rfl

theorem decode_loadI (h : classOf (opcodeOf w) = some .loadI) :
    decode w = (aluControlI (funct3Of w)).bind (instrLoadI · w) := by
  simp only [decode, h]
  cases aluControlI (funct3Of w) <;> rfl

theorem decode_s (h : classOf (opcodeOf w) = some .s) :
    decode w = .ok (.sw (funct3Of w) (rs1Of w) (rs2Of w) (immS w)) := by
  simp only [decode, h]

theorem decode_b (h : classOf (opcodeOf w) = some .b) : decode w = instrB w := by
  simp only [decode, h]

theorem decode_j (h : classOf (opcodeOf w) = some .j) : decode w = .ok (.jal (rdOf w) (immJ w)) := by
  simp only [decode, h]

theorem decode_halt (h : classOf (opcodeOf w) = some .halt) : decode w = .ok .halt := by
  simp only [decode, h]

end

/-! ### Which words are refused (R61) -/

theorem instrI_answers {op : AluOp} (h : op ≠ .subtract) (w : Word) : ∃ i, instrI op w = .ok i := by
  cases op with
  | subtract => exact absurd rfl h
  | _ => exact ⟨_, rfl⟩

theorem instrLoadI_answers {op : AluOp} (h : op ≠ .subtract) (w : Word) : ∃ i, instrLoadI op w = .ok i := by
  cases op with
  | subtract => exact absurd rfl h
  | _ => exact ⟨_, rfl⟩

/-- ALU control gives classes I and LoadI no SUBTRACT, so what has a row for the other operations fails only where ALU
control does (R74). -/
theorem aluControlI_bind_error_iff {f3 : BitVec 3} {f : AluOp → Except DecodeError Instr} {e : DecodeError}
    (hf : ∀ op, op ≠ .subtract → ∃ i, f op = .ok i) :
    (aluControlI f3).bind f = .error e ↔ aluControlI f3 = .error e := by
  cases ha : aluControlI f3 with
  | error e' => simp [Except.bind]
  | ok op =>
    obtain ⟨i, hi⟩ := hf op (aluControlI_ok_iff.mp ha).2
    simp [Except.bind, hi]

theorem aluControlR_map_error_iff {f3 : BitVec 3} {f7 : BitVec 7} {f : AluOp → Instr} {e : DecodeError} :
    (aluControlR f3 f7).map f = .error e ↔ aluControlR f3 f7 = .error e := by
  cases aluControlR f3 f7 <;> simp [Except.map]

/-- The decoder fails by the class table, by ALU control, or by the branch condition (R61, R71). -/
theorem decode_error_iff {w : Word} {e : DecodeError} : decode w = .error e ↔
    (classOf (opcodeOf w) = none ∧ e = .unknownOpcode) ∨
    (classOf (opcodeOf w) = some .r ∧ aluControlR (funct3Of w) (funct7Of w) = .error e) ∨
    ((classOf (opcodeOf w) = some .i ∨ classOf (opcodeOf w) = some .loadI) ∧ aluControlI (funct3Of w) = .error e) ∨
    (classOf (opcodeOf w) = some .b ∧ instrB w = .error e) := by
  cases hc : classOf (opcodeOf w) with
  | none => simp [decode_unknown hc, eq_comm]
  | some c =>
    cases c with
    | r => simp [decode_r hc, aluControlR_map_error_iff]
    | i => simp [decode_i hc, aluControlI_bind_error_iff fun _ hop => instrI_answers hop w]
    | loadI => simp [decode_loadI hc, aluControlI_bind_error_iff fun _ hop => instrLoadI_answers hop w]
    | s => simp [decode_s hc]
    | b => simp [decode_b hc]
    | j => simp [decode_j hc]
    | halt => simp [decode_halt hc]

/-- Settles O4: each part of `decode_error_iff` has an error of its own, under the condition its lemma states. -/
theorem decodeErrorsByName : Obligations.DecodeErrorsByName := by
  intro w
  have h (e : DecodeError) := decode_error_iff (w := w) (e := e)
  simp only [classOf_eq_none_iff, classOf_eq_some_iff, Cls.opcode, aluControlR_error_iff, aluControlI_error_iff,
    instrB_error_iff] at h
  refine ⟨(h _).trans ?_, (h _).trans ?_, (h _).trans ?_⟩
  · simp [opcodeOf]
  · simp only [opcodeOf, funct3Of, funct7Of, List.mem_cons, List.not_mem_nil, or_false, reduceCtorEq, and_false,
      false_and, false_or, true_and]
    tauto
  · simp [opcodeOf, funct3Of]

/-- Settles O6, by running the decoder on the ten words and the refused one. -/
theorem wordsOfEveryClassDecode : Obligations.WordsOfEveryClassDecode := by
  unfold Obligations.WordsOfEveryClassDecode
  decide

end Sys2Proof
end

section
/-! PROOF. Encoding undoes decoding, format by format (R53 to R59), and with it the masks and matches of the opcode table
(R58). -/

namespace Sys2Proof

/-! ### Encoding what was decoded (R53 to R58) -/

/-- A word has no bits outside its fields. -/
theorem word_eq_iff {v w : Word} : v = w ↔ funct7Of v = funct7Of w ∧ rs2Of v = rs2Of w ∧ rs1Of v = rs1Of w ∧
    funct3Of v = funct3Of w ∧ rdOf v = rdOf w ∧ opcodeOf v = opcodeOf w := by
  refine ⟨fun h => by simp [h], fun h => ?_⟩
  simp only [← BitVec.toNat_inj, funct7Of, rs2Of, rs1Of, funct3Of, rdOf, opcodeOf, BitVec.extractLsb'_toNat,
    Nat.shiftRight_eq_div_pow] at h ⊢
  omega

theorem encodeR_of_fields {w : Word} {f7 : BitVec 7} {f3 : BitVec 3} (ho : opcodeOf w = 0x33#7)
    (h3 : funct3Of w = f3) (h7 : funct7Of w = f7) : encodeR f7 (rs2Of w) (rs1Of w) f3 (rdOf w) = w := by
  simp [word_eq_iff, ho, h3, h7]

theorem encodeI_immI {w : Word} {f3 : BitVec 3} {op : BitVec 7} (ho : opcodeOf w = op) (h3 : funct3Of w = f3) :
    encodeI (immI w) (rs1Of w) f3 (rdOf w) op = w := by
  subst ho h3
  refine BitVec.eq_of_getLsbD_eq fun k hk => ?_
  simp only [encodeI, immI, rs1Of, funct3Of, rdOf, opcodeOf, BitVec.getLsbD_append, BitVec.getLsbD_extractLsb',
    BitVec.getLsbD_signExtend]
  interval_cases k <;> simp

theorem encodeS_immS {w : Word} (ho : opcodeOf w = 0x23#7) :
    encodeS (immS w) (rs2Of w) (rs1Of w) (funct3Of w) = w := by
  unfold encodeS
  rw [← ho]
  refine BitVec.eq_of_getLsbD_eq fun k hk => ?_
  simp only [immS, rs2Of, rs1Of, funct3Of, opcodeOf, BitVec.getLsbD_append, BitVec.getLsbD_extractLsb',
    BitVec.getLsbD_signExtend]
  interval_cases k <;> simp

theorem encodeB_immB {w : Word} {f3 : BitVec 3} (ho : opcodeOf w = 0x63#7) (h3 : funct3Of w = f3) :
    encodeB (immB w) (rs2Of w) (rs1Of w) f3 = w := by
  unfold encodeB
  rw [← ho, ← h3]
  refine BitVec.eq_of_getLsbD_eq fun k hk => ?_
  simp only [immB, rs2Of, rs1Of, funct3Of, opcodeOf, BitVec.getLsbD_append, BitVec.getLsbD_extractLsb',
    BitVec.getLsbD_signExtend]
  interval_cases k <;> simp

theorem encodeJ_immJ {w : Word} (ho : opcodeOf w = 0x6F#7) : encodeJ (immJ w) (rdOf w) = w := by
  unfold encodeJ
  rw [← ho]
  refine BitVec.eq_of_getLsbD_eq fun k hk => ?_
  simp only [immJ, rdOf, opcodeOf, BitVec.getLsbD_append, BitVec.getLsbD_extractLsb', BitVec.getLsbD_signExtend]
  interval_cases k <;> simp

theorem encode_instrR {w : Word} {op : AluOp} (ho : opcodeOf w = 0x33#7)
    (h : aluControlR (funct3Of w) (funct7Of w) = .ok op) : encode (instrR op w) = w := by
  obtain ⟨h3, hadd, hsub⟩ := aluControlR_ok_iff.mp h
  cases op with
  | add => exact encodeR_of_fields ho h3 (hadd rfl)
  | subtract => exact encodeR_of_fields ho h3 (hsub rfl)
  | xor | or | and => exact encodeR_of_fields ho h3 rfl

theorem encode_instrI {w : Word} {op : AluOp} {i : Instr} (ho : opcodeOf w = 0x13#7)
    (ha : aluControlI (funct3Of w) = .ok op) (h : instrI op w = .ok i) : encode i = w := by
  obtain ⟨h3, -⟩ := aluControlI_ok_iff.mp ha
  cases op <;> cases h <;> exact encodeI_immI ho h3

theorem encode_instrLoadI {w : Word} {op : AluOp} {i : Instr} (ho : opcodeOf w = 0x03#7)
    (ha : aluControlI (funct3Of w) = .ok op) (h : instrLoadI op w = .ok i) : encode i = w := by
  obtain ⟨h3, -⟩ := aluControlI_ok_iff.mp ha
  cases op <;> cases h <;> exact encodeI_immI ho h3

theorem encode_instrB {w : Word} {i : Instr} (ho : opcodeOf w = 0x63#7) (h : instrB w = .ok i) : encode i = w := by
  unfold instrB at h
  split_ifs at h with h0 h1
  · cases h; exact encodeB_immB ho h0
  · cases h; exact encodeB_immB ho h1

/-- A word that decodes is the encoding of its instruction, or one of the words of HALT (R59). -/
theorem decode_ok_cases {w : Word} {i : Instr} (h : decode w = .ok i) :
    encode i = w ∨ (i = .halt ∧ opcodeOf w = 0x7F#7) := by
  cases hc : classOf (opcodeOf w) with
  | none => rw [decode_unknown hc] at h; cases h
  | some c =>
    have ho := classOf_eq_some_iff.mp hc
    cases c with
    | r =>
      rw [decode_r hc] at h
      cases ha : aluControlR (funct3Of w) (funct7Of w) <;> rw [ha] at h <;> cases h
      exact .inl (encode_instrR ho ha)
    | i =>
      rw [decode_i hc] at h
      cases ha : aluControlI (funct3Of w) <;> rw [ha] at h
      · cases h
      · exact .inl (encode_instrI ho ha h)
    | loadI =>
      rw [decode_loadI hc] at h
      cases ha : aluControlI (funct3Of w) <;> rw [ha] at h
      · cases h
      · exact .inl (encode_instrLoadI ho ha h)
    | s => rw [decode_s hc] at h; cases h; exact .inl (encodeS_immS ho)
    | b => rw [decode_b hc] at h; exact .inl (encode_instrB ho h)
    | j => rw [decode_j hc] at h; cases h; exact .inl (encodeJ_immJ ho)
    | halt => rw [decode_halt hc] at h; cases h; exact .inr ⟨rfl, ho⟩

/-- Settles O2, from `decode_ok_cases`. -/
theorem encodeInvertsDecode : Obligations.EncodeInvertsDecode := by
  intro w i h
  refine ⟨decode_wellFormed h, fun hi => ?_, fun hi => ?_⟩ <;> rcases decode_ok_cases h with he | ⟨hh, ho⟩
  · exact he
  · exact absurd hh hi
  · rw [← he, hi]; decide
  · exact ho

/-! ### The opcode table (R58) -/

/-- The word with these fields and 0 elsewhere: the match of a row is such a word. -/
def rowMatch (f7 : BitVec 7) (f3 : BitVec 3) (op : BitVec 7) : Word := f7 ++ 0#10 ++ f3 ++ 0#5 ++ op

theorem opcodeOf_rowMatch (f7 : BitVec 7) (f3 : BitVec 3) (op : BitVec 7) : opcodeOf (rowMatch f7 f3 op) = op :=
  BitVec.extractLsb'_append_eq_right

theorem funct3Of_rowMatch (f7 : BitVec 7) (f3 : BitVec 3) (op : BitVec 7) : funct3Of (rowMatch f7 f3 op) = f3 := by
  refine (BitVec.extractLsb'_append_eq_of_le (by decide)).trans ?_
  refine (BitVec.extractLsb'_append_eq_of_le (by decide)).trans ?_
  exact BitVec.extractLsb'_append_eq_right

theorem funct7Of_rowMatch (f7 : BitVec 7) (f3 : BitVec 3) (op : BitVec 7) : funct7Of (rowMatch f7 f3 op) = f7 := by
  refine (BitVec.extractLsb'_append_eq_of_le (by decide)).trans ?_
  refine (BitVec.extractLsb'_append_eq_of_le (by decide)).trans ?_
  refine (BitVec.extractLsb'_append_eq_of_le (by decide)).trans ?_
  exact BitVec.extractLsb'_append_eq_left

section
variable {w : Word}

theorem and_rowMatch (w : Word) (m7 : BitVec 7) (m3 : BitVec 3) (mo : BitVec 7) :
    w &&& rowMatch m7 m3 mo = rowMatch (funct7Of w &&& m7) (funct3Of w &&& m3) (opcodeOf w &&& mo) := by
  refine BitVec.eq_of_getLsbD_eq fun k hk => ?_
  simp only [rowMatch, funct7Of, funct3Of, opcodeOf, BitVec.getLsbD_append, BitVec.getLsbD_extractLsb',
    BitVec.getLsbD_and]
  interval_cases k <;> simp

theorem and_127 (x : BitVec 7) : x &&& 127#7 = x := BitVec.and_allOnes

theorem and_7 (x : BitVec 3) : x &&& 7#3 = x := BitVec.and_allOnes

theorem and_opcodeMask (w : Word) : w &&& 0x0000007F#32 = rowMatch 0#7 0#3 (opcodeOf w) :=
  (and_rowMatch w 0#7 0#3 127#7).trans (by simp only [BitVec.and_zero, and_127])

theorem and_funct3Mask (w : Word) : w &&& 0x0000707F#32 = rowMatch 0#7 (funct3Of w) (opcodeOf w) :=
  (and_rowMatch w 0#7 7#3 127#7).trans (by simp only [BitVec.and_zero, and_127, and_7])

theorem and_funct7Mask (w : Word) : w &&& 0xFE00707F#32 = rowMatch (funct7Of w) (funct3Of w) (opcodeOf w) :=
  (and_rowMatch w 127#7 7#3 127#7).trans (by simp only [and_127, and_7])

theorem opcodeOf_of_mask {op : BitVec 7} (h : w &&& 0x0000007F#32 = rowMatch 0#7 0#3 op) : opcodeOf w = op := by
  rw [and_opcodeMask] at h
  simpa only [opcodeOf_rowMatch] using congrArg opcodeOf h

theorem fields_of_funct3Mask {f3 : BitVec 3} {op : BitVec 7}
    (h : w &&& 0x0000707F#32 = rowMatch 0#7 f3 op) : funct3Of w = f3 ∧ opcodeOf w = op := by
  rw [and_funct3Mask] at h
  exact ⟨by simpa only [funct3Of_rowMatch] using congrArg funct3Of h,
    by simpa only [opcodeOf_rowMatch] using congrArg opcodeOf h⟩

theorem fields_of_funct7Mask {f7 : BitVec 7} {f3 : BitVec 3} {op : BitVec 7}
    (h : w &&& 0xFE00707F#32 = rowMatch f7 f3 op) : funct7Of w = f7 ∧ funct3Of w = f3 ∧ opcodeOf w = op := by
  rw [and_funct7Mask] at h
  exact ⟨by simpa only [funct7Of_rowMatch] using congrArg funct7Of h,
    by simpa only [funct3Of_rowMatch] using congrArg funct3Of h,
    by simpa only [opcodeOf_rowMatch] using congrArg opcodeOf h⟩

/-- ADD and SUB: the rows that examine `funct7` (R60). -/
theorem decode_of_matches_funct7 {op : AluOp} {f7 : BitVec 7} (ha : aluControlR op.funct3 f7 = .ok op)
    (h : w &&& 0xFE00707F#32 = rowMatch f7 op.funct3 0x33#7) : decode w = .ok (instrR op w) := by
  obtain ⟨h7, h3, ho⟩ := fields_of_funct7Mask h
  rw [decode_r (classOf_eq_some_iff.mpr ho), h3, h7, ha]
  rfl

theorem decode_of_matches_r {op : AluOp} (hadd : op ≠ .add) (hsub : op ≠ .subtract)
    (h : w &&& 0x0000707F#32 = rowMatch 0#7 op.funct3 0x33#7) : decode w = .ok (instrR op w) := by
  obtain ⟨h3, ho⟩ := fields_of_funct3Mask h
  have ha : aluControlR (funct3Of w) (funct7Of w) = .ok op :=
    aluControlR_ok_iff.mpr ⟨h3, fun he => absurd he hadd, fun he => absurd he hsub⟩
  rw [decode_r (classOf_eq_some_iff.mpr ho), ha]
  rfl

theorem decode_of_matches_i {op : AluOp} (hop : op ≠ .subtract)
    (h : w &&& 0x0000707F#32 = rowMatch 0#7 op.funct3 0x13#7) : decode w = instrI op w := by
  obtain ⟨h3, ho⟩ := fields_of_funct3Mask h
  rw [decode_i (classOf_eq_some_iff.mpr ho), aluControlI_ok_iff.mpr ⟨h3, hop⟩]
  rfl

theorem decode_of_matches_loadI {op : AluOp} (hop : op ≠ .subtract)
    (h : w &&& 0x0000707F#32 = rowMatch 0#7 op.funct3 0x03#7) : decode w = instrLoadI op w := by
  obtain ⟨h3, ho⟩ := fields_of_funct3Mask h
  rw [decode_loadI (classOf_eq_some_iff.mpr ho), aluControlI_ok_iff.mpr ⟨h3, hop⟩]
  rfl

theorem decode_of_matches_beq (h : w &&& 0x0000707F#32 = rowMatch 0#7 0#3 0x63#7) :
    decode w = .ok (.beq (rs1Of w) (rs2Of w) (immB w)) := by
  obtain ⟨h3, ho⟩ := fields_of_funct3Mask h
  rw [decode_b (classOf_eq_some_iff.mpr ho), instrB, if_pos h3]

theorem decode_of_matches_bne (h : w &&& 0x0000707F#32 = rowMatch 0#7 1#3 0x63#7) :
    decode w = .ok (.bne (rs1Of w) (rs2Of w) (immB w)) := by
  obtain ⟨h3, ho⟩ := fields_of_funct3Mask h
  rw [decode_b (classOf_eq_some_iff.mpr ho), instrB, h3]
  rfl

end

namespace Machine

/-- An instruction's word matches the instruction's row. -/
theorem encode_matches_row {i : Instr} {mask value : Word} (h : opcodeRows[rowNumber i]? = some (mask, value)) :
    encode i &&& mask = value := by
  cases i with
  | add | sub => cases h; simp only [encode, and_funct7Mask, funct7Of_encodeR, funct3Of_encodeR, opcodeOf_encodeR]; rfl
  | xor | or | and => cases h; simp only [encode, and_funct3Mask, funct3Of_encodeR, opcodeOf_encodeR]; rfl
  | addi | xori | ori | andi | lw | lwXor | lwOr | lwAnd =>
    cases h; simp only [encode, and_funct3Mask, funct3Of_encodeI, opcodeOf_encodeI]; rfl
  | sw => cases h; simp only [encode, and_opcodeMask, opcodeOf_encodeS]; rfl
  | beq | bne => cases h; simp only [encode, and_funct3Mask, funct3Of_encodeB, opcodeOf_encodeB]; rfl
  | jal => cases h; simp only [encode, and_opcodeMask, opcodeOf_encodeJ]; rfl
  | halt => cases h; rfl

/-- A word matches the row of the instruction it decodes to. -/
theorem decode_matches_row {w : Word} {i : Instr} {mask value : Word} (h : decode w = .ok i)
    (hrow : opcodeRows[rowNumber i]? = some (mask, value)) : w &&& mask = value := by
  rcases decode_ok_cases h with rfl | ⟨rfl, ho⟩
  · exact encode_matches_row hrow
  · cases hrow
    rw [and_opcodeMask, ho]
    rfl

/-- A word that matches a row decodes to an instruction of that row. -/
theorem exists_decode_of_matches_row {w : Word} {k : Nat} {mask value : Word}
    (hrow : opcodeRows[k]? = some (mask, value)) (h : w &&& mask = value) :
    ∃ i, decode w = .ok i ∧ rowNumber i = k := by
  match k, hrow with
  | 0, rfl => exact ⟨_, decode_of_matches_funct7 (op := .add) (f7 := 0x00#7) rfl h, rfl⟩
  | 1, rfl => exact ⟨_, decode_of_matches_funct7 (op := .subtract) (f7 := 0x20#7) rfl h, rfl⟩
  | 2, rfl => exact ⟨_, decode_of_matches_r (op := .xor) nofun nofun h, rfl⟩
  | 3, rfl => exact ⟨_, decode_of_matches_r (op := .or) nofun nofun h, rfl⟩
  | 4, rfl => exact ⟨_, decode_of_matches_r (op := .and) nofun nofun h, rfl⟩
  | 5, rfl => exact ⟨_, decode_of_matches_i (op := .add) nofun h, rfl⟩
  | 6, rfl => exact ⟨_, decode_of_matches_i (op := .xor) nofun h, rfl⟩
  | 7, rfl => exact ⟨_, decode_of_matches_i (op := .or) nofun h, rfl⟩
  | 8, rfl => exact ⟨_, decode_of_matches_i (op := .and) nofun h, rfl⟩
  | 9, rfl => exact ⟨_, decode_of_matches_loadI (op := .add) nofun h, rfl⟩
  | 10, rfl => exact ⟨_, decode_of_matches_loadI (op := .xor) nofun h, rfl⟩
  | 11, rfl => exact ⟨_, decode_of_matches_loadI (op := .or) nofun h, rfl⟩
  | 12, rfl => exact ⟨_, decode_of_matches_loadI (op := .and) nofun h, rfl⟩
  | 13, rfl => exact ⟨_, decode_s (classOf_eq_some_iff.mpr (opcodeOf_of_mask h)), rfl⟩
  | 14, rfl => exact ⟨_, decode_of_matches_beq h, rfl⟩
  | 15, rfl => exact ⟨_, decode_of_matches_bne h, rfl⟩
  | 16, rfl => exact ⟨_, decode_j (classOf_eq_some_iff.mpr (opcodeOf_of_mask h)), rfl⟩
  | 17, rfl => exact ⟨_, decode_halt (classOf_eq_some_iff.mpr (opcodeOf_of_mask h)), rfl⟩

/-- Settles O3, by `exists_decode_of_matches_row` and `decode_matches_row`. -/
theorem decodeFollowsTheOpcodeTable : Obligations.DecodeFollowsTheOpcodeTable := by
  intro w k mask value hrow
  refine ⟨exists_decode_of_matches_row hrow, fun ⟨i, hi, hk⟩ => ?_⟩
  subst hk
  exact decode_matches_row hi hrow

end Machine
end Sys2Proof
end

section
/-! PROOF. The immediates of a word as integers (R54 to R57): a sign-extended field is the balanced residue of its
unsigned value, and that value is read off the word by division. -/

namespace Sys2Proof

theorem toNat_append_eq_add {m n : Nat} (x : BitVec m) (y : BitVec n) :
    (x ++ y).toNat = x.toNat * 2 ^ n + y.toNat := by
  rw [BitVec.toNat_append, ← Nat.shiftLeft_add_eq_or_of_lt y.isLt, Nat.shiftLeft_eq]

theorem toNat_extractLsb'_eq_div_mod {n : Nat} (x : BitVec n) (start len : Nat) :
    (x.extractLsb' start len).toNat = x.toNat / 2 ^ start % 2 ^ len := by
  rw [BitVec.extractLsb'_toNat, Nat.shiftRight_eq_div_pow]

/-- The signed value of a sign-extended field, from its unsigned value. -/
theorem toInt_signExtend_eq_bmod {n v k : Nat} {x : BitVec n} (hn : n ≤ v) (hk : x.toNat = k) :
    (x.signExtend v).toInt = Int.bmod k (2 ^ n) := by
  rw [BitVec.toInt_signExtend_of_le hn, BitVec.toInt_eq_toNat_bmod, hk]

/-- Settles O5: each immediate is a sign-extended field, whose unsigned value the pieces of the word add up to. -/
theorem immediatesAreTheSignedPiecesOfTheWord : Obligations.ImmediatesAreTheSignedPiecesOfTheWord := by
  intro w
  have hw := w.isLt
  refine ⟨toInt_signExtend_eq_bmod (by decide) ?_, toInt_signExtend_eq_bmod (by decide) ?_,
    toInt_signExtend_eq_bmod (by decide) ?_, toInt_signExtend_eq_bmod (by decide) ?_⟩
  all_goals
    simp only [toNat_append_eq_add, toNat_extractLsb'_eq_div_mod, BitVec.toNat_ofNat]
    omega

end Sys2Proof
end

section
/-! PROOF. The decoder undoes the encoder (R78): a well-formed immediate comes back from the pieces its format cuts it
into (R54 to R57), each class answers its own row (R58, R71), and the four bytes of a word are the word again (R33). -/

namespace Sys2Proof

/-! ### Immediates (R54 to R57) -/

/-- An immediate that `m + 1` bits hold is the sign extension of its low `m + 1` bits. -/
theorem signExtend_extractLsb'_of_fitsSigned {m : Nat} (hm : m + 1 ≤ 32) {imm : Word}
    (h : fitsSigned (m + 1) imm = true) : (imm.extractLsb' 0 (m + 1)).signExtend 32 = imm := by
  simp only [fitsSigned, Bool.and_eq_true, decide_eq_true_eq, Nat.add_sub_cancel] at h
  refine BitVec.eq_of_toInt_eq ?_
  calc ((imm.extractLsb' 0 (m + 1)).signExtend 32).toInt
      = Int.bmod imm.toNat (2 ^ (m + 1)) := by
        rw [BitVec.toInt_signExtend_of_le hm, BitVec.toInt_extractLsb', Nat.shiftRight_zero]
    _ = Int.bmod imm.toInt (2 ^ (m + 1)) := by
        rw [BitVec.toInt_eq_toNat_bmod, Int.bmod_bmod_of_dvd (Nat.pow_dvd_pow 2 hm)]
    _ = imm.toInt := Int.bmod_eq_of_le_mul_two (by push_cast; omega) (by push_cast; omega)

section
variable {imm : Word}

theorem immI_encodeI (h : fitsSigned 12 imm = true) (rs1 : Reg) (f3 : BitVec 3) (rd : Reg) (op : BitVec 7) :
    immI (encodeI imm rs1 f3 rd op) = imm := by
  rw [immI, encodeI]
  refine (congrArg _ ?_).trans (signExtend_extractLsb'_of_fitsSigned (by decide) h)
  refine BitVec.eq_of_getLsbD_eq fun k hk => ?_
  simp only [BitVec.getLsbD_extractLsb', BitVec.getLsbD_append]
  interval_cases k <;> simp

theorem immS_encodeS (h : fitsSigned 12 imm = true) (rs2 rs1 : Reg) (f3 : BitVec 3) :
    immS (encodeS imm rs2 rs1 f3) = imm := by
  rw [immS, encodeS]
  refine (congrArg _ ?_).trans (signExtend_extractLsb'_of_fitsSigned (by decide) h)
  refine BitVec.eq_of_getLsbD_eq fun k hk => ?_
  simp only [BitVec.getLsbD_extractLsb', BitVec.getLsbD_append]
  interval_cases k <;> simp

/-- The B format leaves out bit 0, which an even immediate has clear (R56). -/
theorem immB_encodeB (h : fitsSigned 13 imm = true) (he : isEven imm = true) (rs2 rs1 : Reg) (f3 : BitVec 3) :
    immB (encodeB imm rs2 rs1 f3) = imm := by
  have h0 : imm[0] = false := by simpa [isEven] using he
  rw [immB, encodeB]
  refine (congrArg _ ?_).trans (signExtend_extractLsb'_of_fitsSigned (by decide) h)
  refine BitVec.eq_of_getLsbD_eq fun k hk => ?_
  simp only [BitVec.getLsbD_extractLsb', BitVec.getLsbD_append]
  interval_cases k <;> simp [h0]

/-- The J format leaves out bit 0 too (R57). -/
theorem immJ_encodeJ (h : fitsSigned 21 imm = true) (he : isEven imm = true) (rd : Reg) :
    immJ (encodeJ imm rd) = imm := by
  have h0 : imm[0] = false := by simpa [isEven] using he
  rw [immJ, encodeJ]
  refine (congrArg _ ?_).trans (signExtend_extractLsb'_of_fitsSigned (by decide) h)
  refine BitVec.eq_of_getLsbD_eq fun k hk => ?_
  simp only [BitVec.getLsbD_extractLsb', BitVec.getLsbD_append]
  interval_cases k <;> simp [h0]

/-! ### The decoder on an encoded word, format by format (R71) -/

theorem decode_encodeR {op : AluOp} {f7 : BitVec 7} (ha : aluControlR op.funct3 f7 = .ok op) (rs2 rs1 rd : Reg) :
    decode (encodeR f7 rs2 rs1 op.funct3 rd) = .ok (instrR op (encodeR f7 rs2 rs1 op.funct3 rd)) := by
  rw [decode_r (classOf_eq_some_iff.mpr (opcodeOf_encodeR ..)), funct3Of_encodeR, funct7Of_encodeR, ha]
  rfl

theorem decode_encodeI {op : AluOp} (hop : op ≠ .subtract) (imm : Word) (rs1 rd : Reg) :
    decode (encodeI imm rs1 op.funct3 rd 0x13#7) = instrI op (encodeI imm rs1 op.funct3 rd 0x13#7) := by
  rw [decode_i (classOf_eq_some_iff.mpr (opcodeOf_encodeI _ _ _ _ 0x13#7)), funct3Of_encodeI,
    aluControlI_ok_iff.mpr ⟨rfl, hop⟩]
  rfl

theorem decode_encodeI_loadI {op : AluOp} (hop : op ≠ .subtract) (imm : Word) (rs1 rd : Reg) :
    decode (encodeI imm rs1 op.funct3 rd 0x03#7) = instrLoadI op (encodeI imm rs1 op.funct3 rd 0x03#7) := by
  rw [decode_loadI (classOf_eq_some_iff.mpr (opcodeOf_encodeI _ _ _ _ 0x03#7)), funct3Of_encodeI,
    aluControlI_ok_iff.mpr ⟨rfl, hop⟩]
  rfl

theorem decode_encodeS (h : fitsSigned 12 imm = true) (rs2 rs1 : Reg) (f3 : BitVec 3) :
    decode (encodeS imm rs2 rs1 f3) = .ok (.sw f3 rs1 rs2 imm) := by
  rw [decode_s (classOf_eq_some_iff.mpr (opcodeOf_encodeS ..)), funct3Of_encodeS, rs1Of_encodeS, rs2Of_encodeS,
    immS_encodeS h]

theorem decode_encodeB (imm : Word) (rs2 rs1 : Reg) (f3 : BitVec 3) :
    decode (encodeB imm rs2 rs1 f3) = instrB (encodeB imm rs2 rs1 f3) :=
  decode_b (classOf_eq_some_iff.mpr (opcodeOf_encodeB ..))

theorem decode_encodeJ (h : fitsSigned 21 imm = true) (he : isEven imm = true) (rd : Reg) :
    decode (encodeJ imm rd) = .ok (.jal rd imm) := by
  rw [decode_j (classOf_eq_some_iff.mpr (opcodeOf_encodeJ ..)), rdOf_encodeJ, immJ_encodeJ h he]

end

/-! ### The round trip (R78) -/

/-- Every well-formed instruction comes back from its word. -/
theorem decode_encode {i : Instr} (h : i.wellFormed = true) : decode (encode i) = .ok i := by
  cases i with
  | add rd rs1 rs2 => exact (decode_encodeR (op := .add) rfl rs2 rs1 rd).trans (by simp [instrR])
  | sub rd rs1 rs2 => exact (decode_encodeR (op := .subtract) rfl rs2 rs1 rd).trans (by simp [instrR])
  | xor f7 rd rs1 rs2 => exact (decode_encodeR (op := .xor) rfl rs2 rs1 rd).trans (by simp [instrR])
  | or f7 rd rs1 rs2 => exact (decode_encodeR (op := .or) rfl rs2 rs1 rd).trans (by simp [instrR])
  | and f7 rd rs1 rs2 => exact (decode_encodeR (op := .and) rfl rs2 rs1 rd).trans (by simp [instrR])
  | addi rd rs1 imm => exact (decode_encodeI (op := .add) nofun imm rs1 rd).trans (by simp [instrI, immI_encodeI h])
  | xori rd rs1 imm => exact (decode_encodeI (op := .xor) nofun imm rs1 rd).trans (by simp [instrI, immI_encodeI h])
  | ori rd rs1 imm => exact (decode_encodeI (op := .or) nofun imm rs1 rd).trans (by simp [instrI, immI_encodeI h])
  | andi rd rs1 imm => exact (decode_encodeI (op := .and) nofun imm rs1 rd).trans (by simp [instrI, immI_encodeI h])
  | lw rd rs1 imm =>
    exact (decode_encodeI_loadI (op := .add) nofun imm rs1 rd).trans (by simp [instrLoadI, immI_encodeI h])
  | lwXor rd rs1 imm =>
    exact (decode_encodeI_loadI (op := .xor) nofun imm rs1 rd).trans (by simp [instrLoadI, immI_encodeI h])
  | lwOr rd rs1 imm =>
    exact (decode_encodeI_loadI (op := .or) nofun imm rs1 rd).trans (by simp [instrLoadI, immI_encodeI h])
  | lwAnd rd rs1 imm =>
    exact (decode_encodeI_loadI (op := .and) nofun imm rs1 rd).trans (by simp [instrLoadI, immI_encodeI h])
  | sw f3 rs1 rs2 imm => exact decode_encodeS h rs2 rs1 f3
  | beq rs1 rs2 imm =>
    obtain ⟨hfit, heven⟩ := Bool.and_eq_true_iff.mp h
    exact (decode_encodeB imm rs2 rs1 0#3).trans (by simp [instrB, immB_encodeB hfit heven])
  | bne rs1 rs2 imm =>
    obtain ⟨hfit, heven⟩ := Bool.and_eq_true_iff.mp h
    exact (decode_encodeB imm rs2 rs1 1#3).trans (by simp [instrB, immB_encodeB hfit heven])
  | jal rd imm =>
    obtain ⟨hfit, heven⟩ := Bool.and_eq_true_iff.mp h
    exact decode_encodeJ hfit heven rd
  | halt => rfl

/-- The bytes of a word that decodes, with any bytes behind them (R33, R50). -/
theorem decodeBytes_wordBytes_append {w : Word} {i : Instr} (h : decode w = .ok i) (rest : List Byte) :
    decodeBytes (wordBytes w ++ rest) = .ok (i, rest) := by
  simp only [wordBytes, List.cons_append, List.nil_append, decodeBytes, Machine.wordOfBytes_byteOfWord, h]

/-- Settles O1: the word by `decode_encode`, its bytes by `decodeBytes_wordBytes_append`. -/
theorem decodeInvertsEncode : Obligations.DecodeInvertsEncode := by
  intro i rest h
  exact ⟨decode_encode h, decodeBytes_wordBytes_append (decode_encode h) rest⟩

end Sys2Proof
end

section
/-! PROOF. The control table (R73), and what a step makes of the ID slot (R72, R117): the ID stage of each kind of slot,
and the cycle around it. -/

namespace Sys2Proof.Machine

/-! ### The control table (R73) -/

/-- Settles O11, by reading the table's row of each class. -/
theorem controlTableOfEachClass : Obligations.ControlTableOfEachClass := by
  refine ⟨?_, ?_, ?_, ?_, ?_, ?_, ?_, ?_⟩
  all_goals
    intro c
    cases c <;> decide

/-! ### The ID stage of each kind of slot (R117) -/

section
variable {s : State}

theorem idStage_of_bubble (h : s.idSlot = .bubble) : idStage s = fun x => .ok (idIdle .bubble x) := by
  funext x
  simp only [idStage, h]

theorem idStage_of_halted (h : s.idSlot = .halted) : idStage s = fun x => .ok (idIdle .halted x) := by
  funext x
  simp only [idStage, h]

theorem idStage_of_decode {f : FetchLatch} {i : Instr} (h : s.idSlot = .occupied f) (hd : decode f.word = .ok i) :
    idStage s = fun x => .ok (idOut i s x) := by
  funext x
  simp only [idStage, h, hd]

theorem idStage_of_decode_error {f : FetchLatch} {e : DecodeError} (h : s.idSlot = .occupied f)
    (hd : decode f.word = .error e) : idStage s = fun _ => .error (faultOfDecode e) := by
  funext x
  simp only [idStage, h, hd]

/-! ### MEM without a fault (R32, R34, R115) -/

theorem accessible_iff {size : Nat} {a : Word} : accessible size a = true ↔ a.toNat % 4 = 0 ∧ a.toNat + 3 < size := by
  simp only [accessible, Bool.and_eq_true, decide_eq_true_eq]

/-- What the statements call accessible is what the access lets through. -/
theorem memAccess_of_accessOk {size : Nat} {l : MemLatch} (h : l.accessOk size = true) (d : Memory) :
    ∃ q, memAccess size d l = .ok q := by
  cases l with
  | loadI ins pc ea =>
    obtain ⟨ha, hb⟩ := accessible_iff.mp h
    simp [memAccess, memRead_ok_iff.mpr ⟨ha, hb, rfl⟩]
  | s ins pc ea v =>
    obtain ⟨ha, hb⟩ := accessible_iff.mp h
    simp [memAccess, memWrite_ok_iff.mpr ⟨ha, hb, rfl⟩]
  | r | i | b | j => exact ⟨_, rfl⟩

theorem memStage_of_dataOk (h : s.dataOk = true) : ∃ q, memStage s = .ok q := by
  unfold memStage
  cases hm : s.memSlot with
  | bubble | halted => exact ⟨_, rfl⟩
  | occupied l =>
    have hl : l.accessOk s.params.dmemSize = true := by simpa [State.dataOk, hm, Slot.all] using h
    obtain ⟨q, hq⟩ := memAccess_of_accessOk hl s.dmem
    simp [hq]

/-! ### The step (R72, R122) -/

/-- A step runs the instruction that the word in ID decodes to. -/
theorem step_eq_exec (hf : s.fault = none) {f : FetchLatch} {i : Instr} (h : s.idSlot = .occupied f)
    (hd : decode f.word = .ok i) : step s = exec i s := by
  rw [step_eq_cycle hf, idStage_of_decode h hd, exec_eq]

/-- A word that does not decode faults in ID, behind MEM (R161, R162, R165, R168). -/
theorem step_eq_fault_of_decode_error (hf : s.fault = none) {f : FetchLatch} {e : DecodeError}
    (h : s.idSlot = .occupied f) (hd : decode f.word = .error e) (hok : s.dataOk = true) :
    step s = .fault (faultOfDecode e) := by
  obtain ⟨q, hq⟩ := memStage_of_dataOk hok
  rw [step_eq_cycle hf, idStage_of_decode_error h hd]
  exact cycle_fault_iff.mpr (.inr (.inl ⟨q, hq, rfl⟩))

/-- A cycle without an instruction passes its empty slot to EX and writes no register but WB's (R117, cases E and H). -/
theorem step_of_idIdle (hf : s.fault = none) {ex : Slot ExLatch} (hid : idStage s = fun x => .ok (idIdle ex x)) :
    step s = cycleIdle s ex ∧ ∀ t, step s = .next t → t.exSlot = ex ∧ ∀ r, t.regs.read r = afterWb s r := by
  have hs : step s = cycleIdle s ex := by rw [step_eq_cycle hf, hid, cycleIdle]
  refine ⟨hs, fun t ht => ?_⟩
  rw [hs] at ht
  obtain ⟨wb, m, d, f, -, hd, -, rfl⟩ := cycle_next_iff.mp ht
  cases hd
  exact ⟨rfl, wbStage_read s⟩

end

/-- Settles O17, one clause for each answer of the ID stage. -/
theorem stepRunsTheDecodedInstruction : Obligations.StepRunsTheDecodedInstruction := by
  intro s hf
  exact ⟨fun f i => step_eq_exec hf, fun f e => step_eq_fault_of_decode_error hf,
    fun h => step_of_idIdle hf (idStage_of_bubble h), fun h => step_of_idIdle hf (idStage_of_halted h)⟩

end Sys2Proof.Machine
end

section
/-! PROOF. One instruction on its way from ID to WB (R113, R118, R123): the cycle in which it enters EX while fetch goes
on, and the three cycles in which it moves behind ID. Stated for every class that does so, not for R and I alone. -/

namespace Sys2Proof.Machine

section
variable {s t : State}

/-! ### The ID cycle -/

/-- What the statements call a good fetch is one that answers the big-endian word at `pc` (R33, R35). -/
theorem imemRead_of_fetchOk (h : s.fetchOk = true) :
    s.ifHalted = false ∧ imemRead s.params s.pc = .ok (s.params.imem.readWord s.pc.toNat) := by
  simp only [State.fetchOk, Bool.and_eq_true, Bool.not_eq_true'] at h
  obtain ⟨hrun, hacc⟩ := h
  obtain ⟨ha, hb⟩ := accessible_iff.mp hacc
  exact ⟨hrun, imemRead_ok_iff.mpr ⟨ha, hb, rfl⟩⟩

/-- A JAL always transfers control, and no other instruction writes a register in ID (R144). -/
theorem idRegs_of_not_transfersControl {i : Instr} {x : RegFile} (h : transfersControl i x = false) (pc : Word) :
    idRegs i pc x = x := by
  cases i with
  | jal rd imm => cases h
  | _ => rfl

/-- An instruction that neither stalls nor transfers control passes its record to EX (R118, R148). -/
theorem idOut_of_pass {i : Instr} {x : RegFile} {l : ExLatch} (hl : exLatchOf i s.idPc x = some l)
    (hs : s.stalls i = false) (ht : transfersControl i x = false) : idOut i s x = idPass l x := by
  simp [idOut, hl, hs, ht, idRegs_of_not_transfersControl ht]

/-- The cycle of an instruction that leaves ID without redirecting fetch (R117, R118, R121). -/
theorem exec_of_ready {i : Instr} {f : FetchLatch} {l : ExLatch} (h : Ready s i f)
    (hl : exLatchOf i f.pc (wbStage s) = some l) (ht : transfersControl i (wbStage s) = false) :
    ∃ t, exec i s = .next t ∧ FetchedOn s t ∧ t.exSlot = .occupied l := by
  obtain ⟨⟨wb, m⟩, hm⟩ := memStage_of_dataOk h.dataOk
  obtain ⟨hrun, hw⟩ := imemRead_of_fetchOk h.fetchOk
  have hout : idOut i s (wbStage s) = idPass l (wbStage s) :=
    idOut_of_pass (State.idPc_occupied h.inId ▸ hl) h.noStall ht
  refine ⟨_, exec_next_iff.mpr ⟨wb, m, _, hm, ifStage_ok_iff.mpr (.inr ⟨hrun, _, hw, rfl⟩), rfl⟩, ?_⟩
  rw [hout]
  exact ⟨⟨rfl, rfl, rfl, wbStage_read s, rfl, h.running⟩, rfl⟩

/-! ### The cycles behind ID -/

theorem step_fault (hf : s.fault = none) (h : step s = .next t) : t.fault = none := by
  obtain ⟨wb, m, d, f, -, -, -, rfl⟩ := (step_next_iff hf).mp h
  exact hf

/-- The occupant of EX is the next occupant of MEM (R116, R123). -/
theorem step_memSlot {l : ExLatch} (hf : s.fault = none) (hs : s.exSlot = .occupied l) (h : step s = .next t) :
    t.memSlot = .occupied (exAction s l) := by
  obtain ⟨wb, m, d, f, -, -, -, rfl⟩ := (step_next_iff hf).mp h
  rw [commit_memSlot, exStage, hs]

/-- The occupant of MEM, after its data access, is the next occupant of WB (R115, R123). -/
theorem step_wbSlot {l : MemLatch} {l' : WbLatch} {d' : Memory} (hf : s.fault = none) (hs : s.memSlot = .occupied l)
    (hacc : memAccess s.params.dmemSize s.dmem l = .ok (l', d')) (h : step s = .next t) :
    t.wbSlot = .occupied l' ∧ t.dmem = d' := by
  obtain ⟨wb, m, d, f, hm, -, -, rfl⟩ := (step_next_iff hf).mp h
  simp only [memStage, hs, hacc] at hm
  cases hm
  exact ⟨rfl, rfl⟩

/-- The registers after a step: WB's write, and the link of a JAL in ID on top (R12, R13, R114, R144). -/
theorem step_regs_read (hf : s.fault = none) (h : step s = .next t) (r : Reg) :
    t.regs.read r = afterLink s r (afterWb s r) := by
  obtain ⟨wb, m, d, f, -, hd, -, rfl⟩ := (step_next_iff hf).mp h
  rw [commit_regs, idStage_regs_read hd, wbStage_read]

/-- The way from EX through MEM and WB of an occupant that makes no data access (R123). -/
theorem steps_of_noAccess {t2 t3 t4 : State} {l : ExLatch} {w : WbLatch} (hf : t.fault = none)
    (hex : t.exSlot = .occupied l) (hacc : ∀ size d, memAccess size d (exAction t l) = .ok (w, d))
    (h2 : step t = .next t2) (h3 : step t2 = .next t3) (h4 : step t3 = .next t4) :
    t2.memSlot = .occupied (exAction t l) ∧ (t3.wbSlot = .occupied w ∧ t3.dmem = t2.dmem) ∧
      ∀ r, t4.regs.read r = afterLink t3 r (afterWb t3 r) := by
  have hf2 := step_fault hf h2
  have hmem := step_memSlot hf hex h2
  exact ⟨hmem, step_wbSlot hf2 hmem (hacc _ _) h3, step_regs_read (step_fault hf2 h3) h4⟩

end

/-! ### WB's write, class by class (R114) -/

section
variable {s : State} {pc v : Word}

theorem afterWb_r {ins : RIns} (h : s.wbSlot = .occupied (.r ins pc v)) (r : Reg) :
    afterWb s r = if r = ins.rd ∧ r ≠ 0#5 then v else s.regs.read r := by
  simp only [afterWb, h, eq_comm (a := r) (b := ins.rd)]

theorem afterWb_i {ins : IIns} (h : s.wbSlot = .occupied (.i ins pc v)) (r : Reg) :
    afterWb s r = if r = ins.rd ∧ r ≠ 0#5 then v else s.regs.read r := by
  simp only [afterWb, h, eq_comm (a := r) (b := ins.rd)]

end

end Sys2Proof.Machine
end

section
/-! PROOF. Classes R and I (`41_alu_arith.md`): what the ALU computes (R85), and that every instruction of the two classes
brings the ALU's result of its forwarded operands from ID to `x[rd]` (R86 to R95). -/

namespace Sys2Proof.Machine

/-! ### The ALU (R85) -/

section
variable (a b : Word)

@[simp] theorem alu_add : alu .add a b = a + b := rfl
@[simp] theorem alu_subtract : alu .subtract a b = a - b := rfl
@[simp] theorem alu_and : alu .and a b = a &&& b := rfl
@[simp] theorem alu_or : alu .or a b = a ||| b := rfl
@[simp] theorem alu_xor : alu .xor a b = a ^^^ b := rfl

/-- The unsigned difference, taken modulo 2^32 among the integers. -/
theorem toNat_alu_subtract : ((alu .subtract a b).toNat : Int) = ((a.toNat : Int) - b.toNat) % 2 ^ 32 := by
  have ha := a.isLt
  have hb := b.isLt
  rw [alu_subtract, BitVec.toNat_sub]
  omega

theorem alu_add_eq_ofInt : alu .add a b = BitVec.ofInt 32 (a.toInt + b.toInt) :=
  BitVec.eq_of_toInt_eq (by rw [alu_add, BitVec.toInt_add, BitVec.toInt_ofInt])

theorem alu_subtract_eq_ofInt : alu .subtract a b = BitVec.ofInt 32 (a.toInt - b.toInt) :=
  BitVec.eq_of_toInt_eq (by rw [alu_subtract, BitVec.toInt_sub, BitVec.toInt_ofInt])

end

/-- Settles O7: the unsigned reading, the signed one, and the bits. -/
theorem aluWrapsModuloTwoToThe32 : Obligations.AluWrapsModuloTwoToThe32 := by
  intro a b
  exact ⟨BitVec.toNat_add a b, toNat_alu_subtract a b, alu_add_eq_ofInt a b, alu_subtract_eq_ofInt a b,
    fun _ _ => ⟨BitVec.getLsbD_and, BitVec.getLsbD_or, BitVec.getLsbD_xor⟩⟩

/-! ### From ID to WB (R86) -/

section
variable {i : Instr}

/-- An instruction that becomes a class R occupant of EX and never transfers control completes with the operation of its
record. -/
theorem completesR_alu {ins : RIns}
    (hl : ∀ pc x, exLatchOf i pc x = some (.r ins pc (x.read ins.rs1) (x.read ins.rs2)))
    (ht : ∀ x, transfersControl i x = false) (s : State) (f : FetchLatch) :
    CompletesR s f i ins (alu ins.aluOp) := by
  intro h
  obtain ⟨t, hexec, hon, hex⟩ := exec_of_ready h (hl f.pc _) (ht _)
  rw [wbStage_read, wbStage_read] at hex
  refine ⟨t, hexec, hon, hex, fun t2 t3 t4 h2 h3 h4 => ?_⟩
  obtain ⟨hmem, ⟨hwb, -⟩, hregs⟩ := steps_of_noAccess hon.fault hex (fun _ _ => rfl) h2 h3 h4
  exact ⟨hmem, hwb, fun r => afterWb_r hwb r ▸ hregs r⟩

/-- The same for an instruction that becomes a class I occupant of EX. -/
theorem completesI_alu {ins : IIns} (hl : ∀ pc x, exLatchOf i pc x = some (.i ins pc (x.read ins.rs1)))
    (ht : ∀ x, transfersControl i x = false) (s : State) (f : FetchLatch) :
    CompletesI s f i ins (alu ins.aluOp) := by
  intro h
  obtain ⟨t, hexec, hon, hex⟩ := exec_of_ready h (hl f.pc _) (ht _)
  rw [wbStage_read] at hex
  refine ⟨t, hexec, hon, hex, fun t2 t3 t4 h2 h3 h4 => ?_⟩
  obtain ⟨hmem, ⟨hwb, -⟩, hregs⟩ := steps_of_noAccess hon.fault hex (fun _ _ => rfl) h2 h3 h4
  exact ⟨hmem, hwb, fun r => afterWb_i hwb r ▸ hregs r⟩

end

/-- Settles O27, by `completesR_alu` at the operation of each record. -/
theorem registerRegisterInstructionsComplete : Obligations.RegisterRegisterInstructionsComplete := by
  intro s f f7 rd rs1 rs2
  refine ⟨?_, ?_, ?_, ?_, ?_⟩
  all_goals exact completesR_alu (fun _ _ => rfl) (fun _ => rfl) s f

/-- Settles O28, by `completesI_alu` at the operation of each record. -/
theorem registerImmediateInstructionsComplete : Obligations.RegisterImmediateInstructionsComplete := by
  intro s f rd rs1 imm
  refine ⟨?_, ?_, ?_, ?_⟩
  all_goals exact completesI_alu (fun _ _ => rfl) (fun _ => rfl) s f

end Sys2Proof.Machine
end

section
/-! PROOF. Loads and stores (`42_load_store.md`): the MEM stage as the statements speak of it (its error `memFault`, its
effect when the access succeeds: R34, R36, R37, R115), and how a load or a store goes from ID to WB (R100 to R106). -/

namespace Sys2Proof.Machine

section
variable {s t : State}

/-! ### A MEM stage that fails (R34, R163(b), R167) -/

/-- The error the statements name is the one the check raises. -/
theorem accessFault_eq_some_iff {size : Nat} {a : Word} {e : Fault} :
    accessFault size a = some e ↔ checkAccess size a = .error e := by
  rw [accessFault, checkAccess_eq]
  split
  · simp
  · split <;> simp

/-- A load in MEM fails with the error of its address (R36). -/
theorem memAccess_load_error_iff {size : Nat} {d : Memory} {ins : IIns} {pc ea : Word} {e : Fault} :
    memAccess size d (.loadI ins pc ea) = .error e ↔ accessFault size ea = some e := by
  rw [accessFault_eq_some_iff, ← memRead_error_iff (d := d)]
  simp only [memAccess]
  cases memRead size d ea <;> simp

/-- A store in MEM fails with the error of its address (R37). -/
theorem memAccess_store_error_iff {size : Nat} {d : Memory} {ins : SIns} {pc ea v : Word} {e : Fault} :
    memAccess size d (.s ins pc ea v) = .error e ↔ accessFault size ea = some e := by
  rw [accessFault_eq_some_iff, ← memWrite_error_iff (d := d) (v := v)]
  simp only [memAccess]
  cases memWrite size d ea v <;> simp

theorem memStage_error_iff_of_occupied {l : MemLatch} {e : Fault} (hs : s.memSlot = .occupied l) :
    memStage s = .error e ↔ memAccess s.params.dmemSize s.dmem l = .error e := by
  simp only [memStage, hs]
  cases memAccess s.params.dmemSize s.dmem l <;> simp

/-- The MEM stage fails exactly with `memFault`, which only a load or a store can raise. -/
theorem memStage_error_iff {e : Fault} : memStage s = .error e ↔ memFault s = some e := by
  cases hs : s.memSlot with
  | bubble | halted => simp [memStage, memFault, hs]
  | occupied l =>
    rw [memStage_error_iff_of_occupied hs, memFault, hs]
    cases l with
    | loadI ins pc ea => exact memAccess_load_error_iff
    | s ins pc ea v => exact memAccess_store_error_iff
    | r | i | b | j => simp [memAccess]

/-- MEM comes first in the order of the errors: a step from a state whose access fails answers its error (R165). -/
theorem step_eq_fault_of_memFault {e : Fault} (hf : s.fault = none) (h : memFault s = some e) : step s = .fault e := by
  rw [step_eq_cycle hf]
  exact cycle_fault_iff.mpr (.inl (memStage_error_iff.mpr h))

/-! ### A MEM stage that succeeds (R36, R37, R115) -/

/-- Where a step answers a next state, the occupant of MEM has made its access, and WB and DMEM hold what came of it. -/
theorem memAccess_of_step {l : MemLatch} (hf : s.fault = none) (hs : s.memSlot = .occupied l) (h : step s = .next t) :
    ∃ w, memAccess s.params.dmemSize s.dmem l = .ok (w, t.dmem) ∧ t.wbSlot = .occupied w := by
  cases ha : memAccess s.params.dmemSize s.dmem l with
  | error e =>
    have hfault := step_eq_fault_of_memFault hf
      (memStage_error_iff.mp ((memStage_error_iff_of_occupied hs).mpr ha))
    rw [hfault] at h
    cases h
  | ok q =>
    obtain ⟨hwb, hdmem⟩ := step_wbSlot hf hs ha h
    exact ⟨q.1, by rw [hdmem], hwb⟩

/-- A load brings the big-endian word at its address to WB (R36). -/
theorem step_wbSlot_load {ins : IIns} {pc ea : Word} (hf : s.fault = none)
    (hs : s.memSlot = .occupied (.loadI ins pc ea)) (h : step s = .next t) :
    t.wbSlot = .occupied (.loadI ins pc (s.dmem.readWord ea.toNat)) := by
  obtain ⟨wb, m, d, f, hm, -, -, rfl⟩ := (step_next_iff hf).mp h
  exact memStage_load hm hs

/-- A store writes its word to DMEM and goes on to WB (R37). -/
theorem step_store {ins : SIns} {pc ea v : Word} (hf : s.fault = none)
    (hs : s.memSlot = .occupied (.s ins pc ea v)) (h : step s = .next t) :
    t.dmem = s.dmem.writeWord ea.toNat v ∧ t.wbSlot = .occupied (.s ins pc) := by
  obtain ⟨w, ha, hwb⟩ := memAccess_of_step hf hs h
  cases hw : memWrite s.params.dmemSize s.dmem ea v with
  | error e => simp [memAccess, hw] at ha
  | ok d =>
    obtain ⟨-, -, rfl⟩ := memWrite_ok_iff.mp hw
    simp only [memAccess, hw, Except.ok.injEq, Prod.mk.injEq] at ha
    obtain ⟨rfl, hd⟩ := ha
    exact ⟨hd.symm, hwb⟩

/-! ### WB's write (R114) -/

theorem afterWb_loadI {ins : IIns} {pc v : Word} (h : s.wbSlot = .occupied (.loadI ins pc v)) (r : Reg) :
    afterWb s r = if r = ins.rd ∧ r ≠ 0#5 then v else s.regs.read r := by
  simp only [afterWb, h, eq_comm (a := r) (b := ins.rd)]

/-- A store writes no register in WB. -/
theorem afterWb_s {ins : SIns} {pc : Word} (h : s.wbSlot = .occupied (.s ins pc)) (r : Reg) :
    afterWb s r = s.regs.read r := by
  simp only [afterWb, h]

/-! ### From ID to WB (R100, R106) -/

/-- The step after an instruction's ID cycle, which brings it to MEM with the parameters its ID cycle had. -/
theorem FetchedOn.step_to_mem {l : ExLatch} {t2 : State} (hon : FetchedOn s t) (hex : t.exSlot = .occupied l)
    (h : step t = .next t2) :
    t2.memSlot = .occupied (exAction t l) ∧ t2.fault = none ∧ t2.params = s.params :=
  ⟨step_memSlot hon.fault hex h, step_fault hon.fault h, (step_params h).trans hon.params⟩

end

/-- An instruction that becomes a class LoadI occupant of EX and never transfers control completes with the address
operation of its record. -/
theorem completesLoad_alu {i : Instr} {ins : IIns}
    (hl : ∀ pc x, exLatchOf i pc x = some (.loadI ins pc (x.read ins.rs1)))
    (ht : ∀ x, transfersControl i x = false) (s : State) (f : FetchLatch) :
    CompletesLoad s f i ins (alu ins.aluOp) := by
  intro h
  obtain ⟨t, hexec, hon, hex⟩ := exec_of_ready h (hl f.pc _) (ht _)
  rw [wbStage_read] at hex
  refine ⟨t, hexec, hon, hex, fun t2 h2 => ?_⟩
  obtain ⟨hmem, hf2, hparams⟩ := hon.step_to_mem hex h2
  refine ⟨hmem, fun e he => step_eq_fault_of_memFault hf2 ?_, fun t3 t4 h3 h4 => ?_⟩
  · rw [memFault, hmem, hparams]
    exact he
  · have hwb := step_wbSlot_load hf2 hmem h3
    exact ⟨hwb, fun r => afterWb_loadI hwb r ▸ step_regs_read (step_fault hf2 h3) h4 r⟩

/-- Settles O29, by `completesLoad_alu` at the address operation of each record. -/
theorem loadsComplete : Obligations.LoadsComplete := by
  intro s f rd rs1 imm
  refine ⟨?_, ?_, ?_, ?_⟩
  all_goals exact completesLoad_alu (fun _ _ => rfl) (fun _ => rfl) s f

/-- Settles O30: the address error stands in MEM, or the word is written there; WB has nothing left to write. -/
theorem storesComplete : Obligations.StoresComplete := by
  intro s f f3 rs1 rs2 imm h ins
  obtain ⟨t, hexec, hon, hex⟩ := exec_of_ready (i := .sw f3 rs1 rs2 imm) h rfl rfl
  rw [wbStage_read, wbStage_read] at hex
  refine ⟨t, hexec, hon, hex, fun t2 h2 => ?_⟩
  obtain ⟨hmem, hf2, hparams⟩ := hon.step_to_mem hex h2
  refine ⟨hmem, fun e he => step_eq_fault_of_memFault hf2 ?_, fun t3 t4 h3 h4 => ?_⟩
  · rw [memFault, hmem, hparams]
    exact he
  · obtain ⟨hdmem, hwb⟩ := step_store hf2 hmem h3
    refine ⟨hdmem, hwb, fun hw a => ?_, fun r => ?_⟩
    · rw [hdmem]
      exact Memory.read_writeWord hw _ _ a
    · exact afterWb_s hwb r ▸ step_regs_read (step_fault hf2 h3) h4 r

end Sys2Proof.Machine
end

section
/-! PROOF. The pipeline's stages in one cycle (R113, R115, R116, R120 to R123): which errors a cycle raises and in what
order, how the fetch side is arbitrated and which fetched words it drops, and how the slots behind ID advance. -/

namespace Sys2Proof.Machine

/-! ### Answers (R113, R122) -/

theorem exec_not_refused (i : Instr) (s : State) (r : Refusal) : exec i s ≠ .refused r := by
  rw [exec_eq]
  exact cycle_not_refused s _ r

/-- A faulted machine answers itself, and any other runs a cycle (R122, R160). -/
theorem step_not_refused (s : State) (r : Refusal) : step s ≠ .refused r := by
  cases hf : s.fault with
  | some e => simp [step, hf]
  | none =>
    rw [step_eq_cycle hf]
    exact cycle_not_refused s _ r

/-- Settles O43: every meaning, and every step of a running machine, is a cycle, and a cycle refuses nothing. -/
theorem nothingIsRefused : Obligations.NothingIsRefused := ⟨exec_not_refused, step_not_refused⟩

/-- Without refusals, a step that does not fault answers a next state. -/
theorem exists_step_next_iff {s : State} : (∃ t, step s = .next t) ↔ ∀ e, step s ≠ .fault e := by
  cases h : step s with
  | next t => simp
  | fault e => simp
  | refused r => exact absurd h (step_not_refused s r)

section
variable {s : State}

/-! ### The errors of a cycle (R161 to R168) -/

/-- Where the errors of an action are known, so is when it succeeds. -/
theorem exists_eq_ok_iff_eq_none {ε α : Type} {x : Except ε α} {o : Option ε}
    (h : ∀ e, x = .error e ↔ o = some e) : (∃ a, x = .ok a) ↔ o = none := by
  rw [Option.eq_none_iff_forall_ne_some]
  simp only [ne_eq, ← h]
  cases x <;> simp

/-- The ID stage fails exactly with `idFault`, the error of a word that does not decode. -/
theorem idStage_error_iff {x : RegFile} {e : Fault} : idStage s x = .error e ↔ idFault s = some e := by
  unfold idFault
  cases hs : s.idSlot with
  | bubble => simp [idStage_of_bubble hs]
  | halted => simp [idStage_of_halted hs]
  | occupied f =>
    cases hd : decode f.word with
    | ok i => simp [idStage_of_decode hs hd, hd]
    | error e' => cases e' <;> simp [idStage_of_decode_error hs hd, hd, faultOfDecode]

/-- The IF stage fails exactly with `ifFault`, whatever the ID stage signals (R35, R120). -/
theorem ifStage_error_iff {ctl : FetchCtl} {e : Fault} : ifStage s ctl = .error e ↔ ifFault s = some e := by
  unfold ifStage ifFault
  cases s.ifHalted with
  | true => simp
  | false =>
    rw [if_neg Bool.false_ne_true, if_neg Bool.false_ne_true, accessFault_eq_some_iff, ← imemRead_error_iff]
    cases imemRead s.params s.pc <;> simp

/-- A step faults with the first error in the order MEM, ID, IF (R113(b), R165). -/
theorem step_fault_iff (hf : s.fault = none) {e : Fault} :
    step s = .fault e ↔ (memFault s).or ((idFault s).or (ifFault s)) = some e := by
  have hmem : (∃ q, memStage s = .ok q) ↔ memFault s = none := exists_eq_ok_iff_eq_none fun _ => memStage_error_iff
  have hid : (∃ d, idStage s (wbStage s) = .ok d) ↔ idFault s = none :=
    exists_eq_ok_iff_eq_none fun _ => idStage_error_iff
  rw [step_eq_cycle hf, cycle_fault_iff, Option.or_eq_some_iff, Option.or_eq_some_iff]
  simp only [memStage_error_iff, idStage_error_iff, ifStage_error_iff, exists_and_left, exists_and_right, hmem, hid,
    and_or_left]

end

/-- Settles O42: the first clause is `step_fault_iff`, and the second is that none of the three errors is there. -/
theorem stepFaultsWithTheFirstErrorInStageOrder : Obligations.StepFaultsWithTheFirstErrorInStageOrder := by
  intro s hf
  refine ⟨fun e => step_fault_iff hf, ?_⟩
  calc (∃ t, step s = .next t)
    _ ↔ ∀ e, (memFault s).or ((idFault s).or (ifFault s)) ≠ some e := by
      simp only [exists_step_next_iff, ne_eq, step_fault_iff hf]
    _ ↔ memFault s = none ∧ idFault s = none ∧ ifFault s = none := by
      rw [← Option.eq_none_iff_forall_ne_some, Option.or_eq_none_iff, Option.or_eq_none_iff]

section
variable {s : State}

/-! ### The arbitration (R121) -/

/-- A cycle whose ID stage succeeds has a word in ID that decodes, or none. -/
theorem idEvent_ne_illegal {x : RegFile} {d : IdOut} (h : idStage s x = .ok d) : s.idEvent ≠ .illegal := by
  rcases idStage_ok_cases h with ⟨hs, -⟩ | ⟨hs, -⟩ | ⟨f, i, hs, hi, -⟩
  · simp [State.idEvent, hs]
  · simp [State.idEvent, hs]
  · simp only [State.idEvent, hs, hi, State.eventOf]
    split_ifs <;> simp

/-- With IF halted, R25(d) has ID halted too. -/
theorem State.idSlot_eq_halted (hc : s.haltChain = true) (hh : s.ifHalted = true) : s.idSlot = .halted := by
  obtain ⟨hid, -⟩ := State.haltChain_iff.mp hc
  exact Slot.isHalted_iff.mp (hid.trans hh)

end

/-- Settles O19: a halted fetch side keeps what it holds; otherwise the event of the cycle picks the row of R121. -/
theorem arbitrationOfTheFetchSide : Obligations.ArbitrationOfTheFetchSide := by
  intro s t hf h
  obtain ⟨wb, m, d, f, -, hd, hfetch, rfl⟩ := (step_next_iff hf).mp h
  have hlegal := idEvent_ne_illegal hd
  rw [idStage_ctl hd] at hfetch
  rcases ifStage_ok_iff.mp hfetch with ⟨hh, rfl⟩ | ⟨hh, w, hw, rfl⟩
  · rw [if_pos hh]
    have hid : s.haltChain = true → s.idSlot = .halted := fun hc => State.idSlot_eq_halted hc hh
    exact ⟨rfl, rfl, rfl, hid⟩
  · rw [if_neg (ne_true_of_eq_false hh)]
    refine ⟨w, hw, ?_⟩
    cases hev : s.idEvent with
    | illegal => exact hlegal hev
    | haltSeen | stalled | redirected | passed | idle => exact ⟨rfl, rfl, rfl⟩

/-! ### Dropped words (R121, R146, R150) -/

section
variable {s : State}

@[simp] theorem memStage_withImem (s : State) (m : Memory) : memStage (s.withImem m) = memStage s := rfl
@[simp] theorem wbStage_withImem (s : State) (m : Memory) : wbStage (s.withImem m) = wbStage s := rfl
@[simp] theorem idOut_withImem (i : Instr) (s : State) (m : Memory) : idOut i (s.withImem m) = idOut i s := rfl

/-- The commit, and the EX stage in it, do not see IMEM (R44, R112). -/
theorem commit_withImem (s : State) (m : Memory) (d : IdOut) (wb : Slot WbLatch) (dmem : Memory) (f : FetchOut) :
    commit (s.withImem m) d wb dmem f = (commit s d wb dmem f).withImem m := rfl

/-- Only `advance` uses the fetched word (R121). -/
theorem arbitrate_withImem {ctl : FetchCtl} (h : ctl ≠ .advance) (s : State) (m : Memory) (w w' : Word) :
    arbitrate (s.withImem m) ctl w' = arbitrate s ctl w := by
  cases ctl with
  | advance => exact absurd rfl h
  | stall | redirect | haltSeen => rfl

/-- Whether a fetch succeeds does not depend on what IMEM holds (R35). -/
theorem exists_imemRead_withImem {w : Word} (h : imemRead s.params s.pc = .ok w) (m : Memory) :
    ∃ w', imemRead (s.withImem m).params s.pc = .ok w' := by
  obtain ⟨ha, hb, -⟩ := imemRead_ok_iff.mp h
  exact ⟨_, imemRead_ok_iff.mpr ⟨ha, hb, rfl⟩⟩

/-- The next fetch side is the same with any IMEM, unless ID lets fetch advance. -/
theorem ifStage_withImem {ctl : FetchCtl} {f : FetchOut} (hc : ctl ≠ .advance) (h : ifStage s ctl = .ok f)
    (m : Memory) : ifStage (s.withImem m) ctl = .ok f := by
  rcases ifStage_ok_iff.mp h with ⟨hh, rfl⟩ | ⟨hh, w, hw, rfl⟩
  · exact ifStage_ok_iff.mpr (.inl ⟨hh, rfl⟩)
  · obtain ⟨w', hw'⟩ := exists_imemRead_withImem hw m
    exact ifStage_ok_iff.mpr (.inr ⟨hh, w', hw', (arbitrate_withImem hc s m w w').symm⟩)

/-- A HALT, a stall and a transfer of control all keep fetch from advancing (R121). -/
theorem idOut_ctl_ne_advance {i : Instr} {x : RegFile}
    (h : i = .halt ∨ s.stalls i = true ∨ transfersControl i x = true) : (idOut i s x).ctl ≠ .advance := by
  rcases idOut_cases i s x with ⟨-, ho⟩ | ⟨-, ho⟩ | ⟨l, hl, hs, ⟨-, ho⟩ | ⟨ht, -⟩⟩
  · simp [ho]
  · simp [ho, idStall]
  · simp [ho, idRedirect]
  · rcases h with rfl | hs' | ht'
    · cases hl
    · rw [hs] at hs'; cases hs'
    · rw [ht] at ht'; cases ht'

end

/-- Settles O38: WB, MEM, EX and ID do not see IMEM, and IF drops the word it read. -/
theorem droppedFetchWordsHaveNoEffect : Obligations.DroppedFetchWordsHaveNoEffect := by
  intro i s t m hdrop h
  obtain ⟨wb, dmem, f, hm, hfetch, rfl⟩ := exec_next_iff.mp h
  rw [exec_next_iff, memStage_withImem, wbStage_withImem, idOut_withImem]
  exact ⟨wb, dmem, f, hm, ifStage_withImem (idOut_ctl_ne_advance hdrop) hfetch m,
    (commit_withImem s m _ wb dmem f).symm⟩

/-! ### The slots behind ID (R115, R116, R123) -/

section
variable {s t : State}

/-- An empty EX slot moves on as it is (R116). -/
theorem step_memSlot_of_empty (hf : s.fault = none) (h : step s = .next t) :
    (s.exSlot = .bubble → t.memSlot = .bubble) ∧ (s.exSlot = .halted → t.memSlot = .halted) := by
  obtain ⟨wb, m, d, f, -, -, -, rfl⟩ := (step_next_iff hf).mp h
  refine ⟨fun hs => ?_, fun hs => ?_⟩ <;> rw [commit_memSlot, exStage, hs]

/-- An empty MEM slot moves on as it is (R115). -/
theorem step_wbSlot_of_empty (hf : s.fault = none) (h : step s = .next t) :
    (s.memSlot = .bubble → t.wbSlot = .bubble) ∧ (s.memSlot = .halted → t.wbSlot = .halted) := by
  obtain ⟨wb, m, d, f, hm, -, -, rfl⟩ := (step_next_iff hf).mp h
  refine ⟨fun hs => ?_, fun hs => ?_⟩
  all_goals
    simp only [memStage, hs] at hm
    cases hm
    rfl

end

/-- Settles O24: an occupant of EX becomes its `exAction`, one of MEM what its data access makes of it. -/
theorem laterStagesAdvanceEveryCycle : Obligations.LaterStagesAdvanceEveryCycle := by
  intro s t hf h
  obtain ⟨exBubble, exHalted⟩ := step_memSlot_of_empty hf h
  obtain ⟨memBubble, memHalted⟩ := step_wbSlot_of_empty hf h
  have ex : ∀ l, s.exSlot = .occupied l → t.memSlot = .occupied (exAction s l) := fun _ hs => step_memSlot hf hs h
  have mem : ∀ l l', s.memSlot = .occupied l → memAccess s.params.dmemSize s.dmem l = .ok (l', s.dmem) →
      t.wbSlot = .occupied l' := fun _ _ hs ha => (step_wbSlot hf hs ha h).1
  exact ⟨exBubble, exHalted, fun _ _ _ _ => ex _, fun _ _ _ => ex _, fun _ _ _ => ex _, fun _ _ _ _ => ex _,
    fun _ _ => ex _, fun _ _ => ex _, memBubble, memHalted, fun _ _ _ _ hs => mem _ _ hs rfl,
    fun _ _ _ hs => mem _ _ hs rfl, fun _ _ _ hs => step_wbSlot_load hf hs h,
    fun _ _ _ _ hs => (step_store hf hs h).2, fun _ _ hs => mem _ _ hs rfl, fun _ _ hs => mem _ _ hs rfl⟩

/-- Settles O25: neither EX nor a data access changes the record or the address. -/
theorem instructionsAdvanceOneStageACycle : Obligations.InstructionsAdvanceOneStageACycle := by
  intro s t u l hf hs hst htu
  have hmem := step_memSlot hf hs hst
  obtain ⟨w, hacc, hwb⟩ := memAccess_of_step (step_fault hf hst) hmem htu
  obtain ⟨hins, hpc⟩ := memAccess_keeps hacc
  exact ⟨exAction s l, w, hmem, exAction_ins s l, exAction_pc s l, hwb, hins.trans (exAction_ins s l),
    hpc.trans (exAction_pc s l)⟩

end Sys2Proof.Machine
end

section
/-! PROOF. Forwarding, the load-use stall, and what is not forwarded (`44_hazard_forwarding.md`): which value EX takes for
a source register (R132 to R135), the cycle of an instruction that depends on the load in EX (R130, R131, R137), and that
the ID stage of a branch or jump does not look behind itself (R139). -/

namespace Sys2Proof.Machine

/-! ### Forwarding (R132 to R135) -/

section
variable {s : State} {r : Reg}

/-- A forwarding source is an occupant that writes the register in WB, and the register is not register 0 (R132). -/
theorem srcMatch_iff {ins : Decoded} :
    srcMatch ins r = true ↔ (ins.cls = .r ∨ ins.cls = .i ∨ ins.cls = .loadI) ∧ ins.rd = some r ∧ r ≠ 0#5 := by
  obtain ⟨hregWrite, -⟩ := controlTableOfEachClass
  simp only [srcMatch, Bool.and_eq_true, decide_eq_true_eq, hregWrite, and_assoc]

theorem srcMatch_eq_false {ins : Decoded} (h : ins.cls = .s ∨ ins.cls = .b ∨ ins.cls = .j ∨ ins.rd ≠ some r) :
    srcMatch ins r = false := by
  rw [Bool.eq_false_iff, ne_eq, srcMatch_iff]
  rintro ⟨hwrites, hrd, -⟩
  rcases h with h | h | h | h
  · simp [h] at hwrites
  · simp [h] at hwrites
  · simp [h] at hwrites
  · exact h hrd

/-- MEM forwards nothing when its occupant, if there is one, does not match (R133). -/
theorem forwardMem_eq_none (h : ∀ l, s.memSlot = .occupied l → srcMatch l.ins r = false) : forwardMem s r = none := by
  cases hs : s.memSlot with
  | bubble | halted => simp only [forwardMem, hs]
  | occupied l => simp [forwardMem, hs, h l hs]

/-- The same of WB (R134). -/
theorem forwardWb_eq_none (h : ∀ l, s.wbSlot = .occupied l → srcMatch l.ins r = false) : forwardWb s r = none := by
  cases hs : s.wbSlot with
  | bubble | halted => simp only [forwardWb, hs]
  | occupied l => simp [forwardWb, hs, h l hs]

/-- A match in MEM decides, whatever WB holds (R133, R135). -/
theorem fwd_of_mem {l : MemLatch} {v : Word} (hs : s.memSlot = .occupied l) (hm : srcMatch l.ins r = true)
    (hv : l.aluResult = some v) (latched : Word) : fwd s r latched = v := by
  have hmem : forwardMem s r = some v := by simp [forwardMem, hs, hm, hv]
  simp [fwd_eq, hmem]

/-- A match in WB decides where MEM forwards nothing (R134). -/
theorem fwd_of_wb {l : WbLatch} {v : Word} (hmem : forwardMem s r = none) (hs : s.wbSlot = .occupied l)
    (hm : srcMatch l.ins r = true) (hv : l.wrtData = some v) (latched : Word) : fwd s r latched = v := by
  have hwb : forwardWb s r = some v := by simp [forwardWb, hs, hm, hv]
  simp [fwd_eq, hmem, hwb]

/-- Without a match the value latched in ID stays (R132). -/
theorem fwd_of_none (hmem : forwardMem s r = none) (hwb : forwardWb s r = none) (latched : Word) :
    fwd s r latched = latched := by
  simp [fwd_eq, hmem, hwb]

theorem srcMatch_r {ins : RIns} (h : ins.rd = r) (hr : r ≠ 0#5) : srcMatch (.r ins) r = true :=
  srcMatch_iff.mpr ⟨.inl rfl, congrArg some h, hr⟩

theorem srcMatch_i {ins : IIns} (h : ins.rd = r) (hr : r ≠ 0#5) : srcMatch (.i ins) r = true :=
  srcMatch_iff.mpr ⟨.inr (.inl rfl), congrArg some h, hr⟩

theorem srcMatch_loadI {ins : IIns} (h : ins.rd = r) (hr : r ≠ 0#5) : srcMatch (.loadI ins) r = true :=
  srcMatch_iff.mpr ⟨.inr (.inr rfl), congrArg some h, hr⟩

end

/-- Settles O12: MEM's match first (`fwd_of_mem`), then WB's (`fwd_of_wb`), else nothing is forwarded. -/
theorem forwardingTakesTheMostRecentProducer : Obligations.ForwardingTakesTheMostRecentProducer := by
  intro s r latched
  refine ⟨fwd_zero s latched, fun hr => ⟨?memR, ?memI, ?memLoadI, fun hmemIdle => ?noMem⟩⟩
  case memR => exact fun _ _ _ _ hs hrd => fwd_of_mem hs (srcMatch_r hrd hr) rfl latched
  case memI => exact fun _ _ _ hs hrd => fwd_of_mem hs (srcMatch_i hrd hr) rfl latched
  case memLoadI => exact fun _ _ _ hs hrd => fwd_of_mem hs (srcMatch_loadI hrd hr) rfl latched
  case noMem =>
    have hmem : forwardMem s r = none := forwardMem_eq_none fun l hs => srcMatch_eq_false (hmemIdle l hs)
    refine ⟨?wbR, ?wbI, ?wbLoadI, fun hwbIdle => ?noWb⟩
    case wbR => exact fun _ _ _ hs hrd => fwd_of_wb hmem hs (srcMatch_r hrd hr) rfl latched
    case wbI => exact fun _ _ _ hs hrd => fwd_of_wb hmem hs (srcMatch_i hrd hr) rfl latched
    case wbLoadI => exact fun _ _ _ hs hrd => fwd_of_wb hmem hs (srcMatch_loadI hrd hr) rfl latched
    case noWb => exact fwd_of_none hmem (forwardWb_eq_none fun l hs => srcMatch_eq_false (hwbIdle l hs)) latched

/-! ### The load-use stall (R130, R131, R137) -/

section
variable {s t : State} {i : Instr}

/-- A bubble in EX stalls no instruction (R130, R137). -/
theorem stalls_of_exSlot_bubble (h : s.exSlot = .bubble) (i : Instr) : s.stalls i = false := by
  simp only [State.stalls, h]

/-- The detector compares nothing for an instruction without a source (R130). -/
theorem stalls_of_sources_nil (h : i.sources = []) (s : State) : s.stalls i = false := by
  unfold State.stalls
  split
  · simp [h]
  · rfl

/-- A bubble in EX excludes a stall in this cycle: no two stalls in a row (R137). -/
theorem idEvent_ne_stalled_of_exSlot_bubble (h : s.exSlot = .bubble) : s.idEvent ≠ .stalled := by
  cases hs : s.idSlot with
  | bubble | halted => simp [State.idEvent, hs]
  | occupied f =>
    cases hd : decode f.word with
    | error e => simp [State.idEvent, hs, hd]
    | ok i =>
      simp only [State.idEvent, hs, hd, State.eventOf, stalls_of_exSlot_bubble h, Bool.false_eq_true, reduceIte]
      split_ifs <;> simp

/-- A dependent of the load in EX does nothing in ID but wait (R131). -/
theorem idOut_of_stalls (h : s.stalls i = true) (x : RegFile) : idOut i s x = idStall x := by
  rcases idOut_cases i s x with ⟨rfl, -⟩ | ⟨-, ho⟩ | ⟨l, -, hs, -⟩
  · simp at h
  · exact ho
  · rw [hs] at h; cases h

/-- Any other instruction but HALT enters EX (R117). -/
theorem exists_idOut_ex_of_not_stalls (h : s.stalls i = false) (hi : i ≠ .halt) (x : RegFile) :
    ∃ l, (idOut i s x).ex = .occupied l := by
  rcases idOut_cases i s x with ⟨hhalt, -⟩ | ⟨hs, -⟩ | ⟨l, -, -, ⟨-, ho⟩ | ⟨-, ho⟩⟩
  · exact absurd hhalt hi
  · rw [h] at hs; cases hs
  · exact ⟨l, by rw [ho]; rfl⟩
  · exact ⟨l, by rw [ho]; rfl⟩

/-- A stall holds the fetch side, halted or not (R121, R131). -/
theorem ifStage_stall {f : FetchOut} (h : ifStage s .stall = .ok f) : f = ⟨s.pc, s.ifHalted, s.idSlot⟩ := by
  rcases ifStage_ok_iff.mp h with ⟨hh, rfl⟩ | ⟨hh, w, -, rfl⟩
  · rw [hh]
  · rw [hh]; rfl

/-- What a stall cycle leaves (R131): ID and the fetch side repeat, EX gets a bubble, the load and WB go on. -/
structure StalledCycle (s t : State) : Prop where
  exSlot : t.exSlot = .bubble
  idSlot : t.idSlot = s.idSlot
  pc : t.pc = s.pc
  ifHalted : t.ifHalted = s.ifHalted
  regs : ∀ r, t.regs.read r = afterWb s r
  memSlot : t.memSlot = exStage s

/-- The cycle of an instruction that depends on the load in EX. -/
theorem exec_of_stalls (hs : s.stalls i = true) (h : exec i s = .next t) : StalledCycle s t := by
  obtain ⟨wb, m, f, -, hfetch, rfl⟩ := exec_next_iff.mp h
  rw [idOut_of_stalls hs] at hfetch ⊢
  rw [ifStage_stall hfetch]
  exact ⟨rfl, rfl, rfl, rfl, wbStage_read s, rfl⟩

/-- Where neither the data access nor the fetch is in error, the cycle of an instruction answers a next state. -/
theorem exists_exec_next (i : Instr) (hdata : s.dataOk = true) (hfetch : s.fetchOk = true) :
    ∃ t, exec i s = .next t := by
  obtain ⟨⟨wb, m⟩, hm⟩ := memStage_of_dataOk hdata
  obtain ⟨hrun, hw⟩ := imemRead_of_fetchOk hfetch
  exact ⟨_, exec_next_iff.mpr ⟨wb, m, _, hm, ifStage_ok_iff.mpr (.inr ⟨hrun, _, hw, rfl⟩), rfl⟩⟩

end

/-- Settles O35: the cycle is a `StalledCycle`, and the bubble it puts into EX excludes the next stall. -/
theorem loadUseStallsExactlyOneCycle : Obligations.LoadUseStallsExactlyOneCycle := by
  intro s f i hf hs hd hstall hdata hfetch
  obtain ⟨hrun, -⟩ := imemRead_of_fetchOk hfetch
  obtain ⟨t, ht⟩ := exists_exec_next i hdata hfetch
  have hc := exec_of_stalls hstall ht
  exact ⟨t, (step_eq_exec hf hs hd).trans ht, hc.exSlot, hc.idSlot, hc.pc, hc.ifHalted.trans hrun, hc.regs, hc.memSlot,
    stalls_of_exSlot_bubble hc.exSlot i, idEvent_ne_stalled_of_exSlot_bubble hc.exSlot⟩

/-- Settles O36, one clause for each answer of the detector, and one for the instructions without a source. -/
theorem loadUseComparesPresentSourcesOnly : Obligations.LoadUseComparesPresentSourcesOnly := by
  intro i s t _ h
  refine ⟨fun hs => ?stall, fun hs hi => ?pass, fun hsources => stalls_of_sources_nil hsources s⟩
  case stall =>
    have hc := exec_of_stalls hs h
    exact ⟨hc.exSlot, hc.pc, hc.idSlot⟩
  case pass =>
    obtain ⟨wb, m, f, -, -, rfl⟩ := exec_next_iff.mp h
    exact exists_idOut_ex_of_not_stalls hs hi _

/-! ### What is not forwarded (R139, R186) -/

section
variable {s : State} (ex : Slot ExLatch) (mem : Slot MemLatch)

@[simp] theorem wbStage_withLaterSlots : wbStage { s with exSlot := ex, memSlot := mem } = wbStage s := rfl

@[simp] theorem ifStage_withLaterSlots (ctl : FetchCtl) :
    ifStage { s with exSlot := ex, memSlot := mem } ctl = ifStage s ctl := rfl

/-- The ID stage sees EX through the load-use detector alone, and MEM not at all (R117, R130). -/
theorem idOut_withLaterSlots {i : Instr} (h : State.stalls { s with exSlot := ex, memSlot := mem } i = s.stalls i)
    (x : RegFile) : idOut i { s with exSlot := ex, memSlot := mem } x = idOut i s x := by
  unfold idOut
  rw [h]
  rfl

end

/-- Settles O37: ID and IF answer the same in both states, and `pc`, ID, EX and the registers are theirs to write. -/
theorem branchesDoNotSeeUnwrittenResults : Obligations.BranchesDoNotSeeUnwrittenResults := by
  intro i s t t' ex mem _ s' hs hs' h h'
  obtain ⟨wb, m, f, -, hfetch, rfl⟩ := exec_next_iff.mp h
  obtain ⟨wb', m', f', -, hfetch', rfl⟩ := exec_next_iff.mp h'
  have hout : idOut i s' (wbStage s') = idOut i s (wbStage s) :=
    (idOut_withLaterSlots ex mem (hs'.trans hs.symm) _).trans (congrArg _ (wbStage_withLaterSlots ex mem))
  have hf : f' = f := by
    rw [hout, ifStage_withLaterSlots, hfetch] at hfetch'
    exact (Except.ok.inj hfetch').symm
  rw [hout, hf]
  exact ⟨rfl, rfl, rfl, rfl⟩

end Sys2Proof.Machine
end

section
/-! PROOF. Transfers of control (`45_control_transfer.md`): the cycle of a taken branch or a jump (R140, R144, R148), its
inert way behind ID (R116, R119), and the one bubble a redirect costs (R146, R147). -/

namespace Sys2Proof.Machine

section
variable {s t : State} {f : FetchLatch}

/-! ### The ID cycle (R140, R144, R148) -/

/-- The cycle of an instruction that leaves ID and redirects fetch (R119, R121, R146). -/
theorem exec_of_transfersControl {i : Instr} {l : ExLatch} (h : Ready s i f)
    (hl : exLatchOf i f.pc (wbStage s) = some l) (ht : transfersControl i (wbStage s) = true) :
    ∃ t, exec i s = .next t ∧ Redirected s t (f.pc + transferOffset i) ∧ t.exSlot = .occupied l ∧
      t.regs = idRegs i f.pc (wbStage s) := by
  obtain ⟨⟨wb, m⟩, hm⟩ := memStage_of_dataOk h.dataOk
  obtain ⟨hrun, hw⟩ := imemRead_of_fetchOk h.fetchOk
  have hout : idOut i s (wbStage s) =
      idRedirect l (f.pc + transferOffset i) (idRegs i f.pc (wbStage s)) := by
    simp [idOut, State.idPc_occupied h.inId, hl, h.noStall, ht]
  refine ⟨_, exec_next_iff.mpr ⟨wb, m, _, hm, ifStage_ok_iff.mpr (.inr ⟨hrun, _, hw, rfl⟩), rfl⟩, ?_⟩
  rw [hout]
  exact ⟨⟨rfl, rfl, rfl, rfl, h.running⟩, rfl, rfl⟩

/-! ### Behind ID (R116, R119) -/

/-- WB writes nothing for an occupant without write-data (R114). -/
theorem afterWb_of_wrtData_none {w : WbLatch} (h : s.wbSlot = .occupied w) (hw : w.wrtData = none) (r : Reg) :
    afterWb s r = s.regs.read r := by
  cases w with
  | r | i | loadI => cases hw
  | s | b | j => simp only [afterWb, h]

/-- An occupant that makes no data access and has no write-data passes MEM and WB without an effect. -/
theorem steps_of_inert {l : ExLatch} {w : WbLatch} (hf : t.fault = none) (hex : t.exSlot = .occupied l)
    (hacc : ∀ size d, memAccess size d (exAction t l) = .ok (w, d)) (hw : w.wrtData = none) (t2 t3 t4 : State)
    (h2 : step t = .next t2) (h3 : step t2 = .next t3) (h4 : step t3 = .next t4) :
    t2.memSlot = .occupied (exAction t l) ∧ t3.wbSlot = .occupied w ∧ t3.dmem = t2.dmem ∧
      ∀ r, t4.regs.read r = afterLink t3 r (t3.regs.read r) := by
  obtain ⟨hmem, ⟨hwb, hdmem⟩, hregs⟩ := steps_of_noAccess hf hex hacc h2 h3 h4
  exact ⟨hmem, hwb, hdmem, fun r => afterWb_of_wrtData_none hwb hw r ▸ hregs r⟩

/-! ### Branches (R141, R142, R148) -/

/-- A branch whose condition on the register file after WB says `taken` completes: it redirects fetch or passes to EX, and
is inert from there. -/
theorem completesB_of_taken_iff {i : Instr} {ins : BIns} {taken : Prop}
    (hl : ∀ pc x, exLatchOf i pc x = some (.b ins pc)) (hregs : ∀ pc x, idRegs i pc x = x)
    (hoff : transferOffset i = ins.imm) (htaken : transfersControl i (wbStage s) = true ↔ taken) :
    CompletesB s f i ins taken := by
  intro h
  cases ht : transfersControl i (wbStage s) with
  | true =>
    obtain ⟨t, hexec, hred, hex, hx⟩ := exec_of_transfersControl h (hl f.pc _) ht
    rw [hoff] at hred
    refine ⟨t, hexec, hex, fun r => ?_, fun _ => hred, fun hn => absurd (htaken.mp ht) hn,
      steps_of_inert hred.fault hex (fun _ _ => rfl) rfl⟩
    rw [hx, hregs, wbStage_read]
  | false =>
    obtain ⟨t, hexec, hon, hex⟩ := exec_of_ready h (hl f.pc _) ht
    have hn : ¬taken := fun hp => ne_true_of_eq_false ht (htaken.mpr hp)
    exact ⟨t, hexec, hex, hon.regs, fun hp => absurd hp hn, fun _ => hon,
      steps_of_inert hon.fault hex (fun _ _ => rfl) rfl⟩

end

/-- Settles O31, by `completesB_of_taken_iff` at the condition of each branch. -/
theorem branchesComplete : Obligations.BranchesComplete := by
  intro s f rs1 rs2 imm
  refine ⟨completesB_of_taken_iff (fun _ _ => rfl) (fun _ _ => rfl) rfl ?_,
    completesB_of_taken_iff (fun _ _ => rfl) (fun _ _ => rfl) rfl ?_⟩
  all_goals rw [transfersControl, decide_eq_true_iff, wbStage_read, wbStage_read]

/-! ### The jump (R144) -/

/-- Settles O32: a JAL never stalls and always redirects, its link is written over WB's register file, and it is inert
behind ID. -/
theorem jalCompletes : Obligations.JalCompletes := by
  intro s f rd imm hf hs hdata hfetch
  obtain ⟨t, hexec, hred, hex, hx⟩ :=
    exec_of_transfersControl (i := .jal rd imm) ⟨hf, hs, hdata, hfetch, stalls_jal s rd imm⟩ rfl rfl
  refine ⟨t, hexec, hred, hex, fun r => ?_, steps_of_inert hred.fault hex (fun _ _ => rfl) rfl⟩
  simp only [hx, idRegs, RegFile.read_write_eq_ite, wbStage_read, eq_comm (a := rd) (b := r)]

/-! ### The bubble of a taken transfer (R146, R147) -/

section
variable {s t : State}

/-- A step that redirects leaves the target to be fetched and a bubble in ID (R121, R146). -/
theorem step_of_redirected {target : Word} (hf : s.fault = none) (hrun : s.ifHalted = false)
    (hev : s.idEvent = .redirected target) (h : step s = .next t) : Redirected s t target := by
  have harb := arbitrationOfTheFetchSide s t hf h
  simp only [hrun, Bool.false_eq_true, reduceIte, hev] at harb
  obtain ⟨-, -, hpc, hhalted, hid⟩ := harb
  exact ⟨hpc, hhalted, hid, step_params h, step_fault hf h⟩

theorem idEvent_of_bubble (h : s.idSlot = .bubble) : s.idEvent = .idle := by
  simp only [State.idEvent, h]

/-- A step with a bubble in ID passes it to EX and puts the word at `pc` into ID (R117, case E; R121, last row). -/
theorem step_of_bubble (hf : s.fault = none) (hrun : s.ifHalted = false) (hid : s.idSlot = .bubble)
    (h : step s = .next t) :
    t.exSlot = .bubble ∧ ∃ w, imemRead s.params s.pc = .ok w ∧ t.idSlot = .occupied ⟨w, s.pc⟩ := by
  obtain ⟨-, hidle⟩ := step_of_idIdle hf (idStage_of_bubble hid)
  obtain ⟨hex, -⟩ := hidle t h
  have harb := arbitrationOfTheFetchSide s t hf h
  simp only [hrun, Bool.false_eq_true, reduceIte, idEvent_of_bubble hid] at harb
  obtain ⟨w, hw, -, -, hslot⟩ := harb
  exact ⟨hex, w, hw, hslot⟩

end

/-- Settles O39: the first step is `step_of_redirected`, the second `step_of_bubble` at the target. -/
theorem takenTransferCostsOneBubble : Obligations.TakenTransferCostsOneBubble := by
  intro s t u target hf hrun hev hst htu
  have hred := step_of_redirected hf hrun hev hst
  obtain ⟨hex, hfetch⟩ := step_of_bubble hred.fault hred.ifHalted hred.idSlot htu
  rw [hred.params, hred.pc] at hfetch
  exact ⟨hred.pc, hred.idSlot, idEvent_of_bubble hred.idSlot, hex, hfetch⟩

end Sys2Proof.Machine
end

section
/-! PROOF. HALT (`46_halt.md`): its ID cycle (R150), the cycles in which the pipeline behind it drains (R152, R153), the
fully halted machine (R124, R154), and how many cycles a halting run takes (R155). -/

namespace Sys2Proof.Machine

section
variable {s t : State} {wb : Slot WbLatch} {m : Memory}

/-! ### The cycles of a halt (R150, R152) -/

/-- The state after a HALT's ID cycle, whose MEM stage has left `wb` and `m` (R150): ID and IF halted, a bubble in EX. -/
def State.afterHalt (s : State) (wb : Slot WbLatch) (m : Memory) : State :=
  commit s ⟨wbStage s, .bubble, .haltSeen⟩ wb m ⟨s.pc, true, .halted⟩

/-- A HALT never stalls, and the word fetched in its cycle is dropped. -/
theorem exec_halt (hm : memStage s = .ok (wb, m)) (hfetch : s.fetchOk = true) :
    exec .halt s = .next (s.afterHalt wb m) := by
  obtain ⟨hrun, hw⟩ := imemRead_of_fetchOk hfetch
  exact exec_next_iff.mpr ⟨wb, m, _, hm, ifStage_ok_iff.mpr (.inr ⟨hrun, _, hw, rfl⟩), rfl⟩

/-- The state after a cycle behind a HALT, whose MEM stage has left `wb` and `m` (R152): ID passes HALTED to EX, IF does
not fetch. -/
def State.afterDrain (s : State) (wb : Slot WbLatch) (m : Memory) : State :=
  commit s (idIdle .halted (wbStage s)) wb m ⟨s.pc, true, .halted⟩

/-- Behind a HALT only MEM can be in error, since nothing is decoded and nothing fetched (R117, case H; R120). -/
theorem step_drain (hf : s.fault = none) (hif : s.ifHalted = true) (hid : s.idSlot = .halted)
    (hm : memStage s = .ok (wb, m)) : step s = .next (s.afterDrain wb m) := by
  refine (step_next_iff hf).mpr ⟨wb, m, _, ⟨s.pc, true, s.idSlot⟩, hm, congrFun (idStage_of_halted hid) _,
    ifStage_ok_iff.mpr (.inl ⟨hif, rfl⟩), ?_⟩
  rw [hid, State.afterDrain]

theorem haltedOut_of_bubble (h : s.exSlot = .bubble ∨ s.memSlot = .bubble ∨ s.wbSlot = .bubble) :
    s.haltedOut = false := by
  rw [Bool.eq_false_iff, ne_eq, State.haltedOut_iff]
  rintro ⟨-, -, hex, hmem, hwb⟩
  simp [hex, hmem, hwb] at h

end

/-- Settles O33: without an error of MEM or IF the cycle is that of `exec_halt`. -/
theorem haltCompletes : Obligations.HaltCompletes := by
  intro s f hf _ hdata hfetch
  obtain ⟨⟨wb, m⟩, hm⟩ := memStage_of_dataOk hdata
  exact ⟨_, exec_halt hm hfetch, rfl, rfl, rfl, rfl, wbStage_read s, rfl, hf⟩

/-- Settles O47: the HALT's cycle and three draining ones. The bubble it leaves in EX moves through MEM and WB, one stage
ahead of HALTED, so that the second of them makes no data access and the third writes no register either. -/
theorem haltDrainsInFourCycles : Obligations.HaltDrainsInFourCycles := by
  intro s f hinv hs hd hfetch hdata hexData
  have hf := hinv.running
  have hw := hinv.dmemCanonical
  obtain ⟨⟨wb1, m1⟩, hm1⟩ := memStage_of_dataOk hdata
  obtain ⟨⟨wb2, m2⟩, hm2⟩ := memStage_of_dataOk (s := s.afterHalt wb1 m1) hexData
  let t1 := s.afterHalt wb1 m1
  let t2 := t1.afterDrain wb2 m2
  let t3 := t2.afterDrain .bubble m2
  refine ⟨t1, t2, t3, t3.afterDrain .halted m2, ?_⟩
  have step1 : step s = .next t1 := (step_eq_exec hf hs hd).trans (exec_halt hm1 hfetch)
  have step2 : step t1 = .next t2 := step_drain hf rfl rfl hm2
  have step3 : step t2 = .next t3 := step_drain hf rfl rfl rfl
  have step4 : step t3 = .next (t3.afterDrain .halted m2) := step_drain hf rfl rfl rfl
  exact ⟨step1, step2, step3, step4, haltedOut_of_bubble (.inl rfl), haltedOut_of_bubble (.inr (.inl rfl)),
    haltedOut_of_bubble (.inr (.inr rfl)), rfl, rfl, wbStage_read s, wbStage_read t1, wbStage_read t2,
    wbStage_bubble (s := t3) rfl, memStage_read hm1 hw, memStage_read hm2 (memStage_wf hm1 hw), rfl⟩

/-! ### Fully halted (R124, R154) -/

section
variable {s : State}

/-- The cycle of a fully halted machine passes HALTED from every slot to the next and writes nothing. -/
theorem step_of_haltedOut (hf : s.fault = none) (h : s.haltedOut = true) : step s = .next s := by
  obtain ⟨hif, hid, hex, hmem, hwb⟩ := State.haltedOut_iff.mp h
  have hm : memStage s = .ok (.halted, s.dmem) := by simp only [memStage, hmem]
  rw [step_drain hf hif hid hm, State.afterDrain, wbStage_halted hwb]
  obtain ⟨⟩ := s
  cases hif; cases hid; cases hex; cases hmem; cases hwb
  rfl

theorem Runs.of_step_self (h : step s = .next s) (n : Nat) : Runs n s s := by
  induction n with
  | zero => exact Runs.zero_iff.mpr rfl
  | succ n ih => exact Runs.succ_iff.mpr ⟨s, h, ih⟩

theorem edges_of_step_self (h : step s = .next s) (n : Nat) (rests : Nat → Residue) : edges rests n s = s := by
  induction n with
  | zero => rfl
  | succ n ih => simp [edges, ih, edge, h]

end

/-- Settles O48: what holds of any number of steps or edges follows from the one step, `step_of_haltedOut`. -/
theorem haltedMachineIsAFixedPoint : Obligations.HaltedMachineIsAFixedPoint := by
  intro s
  refine ⟨State.haltedOut_iff, fun hf h => ?_⟩
  have hs := step_of_haltedOut hf h
  exact ⟨hs, Runs.of_step_self hs, edges_of_step_self hs, fun _ => rfl⟩

/-! ### How long a halting run takes (R155)

Every cycle of the run counts in `D + L`, or is an idle ID cycle: one for a bubble in ID, at launch and behind each of the
`Q` taken transfers, and three behind the HALT, until HALTED has reached WB. -/

/-- `D + L + Q`. -/
def RunCounts.total (c : RunCounts) : Nat := c.d + c.l + c.q

/-- What a cycle adds to `D + L + Q`; a taken transfer adds to `D` and to `Q`. -/
def IdEvent.weight : IdEvent → Nat
  | .idle => 0
  | .illegal => 0
  | .stalled => 1
  | .passed => 1
  | .redirected _ => 2
  | .haltSeen => 1

theorem IdEvent.count_total (e : IdEvent) (c : RunCounts) : (e.count c).total = c.total + e.weight := by
  cases e <;> simp only [IdEvent.count, RunCounts.total, IdEvent.weight] <;> omega

theorem State.runCounts_succ {s t : State} (h : step s = .next t) (n : Nat) :
    State.runCounts (n + 1) s = s.idEvent.count (State.runCounts n t) := by
  simp only [State.runCounts, h]

/-- The idle ID cycle that a bubble in ID costs. -/
def State.idBubbles (s : State) : Nat := if s.idSlot = .bubble then 1 else 0

/-- The slots behind ID that HALTED has yet to reach. -/
def State.undrained (s : State) : Nat :=
  (!s.exSlot.isHalted).toNat + (!s.memSlot.isHalted).toNat + (!s.wbSlot.isHalted).toNat

section
variable {s t : State}

/-! #### The slots behind ID -/

/-- R25(d): while fetch runs, no slot is halted. -/
theorem not_isHalted_of_running (hc : s.haltChain = true) (hrun : s.ifHalted = false) :
    s.idSlot.isHalted = false ∧ s.exSlot.isHalted = false ∧ s.memSlot.isHalted = false ∧ s.wbSlot.isHalted = false := by
  obtain ⟨cid, cex, cmem, cwb⟩ := State.haltChain_iff.mp hc
  have hid : s.idSlot.isHalted = false := cid.trans hrun
  have hex : s.exSlot.isHalted = false := by simpa [hid] using cex
  have hmem : s.memSlot.isHalted = false := by simpa [hex] using cmem
  have hwb : s.wbSlot.isHalted = false := by simpa [hmem] using cwb
  exact ⟨hid, hex, hmem, hwb⟩

/-- While fetch runs, HALTED has reached no slot behind ID, and reaches none in the cycle (R152). -/
theorem undrained_of_running (hf : s.fault = none) (hc : s.haltChain = true) (hrun : s.ifHalted = false)
    (h : step s = .next t) : s.undrained = 3 ∧ t.undrained = 3 := by
  obtain ⟨hid, hex, hmem, hwb⟩ := not_isHalted_of_running hc hrun
  obtain ⟨-, -, tex, tmem, twb⟩ := step_isHalted hf hc h
  rw [State.undrained, State.undrained, tex, tmem, twb, hid, hex, hmem, hwb]
  exact ⟨rfl, rfl⟩

/-- R25(d): with IF halted, it is WB that keeps a machine from being fully halted. -/
theorem wbSlot_not_isHalted (hc : s.haltChain = true) (hif : s.ifHalted = true) (hout : s.haltedOut = false) :
    s.wbSlot.isHalted = false := by
  obtain ⟨cid, -, cmem, cwb⟩ := State.haltChain_iff.mp hc
  rw [Bool.eq_false_iff]
  intro hwb
  have hmem := cwb hwb
  simp [State.haltedOut, hif, cid, cmem hmem, hmem, hwb] at hout

/-- Behind a HALT, each cycle takes HALTED one stage on (R152). -/
theorem undrained_of_ifHalted (hf : s.fault = none) (hc : s.haltChain = true) (hif : s.ifHalted = true)
    (hout : s.haltedOut = false) (h : step s = .next t) : s.undrained = t.undrained + 1 := by
  obtain ⟨cid, -⟩ := State.haltChain_iff.mp hc
  obtain ⟨-, -, tex, tmem, twb⟩ := step_isHalted hf hc h
  rw [State.undrained, State.undrained, tex, tmem, twb, cid, hif, wbSlot_not_isHalted hc hif hout]
  simp

/-! #### The ID slot -/

/-- An instruction in ID is never an idle cycle (R117). -/
theorem idEvent_ne_idle {f : FetchLatch} (hs : s.idSlot = .occupied f) : s.idEvent ≠ .idle := by
  cases hd : decode f.word with
  | error e => simp [State.idEvent, hs, hd]
  | ok i =>
    simp only [State.idEvent, hs, hd, State.eventOf]
    split_ifs <;> simp

/-- While fetch runs, ID is idle for a bubble and for nothing else (R117, case E). -/
theorem idBubbles_of_running (hid : s.idSlot.isHalted = false) : s.idBubbles = if s.idEvent = .idle then 1 else 0 := by
  cases hs : s.idSlot with
  | halted => rw [hs] at hid; cases hid
  | bubble => simp [State.idBubbles, hs, idEvent_of_bubble hs]
  | occupied f => simp [State.idBubbles, hs, idEvent_ne_idle hs]

/-- While fetch runs, a cycle is a bubble's or counts in `D + L`, and a taken transfer, which counts in `Q` too, leaves a
bubble (R121, R146). -/
theorem weight_add_idBubbles_of_running (hf : s.fault = none) (hc : s.haltChain = true) (hrun : s.ifHalted = false)
    (h : step s = .next t) : s.idEvent.weight + s.idBubbles = 1 + t.idBubbles := by
  obtain ⟨hid, -⟩ := not_isHalted_of_running hc hrun
  have harb := arbitrationOfTheFetchSide s t hf h
  have hbubbles := idBubbles_of_running hid
  simp only [hrun, Bool.false_eq_true, reduceIte] at harb
  obtain ⟨w, -, harb⟩ := harb
  cases hev : s.idEvent with
  | illegal => simp [hev] at harb
  | stalled =>
    simp only [hev] at harb
    obtain ⟨-, -, hslot⟩ := harb
    have ht : t.idBubbles = s.idBubbles := by rw [State.idBubbles, State.idBubbles, hslot]
    rw [ht, IdEvent.weight]
  | idle | passed | redirected target | haltSeen =>
    simp only [hev] at harb hbubbles
    obtain ⟨-, -, hslot⟩ := harb
    rw [hbubbles, State.idBubbles, hslot]
    rfl

/-- Behind a HALT, ID is idle and holds no bubble. -/
theorem weight_add_idBubbles_of_ifHalted (hf : s.fault = none) (hc : s.haltChain = true) (hif : s.ifHalted = true)
    (h : step s = .next t) : s.idEvent.weight + s.idBubbles = t.idBubbles := by
  have hs := State.idSlot_eq_halted hc hif
  have harb := arbitrationOfTheFetchSide s t hf h
  rw [if_pos hif] at harb
  obtain ⟨-, -, hslot, -⟩ := harb
  simp [State.idEvent, State.idBubbles, hslot, hs, IdEvent.weight]

/-! #### The run -/

/-- The idle ID cycles that a halting run has ahead, apart from those which transfers still to be taken will cause. -/
def State.idleAhead (s : State) : Nat := s.idBubbles + s.undrained

/-- A cycle of a machine that is not fully halted counts in `D + L` or is one of the idle ones ahead; a taken transfer
adds one to these, which its count in `Q` pays for. -/
theorem weight_add_idleAhead (hf : s.fault = none) (hc : s.haltChain = true) (hout : s.haltedOut = false)
    (h : step s = .next t) : s.idEvent.weight + s.idleAhead = 1 + t.idleAhead := by
  unfold State.idleAhead
  cases hif : s.ifHalted with
  | false =>
    obtain ⟨hs, ht⟩ := undrained_of_running hf hc hif h
    have := weight_add_idBubbles_of_running hf hc hif h
    omega
  | true =>
    have := undrained_of_ifHalted hf hc hif hout h
    have := weight_add_idBubbles_of_ifHalted hf hc hif h
    omega

theorem idleAhead_of_haltedOut (h : s.haltedOut = true) : s.idleAhead = 0 := by
  obtain ⟨-, hid, hex, hmem, hwb⟩ := State.haltedOut_iff.mp h
  simp [State.idleAhead, State.idBubbles, State.undrained, hid, hex, hmem, hwb, Slot.isHalted]

/-- From any state with R25(d), the number of cycles until the machine is fully halted for the first time (R155). -/
theorem eq_total_add_idleAhead {n : Nat} (hf : s.fault = none) (hc : s.haltChain = true) (hrun : Runs n s t)
    (hout : t.haltedOut = true) (hfirst : ∀ m u, m < n → Runs m s u → u.haltedOut = false) :
    n = (State.runCounts n s).total + s.idleAhead := by
  induction n generalizing s with
  | zero =>
    obtain rfl := Runs.zero_iff.mp hrun
    rw [idleAhead_of_haltedOut hout]
    rfl
  | succ n ih =>
    obtain ⟨v, hsv, hvt⟩ := Runs.succ_iff.mp hrun
    have hs : s.haltedOut = false := hfirst 0 s n.succ_pos (Runs.zero_iff.mpr rfl)
    have hn := ih (step_fault hf hsv) (step_haltChain hf hc hsv) hvt fun m u hm hu =>
      hfirst (m + 1) u (Nat.succ_lt_succ hm) (Runs.succ_iff.mpr ⟨v, hsv, hu⟩)
    have hw := weight_add_idleAhead hf hc hs hsv
    rw [State.runCounts_succ hsv, IdEvent.count_total]
    omega

end

/-- Settles O49: of the four cycles beyond `D + L + Q`, one is for the bubble that ID holds at launch, and three take
HALTED from ID to WB. -/
theorem haltingRunTakesDPlusLPlusQPlusFourCycles : Obligations.HaltingRunTakesDPlusLPlusQPlusFourCycles :=
  fun _ _ _ hrun hout hfirst => eq_total_add_idleAhead rfl rfl hrun hout hfirst

end Sys2Proof.Machine
end

section
/-! PROOF. The clock edge (R180) and the state a fatal error leaves (`60_exceptions.md`): what reset does, that a fault
stays until it (R160), and the state a literal reading of the cycle gives for reference (R164). -/

namespace Sys2Proof.Machine

section
variable {s t : State} {e : Fault}

/-! ### The edge (R160, R180) -/

theorem edge_true (rest : Residue) (s : State) : edge true rest s = State.launched s.params := rfl

theorem edge_false_of_next (h : step s = .next t) (rest : Residue) : edge false rest s = t := by
  simp [edge, h]

theorem edge_false_of_fault (h : step s = .fault e) (rest : Residue) : edge false rest s = s.faulted e rest := by
  simp [edge, h]

/-- A faulted machine stays as it is (R122, R160). -/
theorem step_of_fault (h : s.fault = some e) : step s = .next s := by
  simp only [step, h]

end

/-- Settles O16, the equations of the edge. -/
theorem resetEdgeGivesTheLaunchState : Obligations.ResetEdgeGivesTheLaunchState :=
  ⟨fun s rest => edge_true rest s, fun _ _ rest h => edge_false_of_next h rest⟩

/-- Settles O44: the marker makes the faulted state a fixed point of `step`, and so of every edge without `rst`. -/
theorem faultedMachineStaysUntilReset : Obligations.FaultedMachineStaysUntilReset := by
  intro s e rest h t
  have ht : t = s.faulted e rest := edge_false_of_fault h rest
  rw [ht]
  have hstay : step (s.faulted e rest) = .next (s.faulted e rest) := step_of_fault (State.faulted_fault s e rest)
  exact ⟨rfl, rfl, rfl, RegFile.read_zero rest.regs, hstay, edges_of_step_self hstay, fun rest' => edge_true rest' _⟩

/-! ### The literal reading of a fault (R164) -/

section
variable {s : State}

theorem exists_memStage_ok_iff : (∃ q, memStage s = .ok q) ↔ memFault s = none :=
  exists_eq_ok_iff_eq_none fun _ => memStage_error_iff

/-- An error in MEM stops the cycle behind WB: neither a store nor a link is there. -/
theorem literal_of_memFault (h : memFault s ≠ none) : s.literalRegs = wbStage s ∧ s.literalDmem = s.dmem := by
  obtain ⟨e, he⟩ := Option.ne_none_iff_exists'.mp h
  have hm : memStage s = .error e := memStage_error_iff.mpr he
  simp only [State.literalRegs, State.literalDmem, hm, and_self]

/-- Behind a MEM stage without an error its store is done. -/
theorem literalDmem_read (h : memFault s = none) (hw : s.dmem.wf = true) (a : Nat) :
    s.literalDmem.read a = afterMem s a := by
  obtain ⟨⟨wb, d⟩, hm⟩ := exists_memStage_ok_iff.mpr h
  simp only [State.literalDmem, hm, memStage_read hm hw]

/-- Behind MEM, the registers are WB's, with the link of a JAL in ID on top. -/
theorem literalRegs_read (h : memFault s = none) (r : Reg) :
    s.literalRegs.read r = afterLink s r (afterWb s r) := by
  obtain ⟨q, hm⟩ := exists_memStage_ok_iff.mpr h
  cases hs : s.idSlot with
  | bubble | halted => simp [State.literalRegs, afterLink, State.linkWrite, hm, hs, wbStage_read]
  | occupied f =>
    cases hd : decode f.word with
    | error e => simp [State.literalRegs, afterLink, State.linkWrite, hm, hs, hd, wbStage_read]
    | ok i =>
      cases i with
      | jal rd imm =>
        simp [State.literalRegs, afterLink, State.linkWrite, hm, hs, hd, wbStage_read, RegFile.read_write_eq_ite]
      | _ => simp [State.literalRegs, afterLink, State.linkWrite, hm, hs, hd, wbStage_read]

/-- A word in ID that does not decode writes no link. -/
theorem afterLink_of_idFault (h : idFault s ≠ none) (r : Reg) (v : Word) : afterLink s r v = v := by
  cases hs : s.idSlot with
  | bubble | halted => simp [idFault, hs] at h
  | occupied f =>
    cases hd : decode f.word with
    | error e => simp [afterLink, State.linkWrite, hs, hd]
    | ok i => simp [idFault, hs, hd] at h

end

/-- Settles O45: how far the cycle got decides what it has written; the slots and `pc` are not committed. -/
theorem literalStateAtAFault : Obligations.LiteralStateAtAFault := by
  intro s e hw _ rest
  refine ⟨fun hmem => ?mem, fun hmem => literalDmem_read hmem hw, fun hmem hid r => ?id, fun hmem _ r => ?ifetch,
    rfl, rfl, rfl, rfl, rfl, rfl⟩
  case mem =>
    obtain ⟨hregs, hdmem⟩ := literal_of_memFault hmem
    exact ⟨fun r => (congrArg (·.read r) hregs).trans (wbStage_read s r), hdmem⟩
  case id => exact (literalRegs_read hmem r).trans (afterLink_of_idFault hid r _)
  case ifetch => exact literalRegs_read hmem r

end Sys2Proof.Machine
end

section
/-! PROOF. The overtaken link (R187): the write of an R- or I-class instruction one place ahead of a JAL comes two cycles
behind the JAL's. -/

namespace Sys2Proof.Machine

section
variable {s t : State}

/-- The registers and the MEM slot after the cycle in which `i` is in ID. -/
theorem exec_next_regs_memSlot {i : Instr} (h : exec i s = .next t) :
    t.regs = idRegs i s.idPc (wbStage s) ∧ t.memSlot = exStage s ∧ t.fault = s.fault := by
  obtain ⟨wb, m, f, -, -, rfl⟩ := exec_next_iff.mp h
  exact ⟨idOut_regs i s _, rfl, rfl⟩

/-- An R- or I-class occupant of MEM hands its ALU result to WB, which writes it to `rd` (R114, R115). -/
theorem afterWb_of_aluResult {l : MemLatch} {rd : Reg} (hf : s.fault = none) (hs : s.memSlot = .occupied l)
    (hrd : l.ins.rd = some rd) (hcls : l.ins.cls = .r ∨ l.ins.cls = .i) (h0 : rd ≠ 0#5) (h : step s = .next t) :
    afterWb t rd = l.aluResult.getD 0#32 := by
  cases l with
  | r ins pc v d =>
    cases hrd
    obtain ⟨hwb, -⟩ := step_wbSlot hf hs rfl h
    rw [afterWb_r hwb, if_pos ⟨rfl, h0⟩]
    rfl
  | i ins pc v =>
    cases hrd
    obtain ⟨hwb, -⟩ := step_wbSlot hf hs rfl h
    rw [afterWb_i hwb, if_pos ⟨rfl, h0⟩]
    rfl
  | loadI | s | b | j => simp [MemLatch.ins, Decoded.cls] at hcls

end

/-- Settles O40: the JAL's cycle writes the link, the step after it brings the older result to WB, and the next one writes
it. -/
theorem olderWriteOvertakesTheLink : Obligations.OlderWriteOvertakesTheLink := by
  intro s t u v rd imm l hf h0 hex hrd hcls hst htu huv
  obtain ⟨hregs, hmem, hft⟩ := exec_next_regs_memSlot hst
  rw [hf] at hft
  rw [exStage, hex] at hmem
  refine ⟨by rw [hregs]; exact RegFile.read_write_same _ h0 _, ?_⟩
  rw [← exAction_ins s l] at hrd hcls
  rw [step_regs_read (step_fault hft htu) huv, afterWb_of_aluResult hft hmem hrd hcls h0 htu]

end Sys2Proof.Machine
end

section
/-! PROOF. The sequential reference (R194): the effect of each instruction, spelled out. -/

namespace Sys2Proof.Machine

section
variable {size : Nat} {d : Memory} {a : Word}

/-- An access without an error goes to the bytes from its address on (R32, R34). -/
theorem accessFault_eq_none_iff : accessFault size a = none ↔ checkAccess size a = .ok a.toNat := by
  rw [← exists_eq_ok_iff_eq_none fun _ => accessFault_eq_some_iff.symm]
  refine ⟨fun ⟨k, hk⟩ => ?_, fun h => ⟨_, h⟩⟩
  obtain ⟨-, -, rfl⟩ := checkAccess_ok_iff.mp hk
  exact hk

end

section
variable {q : SeqState} {ea v : Word} {rd : Reg} {e : Fault}

theorem seqLoad_of_fault (h : accessFault q.params.dmemSize ea = some e) : seqLoad rd ea q = .error e := by
  simp only [seqLoad, memRead, accessFault_eq_some_iff.mp h]

theorem seqLoad_of_no_fault (h : accessFault q.params.dmemSize ea = none) :
    seqLoad rd ea q = seqWrite rd (q.dmem.readWord ea.toNat) q := by
  simp only [seqLoad, memRead, accessFault_eq_none_iff.mp h]

theorem seqStore_of_fault (h : accessFault q.params.dmemSize ea = some e) : seqStore ea v q = .error e := by
  simp only [seqStore, memWrite, accessFault_eq_some_iff.mp h]

theorem seqStore_of_no_fault (h : accessFault q.params.dmemSize ea = none) :
    seqStore ea v q = .next { q with dmem := q.dmem.writeWord ea.toNat v, pc := q.pc + 4#32 } := by
  simp only [seqStore, memWrite, accessFault_eq_none_iff.mp h]

end

/-- Settles O34: loads and stores by the error of their address, branches by their condition, the others as defined. -/
theorem sequentialEffects : Obligations.SequentialEffects := by
  intro q f7 f3 rd rs1 rs2 imm a b write load goto
  have hload (ea : Word) : seqLoad rd ea q = load ea := by
    cases h : accessFault q.params.dmemSize ea with
    | some e => simp only [seqLoad_of_fault h, load, h]
    | none => simp only [seqLoad_of_no_fault h, load, h]; rfl
  have hbranch (c : Prop) [Decidable c] : seqBranch (decide c) imm q = goto c := by
    simp only [seqBranch, goto, decide_eq_true_eq]
  have hbne : (!regsEqual a b) = decide (a ≠ b) := (decide_not (p := a = b)).symm
  refine ⟨rfl, rfl, rfl, rfl, rfl, rfl, rfl, rfl, rfl, hload _, hload _, hload _, hload _, ?sw, hbranch _, ?bne, rfl, rfl⟩
  case sw =>
    cases h : accessFault q.params.dmemSize (a + imm) with
    | some e => exact seqStore_of_fault h
    | none => exact seqStore_of_no_fault h
  case bne => exact (congrArg (seqBranch · imm q) hbne).trans (hbranch _)

end Sys2Proof.Machine
end

section
/-! PROOF. What the instructions behind ID have yet to do (R114 to R116): the registers and DMEM once the occupants of WB,
MEM and EX have completed, and which registers that can still change. -/

namespace Sys2Proof.Machine

/-! ### The register an occupant writes in WB (R114) -/

/-- The register that a record writes in WB: the `rd` of classes R, I and LoadI. -/
def Decoded.wbDest : Decoded → Option Reg
  | .r ins => some ins.rd
  | .i ins => some ins.rd
  | .loadI ins => some ins.rd
  | .s _ => none
  | .b _ => none
  | .j _ => none
  | .halt => none

/-- The register that the occupant of a slot, `ins` being its record, writes in WB. -/
def Slot.dest {α : Type} (ins : α → Decoded) : Slot α → Option Reg
  | .occupied a => (ins a).wbDest
  | .bubble => none
  | .halted => none

/-- A write to `dest` is not seen in register `r`. -/
def Apart (dest : Option Reg) (r : Reg) : Prop := ∀ rd, dest = some rd → rd = 0#5 ∨ rd ≠ r

theorem apart_zero (dest : Option Reg) : Apart dest 0#5 := fun rd _ => Classical.em (rd = 0#5)

theorem RegFile.read_write_apart {rd r : Reg} (h : rd = 0#5 ∨ rd ≠ r) (x : RegFile) (v : Word) :
    (x.write rd v).read r = x.read r := by
  rcases h with rfl | h
  · rw [RegFile.write_zero]
  · exact RegFile.read_write_other x (Ne.symm h) v

theorem RegFile.write_comm {rd r : Reg} (h : rd = 0#5 ∨ rd ≠ r) (x : RegFile) (v w : Word) :
    (x.write r w).write rd v = (x.write rd v).write r w := by
  refine RegFile.ext_read fun k => ?_
  simp only [RegFile.read_write]
  rcases h with rfl | h
  · simp
  · by_cases hk : k = rd
    · subst hk; simp [h]
    · simp [hk]

/-! ### WB (R114) -/

/-- The register file after the WB slot's write. -/
def writeBack : Slot WbLatch → RegFile → RegFile
  | .occupied (.r ins _ v), x => x.write ins.rd v
  | .occupied (.i ins _ v), x => x.write ins.rd v
  | .occupied (.loadI ins _ v), x => x.write ins.rd v
  | .occupied (.s _ _), x => x
  | .occupied (.b _ _), x => x
  | .occupied (.j _ _), x => x
  | .bubble, x => x
  | .halted, x => x

theorem wbStage_eq_writeBack (s : State) : wbStage s = writeBack s.wbSlot s.regs := by
  cases h : s.wbSlot with
  | bubble => exact wbStage_bubble h
  | halted => exact wbStage_halted h
  | occupied l =>
    cases l with
    | r => exact wbStage_r h
    | i => exact wbStage_i h
    | loadI => exact wbStage_loadI h
    | s => exact wbStage_s h
    | b => exact wbStage_b h
    | j => exact wbStage_j h

/-- WB writes nothing, or its occupant's register. -/
theorem writeBack_cases (wb : Slot WbLatch) :
    (∀ x, writeBack wb x = x) ∨ ∃ rd v, wb.dest WbLatch.ins = some rd ∧ ∀ x, writeBack wb x = x.write rd v := by
  rcases wb with _ | _ | l
  · exact .inl fun _ => rfl
  · exact .inl fun _ => rfl
  · cases l with
    | r | i | loadI => exact .inr ⟨_, _, rfl, fun _ => rfl⟩
    | s | b | j => exact .inl fun _ => rfl

section
variable {wb : Slot WbLatch} {r : Reg}

theorem writeBack_read_apart (h : Apart (wb.dest WbLatch.ins) r) (x : RegFile) :
    (writeBack wb x).read r = x.read r := by
  rcases writeBack_cases wb with hw | ⟨rd, v, hrd, hw⟩
  · rw [hw]
  · rw [hw]; exact RegFile.read_write_apart (h rd hrd) x v

theorem writeBack_write_apart (h : Apart (wb.dest WbLatch.ins) r) (x : RegFile) (v : Word) :
    writeBack wb (x.write r v) = (writeBack wb x).write r v := by
  rcases writeBack_cases wb with hw | ⟨rd, w, hrd, hw⟩
  · rw [hw, hw]
  · rw [hw, hw]; exact RegFile.write_comm (h rd hrd) x w v

end

/-! ### MEM and WB (R114, R115) -/

/-- The MEM stage as a function of its slot: the next WB slot, and DMEM after the access. -/
def accessSlot (size : Nat) (d : Memory) : Slot MemLatch → Except Fault (Slot WbLatch × Memory)
  | .bubble => .ok (.bubble, d)
  | .halted => .ok (.halted, d)
  | .occupied l =>
    match memAccess size d l with
    | .ok (wb, d') => .ok (.occupied wb, d')
    | .error e => .error e

theorem memStage_eq_accessSlot (s : State) : memStage s = accessSlot s.params.dmemSize s.dmem s.memSlot := by
  unfold memStage accessSlot
  cases s.memSlot <;> rfl

section
variable {size : Nat} {d : Memory} {pc ea : Word}

theorem accessSlot_loadI {ins : IIns} {w : Word} (h : memRead size d ea = .ok w) :
    accessSlot size d (.occupied (.loadI ins pc ea)) = .ok (.occupied (.loadI ins pc w), d) := by
  simp only [accessSlot, memAccess, h]

theorem accessSlot_s {ins : SIns} {v : Word} {d' : Memory} (h : memWrite size d ea v = .ok d') :
    accessSlot size d (.occupied (.s ins pc ea v)) = .ok (.occupied (.s ins pc), d') := by
  simp only [accessSlot, memAccess, h]

end

/-- The occupant of MEM keeps its destination on the way to WB. -/
theorem accessSlot_dest {size : Nat} {d d' : Memory} {slot : Slot MemLatch} {wb : Slot WbLatch}
    (h : accessSlot size d slot = .ok (wb, d')) : wb.dest WbLatch.ins = slot.dest MemLatch.ins := by
  cases slot with
  | bubble | halted => cases h; rfl
  | occupied l =>
    cases ha : memAccess size d l with
    | error e => simp [accessSlot, ha] at h
    | ok q =>
      obtain ⟨w, m⟩ := q
      obtain ⟨hins, -⟩ := memAccess_keeps ha
      simp only [accessSlot, ha, Except.ok.injEq, Prod.mk.injEq] at h
      obtain ⟨rfl, -⟩ := h
      simp only [Slot.dest, hins]

/-- The occupant of MEM, its data access and its write in WB done, takes registers `x` and DMEM `d` to `x'` and `d'`. -/
def Completes (size : Nat) (slot : Slot MemLatch) (x : RegFile) (d : Memory) (x' : RegFile) (d' : Memory) : Prop :=
  ∃ wb, accessSlot size d slot = .ok (wb, d') ∧ writeBack wb x = x'

section
variable {size : Nat} {slot : Slot MemLatch} {x x' : RegFile} {d d' : Memory} {r : Reg}

theorem Completes.read_eq (h : Completes size slot x d x' d') (ha : Apart (slot.dest MemLatch.ins) r) :
    x'.read r = x.read r := by
  obtain ⟨wb, hacc, rfl⟩ := h
  exact writeBack_read_apart (accessSlot_dest hacc ▸ ha) x

theorem Completes.write (h : Completes size slot x d x' d') (ha : Apart (slot.dest MemLatch.ins) r) (v : Word) :
    Completes size slot (x.write r v) d (x'.write r v) d' := by
  obtain ⟨wb, hacc, rfl⟩ := h
  exact ⟨wb, hacc, writeBack_write_apart (accessSlot_dest hacc ▸ ha) x v⟩

theorem completes_of_empty (h : slot = .bubble ∨ slot = .halted) : Completes size slot x d x' d' ↔ x = x' ∧ d = d' := by
  rcases h with rfl | rfl <;> simp [Completes, accessSlot, writeBack, eq_comm, and_comm]

end

/-! ### The state, once the occupants behind ID have completed -/

/-- Once the occupants of WB and MEM have completed, the registers are `x` and DMEM is `d`. -/
def State.SettlesTo (s : State) (x : RegFile) (d : Memory) : Prop :=
  Completes s.params.dmemSize s.memSlot (wbStage s) s.dmem x d

/-- Once the occupants of WB, MEM and EX have completed, the registers are `x` and DMEM is `d`. -/
def State.CompletesTo (s : State) (x : RegFile) (d : Memory) : Prop :=
  ∃ x1 d1, s.SettlesTo x1 d1 ∧ Completes s.params.dmemSize (exStage s) x1 d1 x d

section
variable {s t : State} {x : RegFile} {d : Memory} {r : Reg}

theorem State.CompletesTo.exists_memStage_ok (h : s.CompletesTo x d) : ∃ wb m, memStage s = .ok (wb, m) := by
  obtain ⟨x1, d1, ⟨wb, hacc, -⟩, -⟩ := h
  exact ⟨wb, d1, (memStage_eq_accessSlot s).trans hacc⟩

/-- Where EX is empty, completing WB and MEM is all there is to do. -/
theorem State.SettlesTo.completesTo (h : s.SettlesTo x d) (hex : s.exSlot = .bubble ∨ s.exSlot = .halted) :
    s.CompletesTo x d := by
  refine ⟨x, d, h, (completes_of_empty ?_).mpr ⟨rfl, rfl⟩⟩
  unfold exStage
  rcases hex with hex | hex <;> rw [hex]
  · exact .inl rfl
  · exact .inr rfl

/-- With every slot behind ID empty, nothing is left to do. -/
theorem State.completesTo_of_empty (hex : s.exSlot = .bubble ∨ s.exSlot = .halted)
    (hmem : s.memSlot = .bubble ∨ s.memSlot = .halted) (hwb : s.wbSlot = .bubble ∨ s.wbSlot = .halted) :
    s.CompletesTo s.regs s.dmem := by
  refine State.SettlesTo.completesTo ((completes_of_empty hmem).mpr ⟨?_, rfl⟩) hex
  rcases hwb with hwb | hwb
  · exact wbStage_bubble hwb
  · exact wbStage_halted hwb

theorem exStage_dest (s : State) : (exStage s).dest MemLatch.ins = s.exSlot.dest ExLatch.ins := by
  unfold exStage
  cases s.exSlot with
  | bubble | halted => rfl
  | occupied l => simp only [Slot.dest, exAction_ins]

/-- A register that no occupant of EX or MEM writes already has its final value in WB's register file. -/
theorem State.CompletesTo.read_eq (h : s.CompletesTo x d) (hex : Apart (s.exSlot.dest ExLatch.ins) r)
    (hmem : Apart (s.memSlot.dest MemLatch.ins) r) : x.read r = (wbStage s).read r := by
  obtain ⟨x1, d1, hsettles, hcompletes⟩ := h
  rw [← exStage_dest] at hex
  exact (hcompletes.read_eq hex).trans (hsettles.read_eq hmem)

theorem step_memStage (hf : s.fault = none) (h : step s = .next t) :
    memStage s = .ok (t.wbSlot, t.dmem) ∧ t.memSlot = exStage s := by
  obtain ⟨wb, m, dd, f, hm, -, -, rfl⟩ := (step_next_iff hf).mp h
  exact ⟨hm, rfl⟩

/-- One step on, what EX, MEM and WB came to is what MEM and WB come to. A link written in the cycle stays on top of it,
unless an occupant of EX or MEM has yet to write the same register. -/
theorem State.CompletesTo.settlesTo_of_step_write (hc : s.CompletesTo x d) (hf : s.fault = none) (h : step s = .next t) {v : Word}
    (hregs : t.regs = (wbStage s).write r v) (hex : Apart (s.exSlot.dest ExLatch.ins) r)
    (hmem : Apart (s.memSlot.dest MemLatch.ins) r) : t.SettlesTo (x.write r v) d := by
  obtain ⟨hm, hslot⟩ := step_memStage hf h
  obtain ⟨x1, d1, ⟨wb, hacc, rfl⟩, hcompletes⟩ := hc
  rw [memStage_eq_accessSlot, hacc] at hm
  cases hm
  rw [← exStage_dest] at hex
  rw [State.SettlesTo, step_params h, hslot, wbStage_eq_writeBack, hregs,
    writeBack_write_apart (accessSlot_dest hacc ▸ hmem)]
  exact hcompletes.write hex v

/-- The same of a cycle that writes no link. -/
theorem State.CompletesTo.settlesTo_of_step (hc : s.CompletesTo x d) (hf : s.fault = none) (h : step s = .next t)
    (hregs : t.regs = wbStage s) : t.SettlesTo x d := by
  have := hc.settlesTo_of_step_write (r := 0#5) (v := 0#32) hf h (by rw [hregs, RegFile.write_zero]) (apart_zero _) (apart_zero _)
  rwa [RegFile.write_zero] at this

/-! ### Forwarding gives EX the final values (R132 to R136) -/

/-- WB's write, in terms of what WB forwards. -/
theorem wbStage_read_eq_forwardWb (s : State) (r : Reg) :
    (wbStage s).read r = (forwardWb s r).getD (s.regs.read r) := by
  rw [wbStage_eq_writeBack]
  unfold forwardWb
  cases s.wbSlot with
  | bubble | halted => rfl
  | occupied l =>
    cases l with
    | r | i | loadI =>
      simp only [writeBack, RegFile.read_write_eq_ite, srcMatch, WbLatch.ins, Decoded.cls, ctrl, Decoded.rd,
        WbLatch.wrtData, Option.some.injEq, Bool.true_and, Bool.and_eq_true, decide_eq_true_eq]
      split <;> rfl
    | s | b | j => rfl

/-- What MEM's occupant comes to, in terms of what MEM forwards; a load forwards its address, not what it loads. -/
theorem State.SettlesTo.read_eq_forwardMem (h : s.SettlesTo x d)
    (hload : ∀ ins pc ea, s.memSlot = .occupied (.loadI ins pc ea) → ins.rd ≠ r) :
    x.read r = (forwardMem s r).getD ((wbStage s).read r) := by
  obtain ⟨wb, hacc, rfl⟩ := h
  unfold forwardMem
  cases hs : s.memSlot with
  | bubble | halted => rw [hs] at hacc; cases hacc; rfl
  | occupied l =>
    rw [hs] at hacc
    cases l with
    | r | i =>
      cases hacc
      simp only [writeBack, RegFile.read_write_eq_ite, srcMatch, MemLatch.ins, Decoded.cls, ctrl, Decoded.rd,
        MemLatch.aluResult, Option.some.injEq, Bool.true_and, Bool.and_eq_true, decide_eq_true_eq]
      split <;> rfl
    | loadI ins pc ea =>
      have hne := hload ins pc ea hs
      have hsrc : srcMatch (.loadI ins) r = false :=
        srcMatch_eq_false (.inr (.inr (.inr fun h => hne (Option.some.inj h))))
      have hapart : Apart (wb.dest WbLatch.ins) r := by
        rw [accessSlot_dest hacc]
        intro rd hrd
        cases hrd
        exact .inr hne
      simp only [MemLatch.ins, hsrc, writeBack_read_apart hapart]
      rfl
    | s | b | j =>
      have hapart : Apart (wb.dest WbLatch.ins) r := by
        rw [accessSlot_dest hacc]
        intro rd hrd
        cases hrd
      rw [writeBack_read_apart hapart]
      rfl

/-- EX takes, for a source register, the value that the register has once MEM and WB have completed (R132). -/
theorem State.SettlesTo.fwd_eq (h : s.SettlesTo x d)
    (hload : ∀ ins pc ea, s.memSlot = .occupied (.loadI ins pc ea) → ins.rd ≠ r) :
    fwd s r (s.regs.read r) = x.read r := by
  rw [Machine.fwd_eq, h.read_eq_forwardMem hload, wbStage_read_eq_forwardWb]
  cases forwardMem s r <;> rfl

end

end Sys2Proof.Machine
end

section
/-! PROOF. The sequential effect of an instruction as the pipeline computes it (R194): its record in EX, with operands from
the register file and no forwarding, completed through MEM and WB; and what ID reads or writes early (R188(a), (b)). -/

namespace Sys2Proof.Machine

/-! ### EX without forwarding -/

/-- What an occupant of EX becomes with the operands latched in ID (R116). -/
def ExLatch.result : ExLatch → MemLatch
  | .r ins pc rv1 rv2 => .r ins pc (alu ins.aluOp rv1 rv2) rv2
  | .i ins pc rv1 => .i ins pc (alu ins.aluOp rv1 ins.imm)
  | .loadI ins pc rv1 => .loadI ins pc (alu ins.aluOp rv1 ins.imm)
  | .s ins pc rv1 rv2 => .s ins pc (alu ins.aluOp rv1 ins.imm) rv2
  | .b ins pc => .b ins pc
  | .j ins pc => .j ins pc

section
variable {i : Instr} {pc : Word} {x : RegFile} {l : ExLatch}

/-- EX computes what it would from the register file `y`, if forwarding gives it the operands of `y`. -/
theorem exAction_eq_result {t : State} {y : RegFile} (hl : exLatchOf i pc x = some l)
    (h : ∀ r ∈ i.sources, fwd t r (x.read r) = y.read r) :
    ∃ l', exLatchOf i pc y = some l' ∧ exAction t l = l'.result := by
  cases i with
  | halt => cases hl
  | add | sub | xor | or | and | sw =>
    cases hl
    simp only [Instr.sources, List.forall_mem_cons] at h
    obtain ⟨h1, h2, -⟩ := h
    exact ⟨_, rfl, by simp only [exAction, ExLatch.result, h1, h2]⟩
  | addi | xori | ori | andi | lw | lwXor | lwOr | lwAnd =>
    cases hl
    simp only [Instr.sources, List.forall_mem_cons] at h
    obtain ⟨h1, -⟩ := h
    exact ⟨_, rfl, by simp only [exAction, ExLatch.result, h1]⟩
  | beq | bne | jal => cases hl; exact ⟨_, rfl, rfl⟩

theorem exLatchOf_wbDest (h : exLatchOf i pc x = some l) : l.ins.wbDest = i.wbDest := by
  cases i <;> cases h <;> rfl

/-- An instruction becomes a load in EX if it is one. -/
theorem stalls_of_exLatchOf {t : State} (hl : exLatchOf i pc x = some l) (hex : t.exSlot = .occupied l) (j : Instr) :
    (t.stalls j).toNat = stallCount (some i) [j] := by
  cases i with
  | halt => cases hl
  | lw rd | lwXor rd | lwOr rd | lwAnd rd =>
    cases hl
    by_cases hj : rd ∈ j.sources <;> simp [State.stalls, hex, stallCount, Instr.cls, Instr.wbDest, hj]
  | add | sub | xor | or | and | addi | xori | ori | andi | sw | beq | bne | jal =>
    cases hl
    simp [State.stalls, hex, stallCount, Instr.cls]

end

/-! ### The sequential effect -/

section
variable {q q' : SeqState}

/-- The address `seq` goes to after an instruction (R140). -/
def nextPc (i : Instr) (q : SeqState) : Word :=
  if transfersControl i q.regs then q.pc + transferOffset i else q.pc + 4#32

theorem seqLoad_next {rd : Reg} {ea : Word} (h : seqLoad rd ea q = .next q') :
    ∃ w, memRead q.params.dmemSize q.dmem ea = .ok w ∧
      q' = { q with regs := q.regs.write rd w, pc := q.pc + 4#32 } := by
  unfold seqLoad at h
  split at h
  · next w hw => cases h; exact ⟨w, hw, rfl⟩
  · cases h

theorem seqStore_next {ea v : Word} (h : seqStore ea v q = .next q') :
    ∃ d, memWrite q.params.dmemSize q.dmem ea v = .ok d ∧ q' = { q with dmem := d, pc := q.pc + 4#32 } := by
  unfold seqStore at h
  split at h
  · next d hd => cases h; exact ⟨d, hd, rfl⟩
  · cases h

/-- An instruction's sequential effect is its record in EX, completed, on top of what it writes in ID. -/
theorem seqExec_next {i : Instr} {l : ExLatch} (hl : exLatchOf i q.pc q.regs = some l) (h : seqExec i q = .next q') :
    Completes q.params.dmemSize (.occupied l.result) (idRegs i q.pc q.regs) q.dmem q'.regs q'.dmem ∧
      q'.pc = nextPc i q ∧ q'.params = q.params := by
  cases i with
  | halt => cases hl
  | add | sub | xor | or | and | addi | xori | ori | andi | jal =>
    cases hl
    cases h
    exact ⟨⟨_, rfl, rfl⟩, rfl, rfl⟩
  | lw | lwXor | lwOr | lwAnd =>
    obtain ⟨w, hw, rfl⟩ := seqLoad_next h
    cases hl
    exact ⟨⟨_, accessSlot_loadI hw, rfl⟩, rfl, rfl⟩
  | sw =>
    obtain ⟨d, hd, rfl⟩ := seqStore_next h
    cases hl
    exact ⟨⟨_, accessSlot_s hd, rfl⟩, rfl, rfl⟩
  | beq | bne =>
    cases hl
    cases h
    refine ⟨⟨_, rfl, rfl⟩, ?_, rfl⟩
    simp [nextPc, transfersControl, transferOffset, regsEqual]

theorem ne_halt_of_seqExec_next {i : Instr} (h : seqExec i q = .next q') : i ≠ .halt := by
  rintro rfl
  cases h

/-- What `seq` fetches is the word IMEM answers at its `pc`, decoded. -/
theorem seqFetch_ok_iff {i : Instr} :
    seqFetch q = .ok i ↔ ∃ w, imemRead q.params q.pc = .ok w ∧ decode w = .ok i := by
  unfold seqFetch
  cases imemRead q.params q.pc with
  | error e => simp
  | ok w => cases hd : decode w <;> simp [hd]

end

/-! ### The registers of an instruction's ID cycle (R188(a), (b)) -/

/-- The registers that an instruction compares or writes in ID: a branch's two operands, a jump's link. -/
def idRegisters : Instr → List Reg
  | .beq rs1 rs2 _ => [rs1, rs2]
  | .bne rs1 rs2 _ => [rs1, rs2]
  | .jal rd _ => [rd]
  | _ => []

/-- R188(a), (b): the older instruction does not write, behind ID, a register that the younger one uses in ID. -/
theorem apart_of_clearOf {i : Instr} {older : Option Instr} (h : clearOf i older = true) {r : Reg}
    (hr : r ∈ idRegisters i) : Apart (older.bind Instr.wbDest) r := by
  intro rd hrd
  obtain ⟨o, rfl, ho⟩ := Option.bind_eq_some_iff.mp hrd
  cases i with
  | beq | bne =>
    simp only [clearOf, ho, Bool.or_eq_true, Bool.and_eq_true, decide_eq_true_eq] at h
    simp only [idRegisters, List.mem_cons, List.not_mem_nil, or_false] at hr
    rcases hr with rfl | rfl
    · exact h.imp_right And.left
    · exact h.imp_right And.right
  | jal =>
    simp only [clearOf, ho, Bool.or_eq_true, decide_eq_true_eq] at h
    cases List.mem_singleton.mp hr
    exact h
  | _ => cases hr

/-- Register files that agree on the operands of a branch decide it alike. -/
theorem transfersControl_congr {i : Instr} {x y : RegFile} (h : ∀ r ∈ idRegisters i, x.read r = y.read r) :
    transfersControl i x = transfersControl i y := by
  cases i with
  | beq | bne =>
    simp only [idRegisters, List.forall_mem_cons] at h
    obtain ⟨h1, h2, -⟩ := h
    simp only [transfersControl, h1, h2]
  | _ => rfl

end Sys2Proof.Machine
end

section
/-! PROOF. The pipeline against the sequential reference, cycle by cycle (R188, R194): the relation `Tracks` between a state
of the pipeline and one of `seq`, and what each kind of cycle does to it: a fetch behind a bubble, a stall, the ID cycle of
an instruction, and the cycles of a HALT. -/

namespace Sys2Proof.Machine

/-! ### The relation -/

/-- `s` has in its registers, in DMEM and behind ID what `seq` has done on the way to `q`: once the occupants of WB, MEM
and EX have completed, it has the registers and DMEM of `q`. In EX and MEM it has no instructions but `last` and
`beforeLast`, the two that `seq` executed last, as far as they write registers in WB. -/
structure Tracks (s : State) (q : SeqState) (beforeLast last : Option Instr) : Prop where
  running : s.fault = none
  params : s.params = q.params
  completes : s.CompletesTo q.regs q.dmem
  exDest : ∀ rd, s.exSlot.dest ExLatch.ins = some rd → last.bind Instr.wbDest = some rd
  memDest : ∀ rd, s.memSlot.dest MemLatch.ins = some rd →
    last.bind Instr.wbDest = some rd ∨ beforeLast.bind Instr.wbDest = some rd

/-- `s` tracks `q`, and has the next instruction of `seq`, `i`, in ID. -/
structure InId (s : State) (q : SeqState) (beforeLast last : Option Instr) (i : Instr) : Prop
    extends Tracks s q beforeLast last where
  fetching : s.ifHalted = false
  pc : s.pc = q.pc + 4#32
  idSlot : ∃ w, decode w = .ok i ∧ s.idSlot = .occupied ⟨w, q.pc⟩

/-- `s` tracks `q`, and is about to fetch the next instruction of `seq`, behind a bubble. -/
structure AtFetch (s : State) (q : SeqState) (beforeLast last : Option Instr) : Prop
    extends Tracks s q beforeLast last where
  fetching : s.ifHalted = false
  pc : s.pc = q.pc
  idSlot : s.idSlot = .bubble

/-- The stalls that the EX slot of `s` causes are those of `last` (R130, R137). -/
def StallsBehind (s : State) (last : Option Instr) : Prop := ∀ j, (s.stalls j).toNat = stallCount last [j]

/-- `i` takes `seq` from `q` to `q'` under the conditions of R188: (a) and (b) against the two instructions before it, and
(c), the word behind it is readable. -/
structure SafeInstr (q q' : SeqState) (beforeLast last : Option Instr) (i : Instr) : Prop where
  seqExec : seqExec i q = .next q'
  clearOfLast : clearOf i last = true
  clearOfBeforeLast : clearOf i beforeLast = true
  fetchable : isFetchable q.params (q.pc + 4#32) = true

section
variable {s t : State} {q q' : SeqState} {beforeLast last : Option Instr} {i j : Instr}

/-! ### Cycles without an instruction -/

/-- A cycle that puts no instruction into EX and writes no link does nothing that `seq` would see. -/
theorem Tracks.step_empty (h : Tracks s q beforeLast last) (hst : step s = .next t) (hregs : t.regs = wbStage s)
    (hex : t.exSlot = .bubble ∨ t.exSlot = .halted) : Tracks t q beforeLast last := by
  obtain ⟨-, hmem⟩ := step_memStage h.running hst
  exact {
    running := step_fault h.running hst
    params := (step_params hst).trans h.params
    completes := (h.completes.settlesTo_of_step h.running hst hregs).completesTo hex
    exDest := fun rd hrd => by rcases hex with hex | hex <;> rw [hex] at hrd <;> cases hrd
    memDest := fun rd hrd => .inl (h.exDest rd (by rwa [hmem, exStage_dest] at hrd)) }

/-- While fetch runs, MEM is not in error: `seq` was not. What ID answers and the word fetched make the next state. -/
theorem Tracks.exists_step (h : Tracks s q beforeLast last) {out : IdOut} (hid : idStage s (wbStage s) = .ok out)
    (hrun : s.ifHalted = false) {w : Word} (hw : imemRead s.params s.pc = .ok w) :
    ∃ wb m, step s = .next (commit s out wb m (arbitrate s out.ctl w)) := by
  obtain ⟨wb, m, hm⟩ := h.completes.exists_memStage_ok
  exact ⟨wb, m, (step_next_iff h.running).mpr
    ⟨wb, m, out, _, hm, hid, ifStage_ok_iff.mpr (.inr ⟨hrun, w, hw, rfl⟩), rfl⟩⟩

/-- The cycle that fetches the next instruction into ID, behind a bubble (R117, case E; R121, last row). -/
theorem AtFetch.step_of_seqFetch (h : AtFetch s q beforeLast last) (hi : seqFetch q = .ok i) :
    ∃ t, step s = .next t ∧ InId t q beforeLast last i ∧ t.exSlot = .bubble := by
  obtain ⟨w, hw, hd⟩ := seqFetch_ok_iff.mp hi
  rw [← h.params, ← h.pc] at hw
  obtain ⟨wb, m, hst⟩ := h.exists_step (congrFun (idStage_of_bubble h.idSlot) _) h.fetching hw
  refine ⟨_, hst, ⟨h.step_empty hst rfl (.inl rfl), rfl, ?_, w, hd, ?_⟩, rfl⟩
  · exact congrArg (· + 4#32) h.pc
  · exact congrArg (fun a => Slot.occupied (FetchLatch.mk w a)) h.pc

/-! ### The ID cycle of an instruction -/

theorem InId.idPc (h : InId s q beforeLast last i) : s.idPc = q.pc := by
  obtain ⟨w, -, hs⟩ := h.idSlot
  exact State.idPc_occupied hs

theorem exists_imemRead_of_isFetchable {p : Params} {a : Word} (h : isFetchable p a = true) :
    ∃ w, imemRead p a = .ok w := by
  obtain ⟨h4, hin⟩ := isFetchable_iff.mp h
  exact ⟨_, imemRead_ok_iff.mpr ⟨h4, hin, rfl⟩⟩

/-- With the word behind it readable, the cycle of an instruction in ID answers a next state. -/
theorem InId.exists_step (h : InId s q beforeLast last i) (hf : isFetchable q.params (q.pc + 4#32) = true) :
    ∃ wb m w, imemRead q.params (q.pc + 4#32) = .ok w ∧
      step s = .next (commit s (idOut i s (wbStage s)) wb m (arbitrate s (idOut i s (wbStage s)).ctl w)) := by
  obtain ⟨w, hd, hs⟩ := h.idSlot
  obtain ⟨v, hw⟩ := exists_imemRead_of_isFetchable hf
  have hws := hw
  rw [← h.params, ← h.pc] at hws
  obtain ⟨wb, m, hst⟩ := h.toTracks.exists_step (congrFun (idStage_of_decode hs hd) _) h.fetching hws
  exact ⟨wb, m, _, hw, hst⟩

/-- A stall repeats the ID cycle with a bubble in EX (R131). -/
theorem InId.step_of_stalls (h : InId s q beforeLast last i) (hf : isFetchable q.params (q.pc + 4#32) = true)
    (hstall : s.stalls i = true) :
    ∃ t, step s = .next t ∧ InId t q beforeLast last i ∧ t.exSlot = .bubble := by
  obtain ⟨wb, m, w, -, hst⟩ := h.exists_step hf
  rw [idOut_of_stalls hstall] at hst
  exact ⟨_, hst, ⟨h.step_empty hst rfl (.inl rfl), rfl, h.pc, h.idSlot⟩, rfl⟩

/-- R188(a), (b): no occupant of EX or MEM writes a register that the instruction in ID uses there. -/
theorem Tracks.apart (h : Tracks s q beforeLast last) (hi : SafeInstr q q' beforeLast last i) {r : Reg}
    (hr : r ∈ idRegisters i) : Apart (s.exSlot.dest ExLatch.ins) r ∧ Apart (s.memSlot.dest MemLatch.ins) r := by
  have hlast := apart_of_clearOf hi.clearOfLast hr
  have hbefore := apart_of_clearOf hi.clearOfBeforeLast hr
  exact ⟨fun rd hrd => hlast rd (h.exDest rd hrd), fun rd hrd => (h.memDest rd hrd).elim (hlast rd) (hbefore rd)⟩

/-- R188(a): a branch decides as it does in `seq`. -/
theorem Tracks.transfersControl_eq (h : Tracks s q beforeLast last) (hi : SafeInstr q q' beforeLast last i) :
    transfersControl i (wbStage s) = transfersControl i q.regs := by
  refine transfersControl_congr fun r hr => ?_
  obtain ⟨hex, hmem⟩ := h.apart hi hr
  exact (h.completes.read_eq hex hmem).symm

/-- R188(b): a link stays on top of the writes that are still to come. -/
theorem Tracks.settlesTo_idRegs (h : Tracks s q beforeLast last) (hi : SafeInstr q q' beforeLast last i)
    (hst : step s = .next t) (hregs : t.regs = idRegs i q.pc (wbStage s)) :
    t.SettlesTo (idRegs i q.pc q.regs) q.dmem := by
  cases i with
  | jal rd imm =>
    obtain ⟨hex, hmem⟩ := h.apart (r := rd) hi (List.mem_singleton_self rd)
    exact h.completes.settlesTo_of_step_write h.running hst hregs hex hmem
  | _ => exact h.completes.settlesTo_of_step h.running hst hregs

theorem idRegs_of_mem_sources {r : Reg} (h : r ∈ i.sources) (pc : Word) (x : RegFile) : idRegs i pc x = x := by
  cases i with
  | jal => cases h
  | _ => rfl

/-- An instruction that does not stall gets, in EX, the operands it has in `seq` (R130 to R136). -/
theorem Tracks.fwd_eq (h : Tracks s q beforeLast last) (hi : SafeInstr q q' beforeLast last i) (hst : step s = .next t)
    (hregs : t.regs = idRegs i q.pc (wbStage s)) (hstall : s.stalls i = false) {r : Reg} (hr : r ∈ i.sources) :
    fwd t r ((wbStage s).read r) = q.regs.read r := by
  obtain ⟨-, hmem⟩ := step_memStage h.running hst
  have hsettles := h.settlesTo_idRegs hi hst hregs
  rw [idRegs_of_mem_sources hr] at hregs hsettles
  rw [← hregs]
  refine hsettles.fwd_eq fun ins pc ea hload hrd => ?_
  obtain ⟨v, hex⟩ := exStage_loadI (hmem ▸ hload)
  exact not_mem_sources_of_not_stalls hstall hex (hrd ▸ hr)

/-- The ID cycle of an instruction that enters EX is its step in `seq`. -/
theorem Tracks.step_instr (h : Tracks s q beforeLast last) (hi : SafeInstr q q' beforeLast last i)
    (hst : step s = .next t) {l : ExLatch} (hl : exLatchOf i q.pc (wbStage s) = some l)
    (hex : t.exSlot = .occupied l) (hregs : t.regs = idRegs i q.pc (wbStage s)) (hstall : s.stalls i = false) :
    Tracks t q' last (some i) := by
  obtain ⟨-, hmem⟩ := step_memStage h.running hst
  obtain ⟨l', hl', hresult⟩ := exAction_eq_result hl fun r hr => h.fwd_eq hi hst hregs hstall hr
  obtain ⟨hcompletes, -, hparams⟩ := seqExec_next hl' hi.seqExec
  have htparams := (step_params hst).trans h.params
  have hexStage : exStage t = .occupied l'.result := by rw [exStage, hex, ← hresult]
  exact {
    running := step_fault h.running hst
    params := htparams.trans hparams.symm
    completes := ⟨_, _, h.settlesTo_idRegs hi hst hregs, by rw [htparams, hexStage]; exact hcompletes⟩
    exDest := fun rd hrd => by rwa [hex, Slot.dest, exLatchOf_wbDest hl] at hrd
    memDest := fun rd hrd => .inr (h.exDest rd (by rwa [hmem, exStage_dest] at hrd)) }

/-- Where `seq` goes after an instruction. -/
theorem SafeInstr.pc_eq (hi : SafeInstr q q' beforeLast last i) : q'.pc = nextPc i q ∧ q'.params = q.params := by
  obtain ⟨l, hl⟩ := Option.ne_none_iff_exists'.mp
    (fun hn => ne_halt_of_seqExec_next hi.seqExec (exLatchOf_eq_none_iff (pc := q.pc) (x := q.regs).mp hn))
  exact (seqExec_next hl hi.seqExec).2

/-- The ID cycle of an instruction that does not stall: it enters EX, and ID has the next instruction of `seq`, or a bubble
in front of it behind a taken transfer. -/
theorem InId.step_of_not_stalls (h : InId s q beforeLast last i) (hi : SafeInstr q q' beforeLast last i)
    (hstall : s.stalls i = false) (hj : seqFetch q' = .ok j) :
    ∃ t, step s = .next t ∧
      ((transfersControl i q.regs = true ∧ AtFetch t q' last (some i)) ∨
        (transfersControl i q.regs = false ∧ InId t q' last (some i) j ∧ StallsBehind t (some i))) := by
  obtain ⟨hpc, hparams⟩ := hi.pc_eq
  obtain ⟨wb, m, w, hw, hst⟩ := h.exists_step hi.fetchable
  have hdecides := h.transfersControl_eq hi
  rcases idOut_cases i s (wbStage s) with ⟨hhalt, -⟩ | ⟨hs, -⟩ | ⟨l, hl, -, ⟨ht, ho⟩ | ⟨ht, ho⟩⟩
  · exact absurd hhalt (ne_halt_of_seqExec_next hi.seqExec)
  · rw [hstall] at hs; cases hs
  all_goals
    rw [ho, h.idPc] at hst
    rw [h.idPc] at hl
    rw [hdecides] at ht
    have htracks := h.step_instr hi hst hl rfl rfl hstall
    simp only [nextPc, ht, reduceIte, Bool.false_eq_true] at hpc
  · exact ⟨_, hst, .inl ⟨ht, htracks, rfl, hpc.symm, rfl⟩⟩
  · refine ⟨_, hst, .inr ⟨ht, ⟨htracks, rfl, ?_, w, ?_, ?_⟩, fun j => stalls_of_exLatchOf hl rfl j⟩⟩
    · exact congrArg (· + 4#32) (h.pc.trans hpc.symm)
    · obtain ⟨w', hw', hd⟩ := seqFetch_ok_iff.mp hj
      rw [hparams, hpc, hw] at hw'
      cases hw'
      exact hd
    · exact congrArg (fun a => Slot.occupied (FetchLatch.mk w a)) (h.pc.trans hpc.symm)

/-- A branch or a jump causes no stall behind it. -/
theorem stallCount_of_transfersControl {x : RegFile} (h : transfersControl i x = true) (j : Instr) :
    stallCount (some i) [j] = 0 := by
  cases i with
  | beq | bne | jal => rfl
  | _ => cases h

theorem stallsBehind_of_bubble (hex : s.exSlot = .bubble) (hlast : ∀ j, stallCount last [j] = 0) :
    StallsBehind s last := by
  intro j
  rw [stalls_of_exSlot_bubble hex, hlast]
  rfl

/-- From one instruction of `seq` in ID to the next, if it does not stall: one cycle, and one more behind a taken
transfer (R146). -/
theorem InId.runs_of_not_stalls (h : InId s q beforeLast last i) (hi : SafeInstr q q' beforeLast last i)
    (hstall : s.stalls i = false) (hj : seqFetch q' = .ok j) :
    ∃ t u, step s = .next t ∧ Runs (if transfersControl i q.regs then 1 else 0) t u ∧
      InId u q' last (some i) j ∧ StallsBehind u (some i) := by
  obtain ⟨t, hst, ⟨ht, hfetch⟩ | ⟨ht, hnext, hbehind⟩⟩ := h.step_of_not_stalls hi hstall hj
  · obtain ⟨u, htu, hu, hex⟩ := hfetch.step_of_seqFetch hj
    refine ⟨t, u, hst, ?_, hu, stallsBehind_of_bubble hex (stallCount_of_transfersControl ht)⟩
    rw [if_pos ht]
    exact Runs.succ_iff.mpr ⟨u, htu, Runs.zero_iff.mpr rfl⟩
  · refine ⟨t, t, hst, ?_, hnext, hbehind⟩
    rw [if_neg (ne_true_of_eq_false ht)]
    exact Runs.zero_iff.mpr rfl

/-- From one instruction of `seq` in ID to the next, a stall included (R137). -/
theorem InId.runs_to_next (h : InId s q beforeLast last i) (hbehind : StallsBehind s last)
    (hi : SafeInstr q q' beforeLast last i) (hj : seqFetch q' = .ok j) :
    ∃ u, Runs (1 + stallCount last [i] + (if transfersControl i q.regs then 1 else 0)) s u ∧
      InId u q' last (some i) j ∧ StallsBehind u (some i) := by
  rw [← hbehind i]
  cases hstall : s.stalls i with
  | false =>
    obtain ⟨t, u, hst, htu, hu⟩ := h.runs_of_not_stalls hi hstall hj
    refine ⟨u, ?_, hu⟩
    rw [Bool.toNat_false, Nat.add_zero, Nat.add_comm 1]
    exact Runs.succ_iff.mpr ⟨t, hst, htu⟩
  | true =>
    obtain ⟨s1, hs1, h1, hex⟩ := h.step_of_stalls hi.fetchable hstall
    obtain ⟨t, u, hst, htu, hu⟩ := h1.runs_of_not_stalls hi (stalls_of_exSlot_bubble hex i) hj
    refine ⟨u, ?_, hu⟩
    rw [Bool.toNat_true, Nat.add_comm (1 + 1)]
    exact Runs.succ_iff.mpr ⟨s1, hs1, Runs.succ_iff.mpr ⟨t, hst, htu⟩⟩

/-! ### The cycles of a HALT -/

/-- A cycle behind a HALT (R152). -/
theorem Tracks.step_drain (h : Tracks s q beforeLast last) (hif : s.ifHalted = true) (hid : s.idSlot = .halted) :
    ∃ wb m, memStage s = .ok (wb, m) ∧ step s = .next (s.afterDrain wb m) ∧
      Tracks (s.afterDrain wb m) q beforeLast last := by
  obtain ⟨wb, m, hm⟩ := h.completes.exists_memStage_ok
  have hst := Machine.step_drain h.running hif hid hm
  exact ⟨wb, m, hm, hst, h.step_empty hst rfl (.inr rfl)⟩

/-- The ID cycle of a HALT (R150). -/
theorem InId.step_halt (h : InId s q beforeLast last .halt) (hf : isFetchable q.params (q.pc + 4#32) = true) :
    ∃ wb m, step s = .next (s.afterHalt wb m) ∧ Tracks (s.afterHalt wb m) q beforeLast last := by
  obtain ⟨wb, m, w, -, hst⟩ := h.exists_step hf
  exact ⟨wb, m, hst, h.step_empty hst rfl (.inl rfl)⟩

/-- Fully halted, the machine has the registers and DMEM of `seq`: no occupant is left to change them. -/
theorem Tracks.eq_of_haltedOut (h : Tracks s q beforeLast last) (hout : s.haltedOut = true) :
    s.regs = q.regs ∧ s.dmem = q.dmem := by
  obtain ⟨-, -, hex, hmem, hwb⟩ := State.haltedOut_iff.mp hout
  obtain ⟨x, d, hsettles, hcompletes⟩ := h.completes
  obtain ⟨rfl, rfl⟩ := (completes_of_empty (.inr (by rw [exStage, hex]))).mp hcompletes
  obtain ⟨hx, hd⟩ := (completes_of_empty (.inr hmem)).mp hsettles
  exact ⟨(wbStage_halted hwb).symm.trans hx, hd⟩

/-- From a HALT in ID, four cycles to the fully halted machine with the registers and DMEM of `seq` (R152, R153). -/
theorem InId.runs_of_halt (h : InId s q beforeLast last .halt) (hf : isFetchable q.params (q.pc + 4#32) = true) :
    ∃ u, Runs 4 s u ∧ u.haltedOut = true ∧ u.regs = q.regs ∧ u.dmem = q.dmem := by
  obtain ⟨wb1, m1, hst1, h1⟩ := h.step_halt hf
  obtain ⟨wb2, m2, -, hst2, h2⟩ := h1.step_drain rfl rfl
  obtain ⟨wb3, m3, -, hst3, h3⟩ := h2.step_drain rfl rfl
  obtain ⟨wb4, m4, hm4, hst4, h4⟩ := h3.step_drain rfl rfl
  cases hm4
  refine ⟨_, ?_, rfl, h4.eq_of_haltedOut rfl⟩
  exact Runs.succ_iff.mpr ⟨_, hst1, Runs.succ_iff.mpr ⟨_, hst2, Runs.succ_iff.mpr ⟨_, hst3, Runs.succ_iff.mpr
    ⟨_, hst4, Runs.zero_iff.mpr rfl⟩⟩⟩⟩

end

end Sys2Proof.Machine
end

section
/-! PROOF. The pipeline and the sequential reference come to the same (R188, R194): one instruction alone, and a program
that keeps the hazard conditions. -/

namespace Sys2Proof.Machine

/-! ### One instruction in an empty pipeline -/

theorem tracks_of_empty {s : State} (hf : s.fault = none) (hex : s.exSlot = .bubble) (hmem : s.memSlot = .bubble)
    (hwb : s.wbSlot = .bubble) (pc : Word) : Tracks s ⟨s.params, s.regs, pc, s.dmem⟩ none none where
  running := hf
  params := rfl
  completes := State.completesTo_of_empty (.inl hex) (.inl hmem) (.inl hwb)
  exDest := fun rd hrd => by rw [hex] at hrd; cases hrd
  memDest := fun rd hrd => by rw [hmem] at hrd; cases hrd

/-- Settles O50: the instruction's ID cycle, the bubble of a taken transfer, and the four cycles of the HALT behind it. -/
theorem loneInstructionHasItsSequentialEffect : Obligations.LoneInstructionHasItsSequentialEffect := by
  intro s f i q hinv hs hd _ hex hmem hwb hpc hseq hfetch hhalt hbehind
  obtain ⟨hrun, hw⟩ := imemRead_of_fetchOk hfetch
  obtain ⟨h4, hin, -⟩ := imemRead_ok_iff.mp hw
  have hid : InId s ⟨s.params, s.regs, f.pc, s.dmem⟩ none none i :=
    ⟨tracks_of_empty hinv.running hex hmem hwb f.pc, hrun, hpc, f.word, hd, hs⟩
  have hi : SafeInstr ⟨s.params, s.regs, f.pc, s.dmem⟩ q none none i :=
    ⟨hseq, rfl, rfl, isFetchable_iff.mpr (hpc ▸ ⟨h4, hin⟩)⟩
  obtain ⟨t, u, hst, htu, hu, -⟩ := hid.runs_of_not_stalls hi (stalls_of_exSlot_bubble hex i) hhalt
  obtain ⟨v, huv, hv⟩ := hu.runs_of_halt hbehind
  refine ⟨t, v, (step_eq_exec hinv.running hs hd).symm.trans hst, ?_, hv⟩
  convert htu.append huv using 1
  split <;> rfl

/-! ### A program -/

/-- `seq` comes from `q` to a HALT at `q'` in `k` instructions, under the conditions (a), (b) and (c) of R188. -/
structure SafeRun (k : Nat) (q q' : SeqState) (beforeLast last : Option Instr) : Prop where
  seqAfter : seqAfter k q = some q'
  halt : seqFetch q' = .ok .halt
  hazardFree : hazardFree beforeLast last (seqTrace k q) = true
  fetchable : ∀ j q1, j ≤ k → Machine.seqAfter j q = some q1 → isFetchable q.params (q1.pc + 4#32) = true

section
variable {k : Nat} {q q' q1 : SeqState} {beforeLast last : Option Instr} {i : Instr}

theorem seqAfter_succ (hi : seqFetch q = .ok i) (h : seqExec i q = .next q1) (k : Nat) :
    seqAfter (k + 1) q = seqAfter k q1 := by
  simp only [seqAfter, seqStep, hi, h]

theorem seqTrace_succ (hi : seqFetch q = .ok i) (h : seqExec i q = .next q1) (k : Nat) :
    seqTrace (k + 1) q = i :: seqTrace k q1 := by
  rw [seqTrace, hi]
  simp only [h]

theorem seqTrace_of_halt (h : seqFetch q = .ok .halt) : seqTrace 0 q = [.halt] := by
  rw [seqTrace, h]

theorem transferCount_succ (hi : seqFetch q = .ok i) (h : seqExec i q = .next q1) (k : Nat) :
    transferCount (k + 1) q = (if transfersControl i q.regs then 1 else 0) + transferCount k q1 := by
  simp only [transferCount, hi, h]

theorem stallCount_cons (last : Option Instr) (i : Instr) (rest : List Instr) :
    stallCount last (i :: rest) = stallCount last [i] + stallCount (some i) rest := rfl

/-- A HALT has no source, and so never stalls. -/
theorem stallCount_halt (last : Option Instr) : stallCount last [.halt] = 0 := by
  cases last with
  | none => rfl
  | some older =>
    simp only [stallCount, Instr.sources, List.not_mem_nil, reduceIte]
    split <;> rfl

/-- The instructions of a run are all fetched and executed without an error. -/
theorem exists_of_seqAfter_succ (h : seqAfter (k + 1) q = some q') :
    ∃ i q1, seqFetch q = .ok i ∧ seqExec i q = .next q1 := by
  unfold seqAfter seqStep at h
  cases hi : seqFetch q with
  | error e => simp [hi] at h
  | ok i =>
    cases he : seqExec i q with
    | next q1 => exact ⟨i, q1, rfl, he⟩
    | ended | error => simp [hi, he] at h

theorem SafeRun.exists_seqFetch (h : SafeRun k q q' beforeLast last) : ∃ i, seqFetch q = .ok i := by
  cases k with
  | zero =>
    cases h.seqAfter
    exact ⟨_, h.halt⟩
  | succ k =>
    obtain ⟨i, q1, hi, -⟩ := exists_of_seqAfter_succ h.seqAfter
    exact ⟨i, hi⟩

/-- The first instruction of a run, and the run behind it. -/
theorem SafeRun.tail (h : SafeRun (k + 1) q q' beforeLast last) (hi : seqFetch q = .ok i) :
    ∃ q1, SafeInstr q q1 beforeLast last i ∧ SafeRun k q1 q' last (some i) := by
  obtain ⟨i', q1, hi', he⟩ := exists_of_seqAfter_succ h.seqAfter
  rw [hi] at hi'
  cases hi'
  have hhazards := h.hazardFree
  simp only [seqTrace_succ hi he, Machine.hazardFree, Bool.and_eq_true] at hhazards
  obtain ⟨⟨hlast, hbefore⟩, hrest⟩ := hhazards
  have hsafe : SafeInstr q q1 beforeLast last i := ⟨he, hlast, hbefore, h.fetchable 0 q (Nat.zero_le _) rfl⟩
  obtain ⟨-, hparams⟩ := hsafe.pc_eq
  refine ⟨q1, hsafe, (seqAfter_succ hi he k).symm.trans h.seqAfter, h.halt, hrest, fun j q2 hj hq2 => ?_⟩
  rw [hparams]
  exact h.fetchable (j + 1) q2 (Nat.succ_le_succ hj) ((seqAfter_succ hi he j).trans hq2)

end

/-- The pipeline takes a run of `seq` to its HALT, in one cycle for each instruction, each stall and each taken transfer
(R155, R188). -/
theorem InId.runs_to_halt {k : Nat} {s : State} {q q' : SeqState} {beforeLast last : Option Instr} {i : Instr}
    (h : InId s q beforeLast last i) (hbehind : StallsBehind s last) (hi : seqFetch q = .ok i)
    (hrun : SafeRun k q q' beforeLast last) :
    ∃ u b l, Runs (k + stallCount last (seqTrace k q) + transferCount k q) s u ∧ InId u q' b l .halt := by
  induction k generalizing s q beforeLast last i with
  | zero =>
    cases hrun.seqAfter
    have hhalt := hrun.halt
    rw [hi] at hhalt
    cases hhalt
    refine ⟨s, _, _, ?_, h⟩
    rw [seqTrace_of_halt hi, stallCount_halt]
    exact Runs.zero_iff.mpr rfl
  | succ k ih =>
    obtain ⟨q1, hsafe, hrest⟩ := hrun.tail hi
    obtain ⟨j, hj⟩ := hrest.exists_seqFetch
    obtain ⟨t, hst, ht, htbehind⟩ := h.runs_to_next hbehind hsafe hj
    obtain ⟨u, b, l, htu, hu⟩ := ih ht htbehind hj hrest
    refine ⟨u, b, l, ?_, hu⟩
    rw [seqTrace_succ hi hsafe.seqExec, transferCount_succ hi hsafe.seqExec, stallCount_cons]
    convert hst.append htu using 1
    omega

/-- Settles O51: the cycle that fetches the first instruction, those up to the HALT, and the HALT's four. -/
theorem pipelineEqualsSequentialExecution : Obligations.PipelineEqualsSequentialExecution := by
  intro p n q _ hafter hhalt hhazards hfetch
  have hrun : SafeRun n (SeqState.launched p) q none none := ⟨hafter, hhalt, hhazards, hfetch⟩
  obtain ⟨i, hi⟩ := hrun.exists_seqFetch
  have hlaunch : AtFetch (State.launched p) (SeqState.launched p) none none :=
    ⟨tracks_of_empty rfl rfl rfl rfl Config.resetPc, rfl, rfl, rfl⟩
  obtain ⟨s, hs, hid, hex⟩ := hlaunch.step_of_seqFetch hi
  obtain ⟨t, b, l, hst, ht⟩ := hid.runs_to_halt (stallsBehind_of_bubble hex fun _ => rfl) hi hrun
  have hlast : isFetchable q.params (q.pc + 4#32) = true := by
    rw [← ht.params, hst.params_eq, step_params hs]
    exact hfetch n q le_rfl hafter
  obtain ⟨u, htu, hu⟩ := ht.runs_of_halt hlast
  refine ⟨u, ?_, hu⟩
  convert Runs.succ_iff.mpr ⟨s, hs, hst.append htu⟩ using 1
  omega

end Sys2Proof.Machine
end
